-- ==== Sys2Proof/Word.lean ====
section
/-! DEFINITION. The word types of the block (R8: unsigned bit patterns; R3/R7: the widths). -/

namespace Sys2Proof

/-- One bus data byte or target register (R7: data width 8 bits). -/
abbrev Byte := BitVec 8

/-- One block register or one command word (R7: register width 32 bits). -/
abbrev Word := BitVec 32

/-- A 7-bit target bus address (R7: bus address width). -/
abbrev DevAddr := BitVec 7

/-- A raw magnetometer sample's 16 bits; read as a signed number by `BitVec.toInt` (R8: `int16`). -/
abbrev Sample := BitVec 16

/-- A binary64 value, held as its 64-bit pattern (R11: `bits64`). -/
abbrev F64 := BitVec 64

end Sys2Proof
end

