-- ==== Sys2Proof/Syntax.lean ====
section
/-! DEFINITION. The four commands of the block (R3, R71), one constructor per row of spec/opcode_table.json. -/

namespace Sys2Proof

/-- The commands a host may write to CMD (R3, R71).
A word that is none of them is illegal (R75) and has no constructor: the decoder refuses it by name. -/
inductive Instr where
  /-- RDREG: single-byte register read from target `dev`, register `reg` (R100). -/
  | rdreg (dev : DevAddr) (reg : Byte)
  /-- WRREG: single-byte register write of `data` to target `dev`, register `reg` (R101). -/
  | wrreg (dev : DevAddr) (reg : Byte) (data : Byte)
  /-- HEADING: bearing and sector of the raw samples in HXY (R134). -/
  | heading
  /-- SECTOR: sector of the angle in HAIN (R138). -/
  | sector
  deriving DecidableEq, Repr, Inhabited

end Sys2Proof
end

