-- ==== Sys2Proof/WellFormed.lean ====
section
/-! DEFINITION. The assembler's terms and the range check on their operands (R82).
An `Instr` carries operands of exactly the field widths, so every `Instr` is well formed by its type; the check
bears on the assembler's terms, whose operands are numbers of any size. -/

namespace Sys2Proof

/-- One line of the assembler of R82, its operands still plain numbers. -/
inductive Asm where
  | rdreg (dev reg : Nat)
  | wrreg (dev reg data : Nat)
  | heading
  | sector
  deriving DecidableEq, Repr, Inhabited

/-- R82: DEV in 0..0x7F. -/
def Asm.devOk (dev : Nat) : Bool := decide (dev ≤ 0x7F)

/-- R82: REG and DATA in 0..0xFF. -/
def Asm.byteOk (b : Nat) : Bool := decide (b ≤ 0xFF)

/-- R82: the operand ranges of each command. -/
def Asm.wellFormed : Asm → Bool
  | .rdreg dev reg => devOk dev && byteOk reg
  | .wrreg dev reg data => devOk dev && byteOk reg && byteOk data
  | .heading => true
  | .sector => true

/-- R82: "An operand out of range is an assembly error, never truncated": `none` is that error. -/
def Asm.toInstr (a : Asm) : Option Instr :=
  if a.wellFormed then
    match a with
    | .rdreg dev reg => some (.rdreg (BitVec.ofNat 7 dev) (BitVec.ofNat 8 reg))
    | .wrreg dev reg data =>
      some (.wrreg (BitVec.ofNat 7 dev) (BitVec.ofNat 8 reg) (BitVec.ofNat 8 data))
    | .heading => some .heading
    | .sector => some .sector
  else none

/-- The assembler's term for a command. -/
def Instr.toAsm : Instr → Asm
  | .rdreg dev reg => .rdreg dev.toNat reg.toNat
  | .wrreg dev reg data => .wrreg dev.toNat reg.toNat data.toNat
  | .heading => .heading
  | .sector => .sector

/-- A command is well formed when its assembler term is (R82); the field widths make this hold of every `Instr`. -/
def Instr.wellFormed (i : Instr) : Bool := i.toAsm.wellFormed

end Sys2Proof
end

