-- ==== Sys2Proof/Decode.lean ====
section
/-! DEFINITION. Decoding a command word (R70 to R75), then the encoder and the assembler (R82). -/

namespace Sys2Proof

/-- One row of the table of R72: a word is this command when `w &&& mask = value`. -/
structure OpcodeRow where
  mnemonic : String
  mask : Word
  value : Word
  deriving DecidableEq, Repr

/-- R72's table of masks and matches, in the order R73 tries them. -/
def opcodeRows : List OpcodeRow :=
  [⟨"RDREG", 0xFF0080FF#32, 0x00000001#32⟩,
   ⟨"WRREG", 0x000080FF#32, 0x00000002#32⟩,
   ⟨"HEADING", 0xFFFFFFFF#32, 0x00000003#32⟩,
   ⟨"SECTOR", 0xFFFFFFFF#32, 0x00000004#32⟩]

/-- R72: the mask of each command's row. -/
def Instr.mask : Instr → Word
  | .rdreg _ _ => 0xFF0080FF#32
  | .wrreg _ _ _ => 0x000080FF#32
  | .heading => 0xFFFFFFFF#32
  | .sector => 0xFFFFFFFF#32

/-- R72: the fixed bits of each command's row. -/
def Instr.fixedBits : Instr → Word
  | .rdreg _ _ => 0x00000001#32
  | .wrreg _ _ _ => 0x00000002#32
  | .heading => 0x00000003#32
  | .sector => 0x00000004#32

/-- R70: OP, bits 3:0. -/
def opField (w : Word) : BitVec 4 := w.extractLsb' 0 4

/-- R70, R74: DEV, bits 14:8, copied out of the word. -/
def devField (w : Word) : DevAddr := w.extractLsb' 8 7

/-- R70, R74: REG, bits 23:16. -/
def regField (w : Word) : Byte := w.extractLsb' 16 8

/-- R70, R74: DATA, bits 31:24. -/
def dataField (w : Word) : Byte := w.extractLsb' 24 8

/-- Why a word is ILLEGAL (R75). -/
inductive Illegal where
  /-- OP is 0x0 or 0x5 to 0xF (R71, R75). -/
  | reservedOp
  /-- A legal OP with a nonzero bit that must be 0 (R72, R75). -/
  | reservedBits
  deriving DecidableEq, Repr, Inhabited

/-- What the decoder answers: a command, or ILLEGAL with its reason (R73, R75). -/
inductive Decoded where
  | cmd (i : Instr)
  | illegal (why : Illegal)
  deriving DecidableEq, Repr, Inhabited

/-- R73: total on every 32-bit word. -/
def decode (w : Word) : Decoded :=
  if w &&& 0xFF0080FF#32 = 0x00000001#32 then .cmd (.rdreg (devField w) (regField w))
  else if w &&& 0x000080FF#32 = 0x00000002#32 then
    .cmd (.wrreg (devField w) (regField w) (dataField w))
  else if w = 0x00000003#32 then .cmd .heading
  else if w = 0x00000004#32 then .cmd .sector
  else if 1 ≤ (opField w).toNat ∧ (opField w).toNat ≤ 4 then .illegal .reservedBits
  else .illegal .reservedOp

/-- The command a word decodes to, if it is one. -/
def Decoded.instr : Decoded → Option Instr
  | .cmd i => some i
  | .illegal _ => none

/-- R82: the encoding function `enc`. -/
def encode : Instr → Word
  | .rdreg dev reg => (reg.setWidth 32 <<< 16) ||| (dev.setWidth 32 <<< 8) ||| 0x1#32
  | .wrreg dev reg data =>
    (data.setWidth 32 <<< 24) ||| (reg.setWidth 32 <<< 16) ||| (dev.setWidth 32 <<< 8) ||| 0x2#32
  | .heading => 0x00000003#32
  | .sector => 0x00000004#32

/-- R82: a line's word, or `none` for an assembly error. -/
def Asm.assemble (a : Asm) : Option Word := a.toInstr.map encode

/-! The text form of R82, on lists of characters: mnemonic in lower case, operands separated by commas, numbers
decimal or hexadecimal with `0x`. -/

/-- The value of one digit in base `base` (10 or 16). DESIGN CHOICE: hexadecimal digits in either case (log 22). -/
def Asm.digit (base : Nat) (c : Char) : Option Nat :=
  let n := c.toNat
  let v := if 48 ≤ n ∧ n ≤ 57 then n - 48
    else if 97 ≤ n ∧ n ≤ 102 then n - 87
    else if 65 ≤ n ∧ n ≤ 70 then n - 55
    else base
  if v < base then some v else none

/-- Digits in base `base`, most significant first, onto an accumulated value. -/
def Asm.digits (base : Nat) : List Char → Nat → Option Nat
  | [], acc => some acc
  | c :: cs, acc =>
    match digit base c with
    | some v => digits base cs (base * acc + v)
    | none => none

/-- R82: "Numbers are decimal, or hexadecimal with a `0x` prefix". -/
def Asm.number : List Char → Option Nat
  | [] => none
  | ['0', 'x'] => none
  | '0' :: 'x' :: cs => digits 16 cs 0
  | cs => digits 10 cs 0

/-- Blanks are dropped from both ends of a piece. -/
def Asm.trim (cs : List Char) : List Char :=
  ((cs.dropWhile (· == ' ')).reverse.dropWhile (· == ' ')).reverse

/-- The pieces of a text between commas (a text with no comma is one piece). -/
def Asm.splitCommas : List Char → List (List Char)
  | [] => [[]]
  | c :: cs =>
    if c == ',' then [] :: splitCommas cs
    else
      match splitCommas cs with
      | p :: ps => (c :: p) :: ps
      | [] => [[c]]

/-- The numbers of a text's pieces, if each of them is a number. -/
def Asm.numbers : List (List Char) → Option (List Nat)
  | [] => some []
  | p :: ps =>
    match number (trim p), numbers ps with
    | some n, some ns => some (n :: ns)
    | _, _ => none

/-- R82: one line of the assembler; `none` is an assembly error of form. -/
def Asm.parse (line : List Char) : Option Asm :=
  let body := trim line
  let name := body.takeWhile (· != ' ')
  let rest := trim (body.dropWhile (· != ' '))
  if name = ['h', 'e', 'a', 'd', 'i', 'n', 'g'] ∧ rest = [] then some .heading
  else if name = ['s', 'e', 'c', 't', 'o', 'r'] ∧ rest = [] then some .sector
  else
    match numbers (splitCommas rest) with
    | some [dev, reg] => if name = ['r', 'd', 'r', 'e', 'g'] then some (.rdreg dev reg) else none
    | some [dev, reg, data] =>
      if name = ['w', 'r', 'r', 'e', 'g'] then some (.wrreg dev reg data) else none
    | _ => none

/-- R82: the word a line of text assembles to. -/
def Asm.assembleLine (line : List Char) : Option Word :=
  match parse line with
  | some a => a.assemble
  | none => none

/-- The word whose bits are the low `nbits` of `w` (bits above are 0): how the opcode table numbers a command. -/
def tableWord (nbits w : Nat) : Word := BitVec.ofNat 32 (w % 2 ^ nbits)

/-- The instruction the decoder reads from a table row's bits (R70: every command is one 32-bit word). -/
def decodeTableWord (nbits w : Nat) : Option Instr := (decode (tableWord nbits w)).instr

end Sys2Proof
end

