-- ==== Sys2Proof/Machine/Types.lean ====
section
/-! DEFINITION. The closed sets of names the spec gives: bus events, phases, errors, sectors, requests, the target's
positions, host accesses, the host's procedures, and the turns the agents take. -/

namespace Sys2Proof.Machine

/-- R10: the answer to a byte. -/
inductive Ack where
  | ack
  | nack
  deriving DecidableEq, Repr, Inhabited

/-- R10: the direction of an address byte. -/
inductive Dir where
  | w
  | r
  deriving DecidableEq, Repr, Inhabited

/-- R10, R59: the bus events, as the trace records them. -/
inductive BusEvent where
  /-- `S`: START. -/
  | start
  /-- `Sr`: repeated START. -/
  | rstart
  /-- `P`: STOP. -/
  | stop
  /-- `A(addr7, rw, ack)`: the address byte and the target's answer. -/
  | addr (a : DevAddr) (rw : Dir) (ans : Ack)
  /-- `T(b, ack)`: a byte sent by the controller and the target's answer. -/
  | tx (b : Byte) (ans : Ack)
  /-- `Rx(b, mack)`: a byte received and the controller's answer. -/
  | rx (b : Byte) (mack : Ack)
  /-- `REL`: the controller releases both lines without a STOP. -/
  | rel
  deriving DecidableEq, Repr, Inhabited

/-- R28, R78: the states of the transaction state machine, in the source's order. -/
inductive Phase where
  | idle
  | startSent
  | addrWSent
  | regAddrSent
  | dataSent
  | repeatedStart
  | addrRSent
  | ackDisabled
  | dataReceived
  | stopSent
  deriving DecidableEq, Repr, Inhabited

/-- R27, R76: the error kinds. -/
inductive ErrCode where
  | none
  | busTimeout
  | deviceNotAck
  | illegalCmd
  | angleDomain
  deriving DecidableEq, Repr, Inhabited

/-- R35, R76, R77: the sectors, with NONE for no sector. -/
inductive Sector where
  | north
  | east
  | south
  | west
  | none
  deriving DecidableEq, Repr, Inhabited

/-- R37: the command being executed (`lop`); `lop = NONE` is `Option.none`. -/
inductive Op where
  | rd
  | wr
  | hdg
  | sec
  deriving DecidableEq, Repr, Inhabited

/-- R40: the bus requests; `req = NONE` is `Option.none`. -/
inductive Req where
  | start
  | addrw
  | txreg
  | txdata
  | rstart
  | addrr
  | rxnack
  | stop
  deriving DecidableEq, Repr, Inhabited

/-- R40: the state of a pending request. -/
inductive ReqState where
  | pending
  | stalled
  deriving DecidableEq, Repr, Inhabited

/-- R44: the target's position in the current transaction. -/
inductive TSeq where
  | free
  | started
  | addrW
  | ptrSet
  | dataW
  | addrR
  | ignore
  deriving DecidableEq, Repr, Inhabited

/-- R20: the eleven host-visible registers. -/
inductive Reg where
  | ctrl
  | timeout
  | cmd
  | status
  | rxdata
  | hxy
  | hainLo
  | hainHi
  | hangleLo
  | hangleHi
  | hsector
  deriving DecidableEq, Repr, Inhabited

/-- R9, R50: a host load or store of `n` bytes at host address `BASE + off`, `off` in the block's 256-byte window.
A store's value is carried as 32 bits: a store of another width is refused whatever its value (R52). -/
inductive Access where
  | read (off : BitVec 8) (n : Nat)
  | write (off : BitVec 8) (n : Nat) (v : Word)
  deriving DecidableEq, Repr, Inhabited

/-- R171: the measurement modes the host names. -/
inductive Mode where
  | continuous
  | singleShot
  | idle
  deriving DecidableEq, Repr, Inhabited

/-- R165 to R175: the source's host procedures, as calls. -/
inductive Proc where
  | runCmd (w : Word)
  | read (dev : DevAddr) (reg : Byte)
  | write (dev : DevAddr) (reg v : Byte)
  | readAxis (m : Byte)
  | readAxisX
  | readAxisY
  | readAxisZ
  | readAxes
  | readIdentity
  | readStatus
  | setMode (m : Mode)
  /-- R172: `initialize()` of the source. -/
  | initSession
  | computeHeading (x y : Sample)
  | sectorOf (a : F64)
  | cycle
  deriving DecidableEq, Repr, Inhabited

/-- What a procedure returns at its end, built from what it has read. -/
inductive Ret where
  | status
  | byte
  | unit
  | axis
  | axes
  | identity
  | idCheck
  | angle
  | sector
  | cycle
  deriving DecidableEq, Repr, Inhabited

/-- One statement of a host procedure: at most one host access each (R56, R57). -/
inductive HostOp where
  /-- R165: one turn of `while R32(0x0C)[0] == 1: skip`. -/
  | waitIdle
  /-- `W32(off, v)`. -/
  | write (off : BitVec 8) (v : Word)
  /-- R165: one turn of `loop: s <- R32(0x0C); if s[1] == 1 then return s`. -/
  | waitDone
  /-- R166: `if s[7:4] != 0 then return Err(s[7:4])`. -/
  | checkErr
  /-- R166: `R32(0x10)[7:0]`. -/
  | readByte
  /-- R167: `int16((hi << 8) | lo)` of the last two bytes read. -/
  | assemble
  /-- R173 in R175: `W32(0x14, (y << 16) | x)` for the samples just read. -/
  | writeXY
  /-- R173: `R32(0x24)`. -/
  | readAngleHi
  /-- R173: `R32(0x20)`. -/
  | readAngleLo
  /-- R174: `R32(0x28)[3:0]`. -/
  | readSector
  /-- `return` of the procedure's value. -/
  | ret (r : Ret)
  deriving DecidableEq, Repr, Inhabited

/-- The values the host procedures return (R165 to R178). -/
inductive HostResult where
  /-- `Err(e)`: the block's ERR code (R176: 1 BusTimeout, 2 DeviceNotAcknowledged). -/
  | err (e : BitVec 4)
  /-- The final STATUS word of `runCmd`. -/
  | status (w : Word)
  /-- `Ok` of a procedure with no value. -/
  | ok
  | byte (b : Byte)
  | axis (v : Sample)
  | axes (x y z : Sample)
  | identity (a b c : Byte)
  /-- R172: `IdentityOk`. -/
  | identityOk
  /-- R172, R185: `UnexpectedIdentity(id)`. -/
  | unexpectedIdentity (a b c : Byte)
  | angle (a : F64)
  | sector (s : Sector)
  /-- R175: what the cycle hands to the display collaborator. -/
  | display (a : F64) (s : Sector)
  deriving DecidableEq, Repr, Inhabited

/-- One turn of one agent (R12, R16). R57: turns of the agents are interleaved one at a time, in any order. -/
inductive Turn where
  /-- HOST: one access of its own to the window. -/
  | host (a : Access)
  /-- HOST: calls one of the source's procedures. -/
  | call (p : Proc)
  /-- HOST: the next statement of the procedure it is running. -/
  | thread
  /-- CTL: its enabled step (R106, R109, R113, R135 or R139). -/
  | ctl
  /-- BUS: completes the pending request with any outcome of R104: the answer `ans` where the request has one, the byte `b` where it receives one. -/
  | bus (ans : Ack) (b : Byte)
  /-- BUS: completes the pending request as the target of R152 to R159 answers; `ans` and `draw` are the draws those rules leave to the bus. -/
  | target (ans : Ack) (draw : Byte)
  /-- RESET: the reset input is asserted (R200). -/
  | reset
  deriving DecidableEq, Repr, Inhabited

end Sys2Proof.Machine
end

