-- ==== Sys2Proof/Config.lean ====
section
/-! DEFINITION. The parameters the spec leaves OPEN (R7) and the model's free values. Every one is an opaque constant:
nothing can be proved of its value, so a claim holds whatever it is. -/

namespace Sys2Proof

/-- R51: `BASE` is a multiple of 0x100; this is the multiple. -/
opaque Config.basePage : Nat

/-- R7, R51: `BASE`, the host address of offset 0x00. -/
def Config.base : Nat := Config.basePage * 0x100

/-- R7: `DEV_ADDR`, the magnetometer's 7-bit bus address. -/
opaque Config.devAddr : DevAddr

/-- R161: each identification byte is ASCII, 0x00 to 0x7F: the seven bits of byte 0, 1, 2. -/
opaque Config.idBits : Fin 3 → BitVec 7

/-- R7, R161: `ID_BYTES[k]`. -/
def Config.idByte (k : Fin 3) : Byte := (Config.idBits k).setWidth 8

/-- R7: `ID_EXPECTED`, the signature `initialize` compares with. -/
opaque Config.idExpected : Byte × Byte × Byte

/-- FREE VALUE (log 5): the target's register pointer after a data byte, which R153 leaves unspecified. -/
opaque Config.freeByte : Nat → Byte

/-- FREE VALUE (log 2): which turn comes next, and what the outside world does in it, when no turn is queued
(R57: any order; R104: any outcome). -/
opaque Config.freeTurn : Nat → Machine.Turn

/-- FREE VALUE (log 9): the sign and payload of a NaN that an operation makes (R11 gives no bit pattern). -/
opaque Config.nanBits : BitVec 52

end Sys2Proof
end

