-- ==== Sys2Proof/Machine/State.lean ====
section
/-! DEFINITION. The whole state of the model (10_state.md), as plain data, and its value after power-on (R200, R201). -/

namespace Sys2Proof.Machine

/-- The block's host-visible registers that have storage, STATUS apart (R20 to R22, R31 to R35). CMD has none (R23). -/
structure Regs where
  /-- R21: CTRL.NACKE, bit 0 of CTRL; bits 31:1 read 0. -/
  nacke : Bool
  /-- R22: TIMEOUT.LIMIT. -/
  timeout : Word
  /-- R31: RXDATA bits 7:0; bits 31:8 read 0. -/
  rxdata : Byte
  /-- R32: HXY, X in bits 15:0 and Y in bits 31:16. -/
  hxy : Word
  /-- R33: HAIN_LO. -/
  hainLo : Word
  /-- R33: HAIN_HI. -/
  hainHi : Word
  /-- R34: HANGLE_LO. -/
  hangleLo : Word
  /-- R34: HANGLE_HI. -/
  hangleHi : Word
  /-- R35: HSECTOR bits 3:0; bits 31:4 read 0. -/
  hsector : Sector
  deriving DecidableEq, Repr, Inhabited

/-- R24 to R30: the fields of STATUS. Its reserved bits 3 and 31:16 have no storage. -/
structure Status where
  /-- R24: bit 0. -/
  busy : Bool
  /-- R25: bit 1. -/
  done : Bool
  /-- R26: bit 2. -/
  ovr : Bool
  /-- R27: bits 7:4. -/
  err : ErrCode
  /-- R28: bits 11:8. -/
  phase : Phase
  /-- R29: bits 15:12, the phase whose step failed; IDLE (code 0) where none did. -/
  errph : Phase
  deriving DecidableEq, Repr, Inhabited

/-- R37 to R39: the command latch, the configuration latch and the heading operand latch. -/
structure Latch where
  lop : Option Op
  ldev : DevAddr
  lreg : Byte
  ldata : Byte
  lnacke : Bool
  ltout : Word
  lx : Sample
  ly : Sample
  lain : F64
  deriving DecidableEq, Repr, Inhabited

/-- R40 to R42: the pending request with its state, the wait counter and the abort flag. -/
structure Wait where
  req : Option Req
  reqst : ReqState
  wcnt : Word
  abort : Bool
  deriving DecidableEq, Repr, Inhabited

/-- R44: the target's stored state. UNSET is `none`. -/
structure Target where
  tcra : Option Byte
  tcrb : Option Byte
  tmr : Option (BitVec 2)
  tptr : Byte
  tseq : TSeq
  deriving DecidableEq, Repr, Inhabited

/-- The HOST agent (R16) as far as the block's window and the procedures of 45_host_procedures.md show it.
The spec leaves the processor itself outside (R36); these fields are the procedures' variables and what an access returned. -/
structure HostSide where
  /-- The word the last admitted load returned. -/
  rdata : Word
  /-- R186: the access that was refused, if one was; no later step clears it. -/
  fault : Option Access
  /-- The statements left of the procedure being run; empty when none runs. -/
  script : List HostOp
  /-- R165: `s`, the STATUS word that ended the last `runCmd`. -/
  st : Word
  /-- R166: the bytes read and not yet assembled, oldest first. -/
  bytes : List Byte
  /-- R167: the axis samples assembled, oldest first. -/
  axes : List Sample
  /-- R173: the two halves of HANGLE as read. -/
  angleHi : Word
  angleLo : Word
  /-- R174: HSECTOR[3:0] as read. -/
  sec : BitVec 4
  /-- What the last procedure returned; `none` while one runs and before any has. -/
  result : Option HostResult
  deriving DecidableEq, Repr, Inhabited

/-- The machine: the block, the bus, the target and the HOST. -/
structure State where
  regs : Regs
  status : Status
  latch : Latch
  wait : Wait
  /-- R43: the bus trace, oldest event first. -/
  trace : List BusEvent
  target : Target
  host : HostSide
  /-- The model's own: the turns the agents take next, first one first (R57). -/
  turns : List Turn
  /-- The model's own: how many free values have been drawn. -/
  draws : Nat
  deriving DecidableEq, Repr, Inhabited

/-- Why the machine stops. -/
inductive Fault where
  /-- Raised by a turn of the HOST after one of its accesses, `a`, was refused (R186): the HOST has faulted and no later step clears it, and what it does next is outside the spec (93 U28).
  Safe: the model stops where a host might go on. -/
  | hostStopped (a : Access)
  deriving DecidableEq, Repr

/-- Why a meaning is absent. -/
inductive Refusal where
  /-- Raised by exec for an instruction with no meaning yet (there is none in this model).
  Safe: the model stops where the hardware goes on. -/
  | notModelled (mnemonic : String)
  deriving DecidableEq, Repr

/-- R201: the registers after reset. -/
def Regs.reset : Regs :=
  { nacke := false, timeout := 0#32, rxdata := 0#8, hxy := 0#32, hainLo := 0#32, hainHi := 0#32,
    hangleLo := 0#32, hangleHi := 0#32, hsector := .none }

/-- R201: STATUS after reset. -/
def Status.reset : Status :=
  { busy := false, done := false, ovr := false, err := .none, phase := .idle, errph := .idle }

/-- R201: the latches after reset. -/
def Latch.reset : Latch :=
  { lop := none, ldev := 0#7, lreg := 0#8, ldata := 0#8, lnacke := false, ltout := 0#32,
    lx := 0#16, ly := 0#16, lain := 0#64 }

/-- R201: req NONE, wcnt 0, abort 0. DESIGN CHOICE: `reqst`, which R40 calls meaningless while req is NONE, is PENDING (log 6). -/
def Wait.reset : Wait := { req := none, reqst := .pending, wcnt := 0#32, abort := false }

/-- R44: the target at its own power-on. DESIGN CHOICE: `tptr`, which R44 leaves unspecified, is 0 (log 4). -/
def Target.powerOn : Target :=
  { tcra := none, tcrb := none, tmr := none, tptr := 0#8, tseq := .free }

/-- The HOST before it has done anything. DESIGN CHOICE: its variables are 0 (log 7). -/
def HostSide.idle : HostSide :=
  { rdata := 0#32, fault := none, script := [], st := 0#32, bytes := [], axes := [],
    angleHi := 0#32, angleLo := 0#32, sec := 0#4, result := none }

/-- R200: "Power-on is a reset with an empty trace". No turn is queued, and no free value has been drawn. -/
def State.reset : State :=
  { regs := .reset, status := .reset, latch := .reset, wait := .reset, trace := [],
    target := .powerOn, host := .idle, turns := [], draws := 0 }

end Sys2Proof.Machine
end

