-- ==== Sys2Proof/Machine/Flags.lean ====
section
/-! DEFINITION. The codes of the fields (R27, R35, R76, R78), the STATUS word (R30), and R79's table of requests. -/

namespace Sys2Proof.Machine

/-- R78: the PHASE codes. -/
def Phase.code : Phase → BitVec 4
  | .idle => 0
  | .startSent => 1
  | .addrWSent => 2
  | .regAddrSent => 3
  | .dataSent => 4
  | .repeatedStart => 5
  | .addrRSent => 6
  | .ackDisabled => 7
  | .dataReceived => 8
  | .stopSent => 9

/-- R27, R76: the ERR codes. -/
def ErrCode.code : ErrCode → BitVec 4
  | .none => 0
  | .busTimeout => 1
  | .deviceNotAck => 2
  | .illegalCmd => 3
  | .angleDomain => 4

/-- R35, R76: the HSECTOR codes. -/
def Sector.code : Sector → BitVec 4
  | .north => 0
  | .east => 1
  | .south => 2
  | .west => 3
  | .none => 15

/-- R174: `decodeSector`. Codes 4 to 14 are never produced (R35); the fallback reads them as NONE. -/
def Sector.ofCode (c : BitVec 4) : Sector :=
  if c = 0 then .north else if c = 1 then .east else if c = 2 then .south else if c = 3 then .west else .none

/-- R171: the mode codes. -/
def Mode.code : Mode → Byte
  | .continuous => 0b00
  | .singleShot => 0b01
  | .idle => 0b10

/-- R30: `{16'b0, ERRPH[3:0], PHASE[3:0], ERR[3:0], 1'b0, OVR, DONE, BUSY}`. -/
def Status.word (t : Status) : Word :=
  0#16 ++ t.errph.code ++ t.phase.code ++ t.err.code ++ 0#1 ++
    BitVec.ofBool t.ovr ++ BitVec.ofBool t.done ++ BitVec.ofBool t.busy

/-- R24: STATUS bit 0 of a word a host has read. -/
def statusBusy (w : Word) : Bool := w.getLsbD 0

/-- R25: STATUS bit 1 of a word a host has read. -/
def statusDone (w : Word) : Bool := w.getLsbD 1

/-- R27: STATUS bits 7:4 of a word a host has read. -/
def statusErr (w : Word) : BitVec 4 := w.extractLsb' 4 4

/-- R79: the phase a request's completion enters, which is also its ERRPH if it fails. -/
def Req.phase : Req → Phase
  | .start => .startSent
  | .addrw => .addrWSent
  | .txreg => .regAddrSent
  | .txdata => .dataSent
  | .rstart => .repeatedStart
  | .addrr => .addrRSent
  | .rxnack => .dataReceived
  | .stop => .stopSent

/-- R104: the requests whose completion carries the target's answer. -/
def Req.answered : Req → Bool
  | .addrw | .txreg | .txdata | .addrr => true
  | .start | .rstart | .rxnack | .stop => false

/-- R79: the bus event of a request, with the answer `ans` where it has one (R104) and the byte `b` where it
receives one, which the controller answers with NACK (R105). -/
def Req.event (q : Req) (l : Latch) (ans : Ack) (b : Byte) : BusEvent :=
  match q with
  | .start => .start
  | .addrw => .addr l.ldev .w ans
  | .txreg => .tx l.lreg ans
  | .txdata => .tx l.ldata ans
  | .rstart => .rstart
  | .addrr => .addr l.ldev .r ans
  | .rxnack => .rx b .nack
  | .stop => .stop

/-- R43: what one event does to `owned`: S and Sr set it, P and REL clear it. -/
def BusEvent.owns (before : Bool) : BusEvent → Bool
  | .start | .rstart => true
  | .stop | .rel => false
  | .addr _ _ _ | .tx _ _ | .rx _ _ => before

/-- R43: `owned`, derived from the trace: its last framing event is S or Sr. -/
def owned (trace : List BusEvent) : Bool := trace.foldl BusEvent.owns false

end Sys2Proof.Machine
end

