-- ==== Sys2Proof/Machine/Operands.lean ====
section
/-! DEFINITION. The operands of the commands: the fields of the word are the decoder's (R74, Sys2Proof/Decode.lean);
those of HEADING and SECTOR come from registers (R32, R33), and a 64-bit result goes to two of them (R34). -/

namespace Sys2Proof.Machine

/-- R32: `X = int16(HXY[15:0])`, as its 16 bits. -/
def Regs.x (r : Regs) : Sample := r.hxy.extractLsb' 0 16

/-- R32: `Y = int16(HXY[31:16])`, as its 16 bits. -/
def Regs.y (r : Regs) : Sample := r.hxy.extractLsb' 16 16

/-- R33: `bits64(AIN) = {HAIN_HI[31:0], HAIN_LO[31:0]}`. -/
def Regs.ain (r : Regs) : F64 := r.hainHi ++ r.hainLo

/-- R34: `bits64(ANGLE) = {HANGLE_HI[31:0], HANGLE_LO[31:0]}`. -/
def Regs.angle (r : Regs) : F64 := r.hangleHi ++ r.hangleLo

/-- R54: bits 31:0 of a binary64 value, for the LO register. -/
def loWord (a : F64) : Word := a.extractLsb' 0 32

/-- R54: bits 63:32 of a binary64 value, for the HI register. -/
def hiWord (a : F64) : Word := a.extractLsb' 32 32

/-- R173: HXY for samples x and y, `(zext_32(uint16(y)) << 16) | zext_32(uint16(x))`. -/
def packXY (x y : Sample) : Word := (y.setWidth 32 <<< 16) ||| x.setWidth 32

/-- R167: `int16(((zext_16(hi) << 8) | zext_16(lo))[15:0])`. -/
def assembleAxis (hi lo : Byte) : Sample := (hi.setWidth 16 <<< 8) ||| lo.setWidth 16

end Sys2Proof.Machine
end

