-- ==== Sys2Proof/Machine/Target.lean ====
section
/-! DEFINITION. The target device on the bus (42_target_device.md): what a bus event does to it, and how it answers. -/

namespace Sys2Proof.Machine

/-- R154: `TWrite(r, b)`. Read-only registers (R157) and registers from 0x0D up (R159) take no effect. -/
def Target.write (t : Target) (r b : Byte) : Target :=
  if r = 0x00#8 then { t with tcra := some b }
  else if r = 0x01#8 then { t with tcrb := some b }
  else if r = 0x02#8 then { t with tmr := some (b.extractLsb' 0 2) }
  else t

/-- R155: `TRead(r)`, with `draw` the value of every draw in it. -/
def Target.read (t : Target) (r draw : Byte) : Byte :=
  if r = 0x00#8 then t.tcra.getD draw
  else if r = 0x01#8 then t.tcrb.getD draw
  else if r = 0x02#8 then
    match t.tmr with
    | some m => draw.extractLsb' 2 6 ++ m
    | none => draw
  else if r = 0x0A#8 then Config.idByte 0
  else if r = 0x0B#8 then Config.idByte 1
  else if r = 0x0C#8 then Config.idByte 2
  else draw

/-- R152: a START or repeated START is seen. -/
def Target.onStart (t : Target) : Target := { t with tseq := .started }

/-- R152: a STOP or a release is seen. -/
def Target.onEnd (t : Target) : Target := { t with tseq := .free }

/-- R152: an address byte is seen after a START. DESIGN CHOICE: at a position other than STARTED, for which R152 has no
row, it changes nothing (log 28). -/
def Target.onAddr (t : Target) (a : DevAddr) (rw : Dir) : Target :=
  match t.tseq with
  | .started =>
    if a = Config.devAddr then
      match rw with
      | .w => { t with tseq := .addrW }
      | .r => { t with tseq := .addrR }
    else { t with tseq := .ignore }
  | .free | .addrW | .ptrSet | .dataW | .addrR | .ignore => t

/-- R152, R153: a byte from the controller is seen: the first sets the pointer, the second is written, and after it
the pointer is unspecified (`free`). A third never comes (R159); it changes nothing here (log 10).
DESIGN CHOICE: at FREE, STARTED and ADDR_R, for which R152 has no row, a byte changes nothing (log 28). -/
def Target.onTx (free : Byte) (t : Target) (b : Byte) : Target :=
  match t.tseq with
  | .addrW => { t with tseq := .ptrSet, tptr := b }
  | .ptrSet => { t.write t.tptr b with tseq := .dataW, tptr := free }
  | .free | .started | .dataW | .addrR | .ignore => t

/-- R152, R153: the target's byte has been read, and after it the pointer is unspecified (`free`). At IGNORE the target takes
no part (R152). DESIGN CHOICE: at every other position but ADDR_R, for which R152 has no row, it changes nothing
(log 28). -/
def Target.onRx (free : Byte) (t : Target) : Target :=
  match t.tseq with
  | .addrR => { t with tptr := free }
  | .free | .started | .addrW | .ptrSet | .dataW | .ignore => t

/-- R152: the target follows every event on the bus, whatever its acknowledgment. -/
def Target.observe (free : Byte) (t : Target) : BusEvent → Target
  | .start | .rstart => t.onStart
  | .stop | .rel => t.onEnd
  | .addr a rw _ => t.onAddr a rw
  | .tx b _ => t.onTx free b
  | .rx _ _ => t.onRx free

/-- R159, R160: the register addresses of the target's map, 0x00 to 0x0C, whose acknowledgment R152 fixes. -/
def mapped (r : Byte) : Bool := decide (r.toNat ≤ 0x0C)

/-- R152, R158, R159: the target's answer to a request that has one. `ans` is the answer of the rest of the bus
when another device is addressed (R158), and the open answer to a register outside the map (R159). -/
def Target.answer (t : Target) (l : Latch) (q : Req) (ans : Ack) : Ack :=
  match t.tseq, q with
  | .started, .addrw | .started, .addrr => if l.ldev = Config.devAddr then .ack else ans
  | .addrW, .txreg => if mapped l.lreg then .ack else ans
  | .ptrSet, .txdata => if mapped t.tptr then .ack else ans
  | _, _ => ans

/-- R152, R155, R158: the byte a reading controller gets: the target's own, or a draw of the rest of the bus. -/
def Target.supply (t : Target) (draw : Byte) : Byte :=
  match t.tseq with
  | .addrR => t.read t.tptr draw
  | .free | .started | .addrW | .ptrSet | .dataW | .ignore => draw

end Sys2Proof.Machine
end

