-- ==== Sys2Proof/Machine/Ops.lean ====
section
/-! DEFINITION. The named operations every step is written with: the bus trace, requests, accepting, dropping and
rejecting a command, recording an error, and ending a command. -/

namespace Sys2Proof.Machine

/-- R10: `BusEmit(e)`. The event enters the trace and the target sees it (R152). -/
def emit (e : BusEvent) (s : State) : State :=
  { s with
    trace := s.trace ++ [e]
    target := s.target.observe (Config.freeByte s.draws) e
    draws := s.draws + 1 }

/-- R94: `issue(q)`. -/
def issue (q : Req) (s : State) : State :=
  { s with wait := { s.wait with req := some q, reqst := .pending, wcnt := 0#32 } }

/-- `req <- NONE`. -/
def clearReq (s : State) : State := { s with wait := { s.wait with req := none } }

/-- `PHASE <- p`. -/
def setPhase (p : Phase) (s : State) : State := { s with status := { s.status with phase := p } }

/-- R91: the written word is discarded and OVR is set; nothing else changes. -/
def drop (s : State) : State := { s with status := { s.status with ovr := true } }

/-- R93: an illegal word with BUSY = 0. -/
def reject (s : State) : State :=
  { s with status := { s.status with done := true, err := .illegalCmd, errph := .idle } }

/-- R92, the part every command shares: DONE, ERR and ERRPH cleared, the configuration latched, `lop` set, BUSY set. -/
def accept (op : Op) (s : State) : State :=
  { s with
    status := { s.status with busy := true, done := false, err := .none, errph := .idle }
    latch := { s.latch with lop := some op, lnacke := s.regs.nacke, ltout := s.regs.timeout }
    wait := { s.wait with abort := false } }

/-- R92: the operands of a bus command are latched. -/
def latchBus (dev : DevAddr) (reg data : Byte) (s : State) : State :=
  { s with latch := { s.latch with ldev := dev, lreg := reg, ldata := data } }

/-- R90: a command is accepted by `acc`, or dropped while another runs. -/
def present (acc : State → State) (s : State) : State := if s.status.busy then drop s else acc s

/-- An error and the phase it failed in are recorded in STATUS (R180, R184). -/
def recordError (e : ErrCode) (ph : Phase) (s : State) : State :=
  { s with status := { s.status with err := e, errph := ph } }

/-- R181: `raise E(ph)`: the first error of a command wins. The block has no trap: nothing else is saved and no
control is transferred (R189); the step that raises goes on as its rule says, and there is no return (R190). -/
def raise (e : ErrCode) (ph : Phase) (s : State) : State :=
  if s.status.err = .none then recordError e ph s else s

/-- The end of a command, with or without an error (R25, R42, R109, R114, R135, R139):
`lop <- NONE; abort <- 0; BUSY <- 0; DONE <- 1`. -/
def finish (s : State) : State :=
  { s with
    status := { s.status with busy := false, done := true }
    latch := { s.latch with lop := none }
    wait := { s.wait with abort := false } }

/-- R114: the bus is released without a STOP, if it was owned. -/
def release (s : State) : State := if owned s.trace then emit .rel s else s

/-- R114: `timeout()` at a wait for `q`. -/
def timeout (q : Req) (s : State) : State :=
  finish (setPhase .idle (clearReq (release (raise .busTimeout q.phase s))))

end Sys2Proof.Machine
end

