-- ==== Sys2Proof/Machine/Bus.lean ====
section
/-! DEFINITION. The bus commands: RDREG and WRREG as they are presented (R90 to R92, R100, R101), and every later step of
the transaction they start (R95 to R114). -/

namespace Sys2Proof.Machine

/-- R92, R100: RDREG is accepted: the read is latched and START is requested. -/
def acceptRdreg (dev : DevAddr) (reg : Byte) (s : State) : State :=
  issue .start (latchBus dev reg 0#8 (accept .rd s))

/-- R92, R101: WRREG is accepted: the write is latched and START is requested. -/
def acceptWrreg (dev : DevAddr) (reg data : Byte) (s : State) : State :=
  issue .start (latchBus dev reg data (accept .wr s))

/-- RDREG written to CMD (R90): the HOST step. The transaction of R100 follows in the steps of `completeReq` and `ctlBus`. -/
def execRdreg (dev : DevAddr) (reg : Byte) (s : State) : Host.Outcome State Fault Refusal :=
  .next (present (acceptRdreg dev reg) s)

/-- WRREG written to CMD (R90): the HOST step. The transaction of R101 follows in the steps of `completeReq` and `ctlBus`. -/
def execWrreg (dev : DevAddr) (reg data : Byte) (s : State) : Host.Outcome State Fault Refusal :=
  .next (present (acceptWrreg dev reg data) s)

/-- What the controller does when the request `q` has completed well (R96 to R99, R102, R103, R107, R108), the event being
on the trace already. `b` is the byte of `Rx`. DESIGN CHOICE: in states no run reaches, TXREG with neither RD nor WR latched issues
nothing, and TXDATA (R99: only with WR) and RSTART (R102: only with RD) go on whatever is latched (log 13). -/
def advance (q : Req) (b : Byte) (s : State) : State :=
  let s := setPhase q.phase s
  match q with
  | .start => issue .addrw s
  | .addrw => issue .txreg s
  | .txreg =>
    match s.latch.lop with
    | some .rd => issue .rstart s
    | some .wr => issue .txdata s
    | some .hdg | some .sec | none => s
  | .txdata => issue .stop s
  | .rstart => issue .addrr s
  | .addrr => clearReq s
  | .rxnack => issue .stop { s with regs := { s.regs with rxdata := b } }
  | .stop => clearReq s

/-- R111: a NACK with detection on: the error is recorded and the transaction is ended by a STOP; PHASE stays. -/
def nackAbort (q : Req) (s : State) : State :=
  let s := recordError .deviceNotAck q.phase s
  issue .stop { s with wait := { s.wait with abort := true } }

/-- R112: a NACK with detection off: the wait is never completed. -/
def nackStall (s : State) : State := { s with wait := { s.wait with reqst := .stalled } }

/-- R95: the request `q` completes with the answer `ans` (where it has one, R104) and the byte `b` (where it
receives one): the event enters the trace and the controller reacts in the same step. -/
def completeReq (q : Req) (ans : Ack) (b : Byte) (s : State) : State :=
  let s := emit (q.event s.latch ans b) s
  if q.answered && ans == .nack then
    (if s.latch.lnacke then nackAbort q s else nackStall s)
  else advance q b s

/-- R95: the BUS step, enabled when a request is PENDING. A turn without it changes nothing (log 3). -/
def busStep (ans : Ack) (b : Byte) (s : State) : State :=
  match s.wait.req, s.wait.reqst with
  | some q, .pending => completeReq q ans b s
  | some _, .stalled | none, _ => s

/-- The BUS step in which the target of 42_target_device.md answers; `ans` and `draw` are what those rules leave
to the bus (R155, R158, R159). -/
def targetStep (ans : Ack) (draw : Byte) (s : State) : State :=
  match s.wait.req with
  | some q => busStep (s.target.answer s.latch q ans) (s.target.supply draw) s
  | none => s

/-- R113: one wait cycle at the request `q`. The counter saturates (R41). -/
def waitCycle (q : Req) (s : State) : State :=
  let n : Word := if s.wait.wcnt = 0xFFFFFFFF#32 then 0xFFFFFFFF#32 else s.wait.wcnt + 1#32
  let s := { s with wait := { s.wait with wcnt := n } }
  if s.latch.ltout ≠ 0#32 ∧ s.latch.ltout ≤ n then timeout q s else s

/-- R106: acknowledgment is disabled and the byte is asked for. No bus event, no wait. -/
def ackDisable (s : State) : State := issue .rxnack (setPhase .ackDisabled s)

/-- R109: the return from STOP_SENT to IDLE; ERR and ERRPH stay. -/
def complete (s : State) : State := finish (setPhase .idle s)

end Sys2Proof.Machine
end

