-- ==== Sys2Proof/Machine/Float.lean ====
section
/-! DEFINITION. The binary64 arithmetic of the heading unit (R11, R130) and its arctangent (R131), on bit patterns,
with natural numbers alone.

The GRID is the set of multiples of 2^-1074, the smallest positive binary64 value. Every finite binary64 value is a
grid multiple, so a finite value is held as one natural number (its magnitude in grid units) and a sign. -/

namespace Sys2Proof.F64

/-- The magnitude bits, 62:0, as a number; on non-NaN patterns it orders magnitudes. -/
def mag (x : F64) : Nat := x.toNat % 2 ^ 63

/-- The sign bit, 63. -/
def neg (x : F64) : Bool := x.msb

/-- The magnitude bits of an infinity. -/
def infMag : Nat := 0x7FF * 2 ^ 52

def isNaN (x : F64) : Bool := decide (infMag < mag x)
def isInf (x : F64) : Bool := decide (mag x = infMag)
def isZero (x : F64) : Bool := decide (mag x = 0)
def isFinite (x : F64) : Bool := decide (mag x < infMag)

/-- The magnitude in grid units: a subnormal's fraction, or a normal's 53-bit significand shifted by its exponent. -/
def gridOfMag (m : Nat) : Nat :=
  if m / 2 ^ 52 = 0 then m else (2 ^ 52 + m % 2 ^ 52) * 2 ^ (m / 2 ^ 52 - 1)

/-- A finite value's magnitude in grid units. -/
def grid (x : F64) : Nat := gridOfMag (mag x)

/-- A finite value in grid units, with its sign. -/
def gridInt (x : F64) : Int := if neg x then -(grid x : Int) else (grid x : Int)

/-- The grid units in 1. -/
def one : Nat := 2 ^ 1074

/-- The pattern of a sign and magnitude bits. -/
def pack (sign : Bool) (m : Nat) : F64 := BitVec.ofNat 64 (m + if sign then 2 ^ 63 else 0)

/-- `n / d` rounded to the nearest natural number, a tie to the even one. -/
def divNearestEven (n d : Nat) : Nat :=
  let q := n / d
  let r := n % d
  if 2 * r < d then q else if d < 2 * r then q + 1 else q + q % 2

/-- R11: the magnitude bits of the binary64 value nearest `n / d` grid units, ties to even.
The unit in the last place is `2^u` grid units, with `u` the excess of `n / d` over 53 bits; the pattern of
`k * 2^u` with `2^52 ≤ k ≤ 2^53` is `u * 2^52 + k`. From 2^1024 on the result is an infinity. -/
def roundMag (n d : Nat) : Nat :=
  let u := (n / d).log2 - 52
  min (u * 2 ^ 52 + divNearestEven n (d * 2 ^ u)) infMag

/-- The NaN an operation makes: its sign and payload are free (log 9); the quiet bit is set. -/
def nan : F64 := Config.nanBits.extractLsb' 51 1 ++ 0xFFF#12 ++ Config.nanBits.extractLsb' 0 51

/-- R11: `f64(i)`, exact up to magnitude 2^53, and so for every int16 (R130). DESIGN CHOICE: beyond that, where R11 gives no
value, it is rounded to nearest with ties to even, and to an infinity where that overflows (log 32). -/
def ofInt (i : Int) : F64 := pack (decide (i < 0)) (roundMag (i.natAbs * one) 1)

/-- The value with its sign turned. -/
def negate (x : F64) : F64 := pack (!neg x) (mag x)

/-- R11: `a +. b`. An exact zero sum of a value and its negation is +0.0 under this rounding. -/
def add (x y : F64) : F64 :=
  if isNaN x || isNaN y then nan
  else if isInf x then (if isInf y && (neg x != neg y) then nan else x)
  else if isInf y then y
  else
    let s := gridInt x + gridInt y
    if s = 0 then pack (neg x && neg y) 0
    else pack (decide (s < 0)) (roundMag s.natAbs 1)

/-- R11: `a -. b`. -/
def sub (x y : F64) : F64 := if isNaN x || isNaN y then nan else add x (negate y)

/-- R11: `a *. b`. -/
def mul (x y : F64) : F64 :=
  let sign := neg x != neg y
  if isNaN x || isNaN y then nan
  else if isInf x || isInf y then (if isZero x || isZero y then nan else pack sign infMag)
  else pack sign (roundMag (grid x * grid y) one)

/-- R11: `a /. b`. -/
def div (x y : F64) : F64 :=
  let sign := neg x != neg y
  if isNaN x || isNaN y then nan
  else if isInf x then (if isInf y then nan else pack sign infMag)
  else if isInf y then pack sign 0
  else if isZero y then (if isZero x then nan else pack sign infMag)
  else pack sign (roundMag (grid x * one) (grid y))

/-- A number that orders the patterns that are not NaNs as IEEE 754 orders their values; both zeros give 0. -/
def key (x : F64) : Int := if neg x then -(mag x : Int) else (mag x : Int)

/-- R11: `a < b`; false with a NaN. -/
def lt (x y : F64) : Bool := !isNaN x && !isNaN y && decide (key x < key y)

/-- R11: `a <= b`; false with a NaN. -/
def le (x y : F64) : Bool := !isNaN x && !isNaN y && decide (key x ≤ key y)

/-- R11: `a >= b`; false with a NaN. -/
def ge (x y : F64) : Bool := le y x

/-- R11: `a == b`; false with a NaN, and +0.0 == -0.0. -/
def eq (x y : F64) : Bool := !isNaN x && !isNaN y && decide (key x = key y)

/-! The arctangent (R131): an enclosure of the real value between two fractions with denominator `2^p`, and the
binary64 value both ends round to. -/

/-- Numerators over `2^p` of a lower and an upper bound. -/
structure Bounds where
  lo : Nat
  hi : Nat
  deriving DecidableEq, Repr, Inhabited

/-- Bounds on a sum. -/
def Bounds.add (a b : Bounds) : Bounds := ⟨a.lo + b.lo, a.hi + b.hi⟩

/-- Bounds on a difference that is not negative. -/
def Bounds.sub (a b : Bounds) : Bounds := ⟨a.lo - b.hi, a.hi - b.lo⟩

/-- Bounds on a product. -/
def Bounds.mul (p : Nat) (a b : Bounds) : Bounds :=
  ⟨a.lo * b.lo / 2 ^ p, a.hi * b.hi / 2 ^ p + 1⟩

/-- Bounds on a quotient by a positive natural number. -/
def Bounds.divNat (a : Bounds) (k : Nat) : Bounds := ⟨a.lo / k, a.hi / k + 1⟩

/-- Bounds on the fraction `n / d`. -/
def Bounds.ofFraction (p n d : Nat) : Bounds := ⟨n * 2 ^ p / d, n * 2 ^ p / d + 1⟩

/-- `fuel` pairs of terms of the series x - x^3/3 + x^5/5 - ..., from the term `x^k / k` on, where `pow` bounds
`x^k` and `sq` bounds `x^2`. The terms added and the terms taken away are summed apart. The answer bounds the sum of
the whole series: what is left after the pairs is between 0 and the next power of x. -/
def arctanSeries (p : Nat) (sq : Bounds) : Nat → Nat → Bounds → Bounds → Bounds → Bounds
  | 0, _, pow, plus, minus => ⟨plus.lo - minus.hi, plus.hi + pow.hi - minus.lo⟩
  | fuel + 1, k, pow, plus, minus =>
    let pow3 := pow.mul p sq
    arctanSeries p sq fuel (k + 4) (pow3.mul p sq)
      (plus.add (pow.divNat k)) (minus.add (pow3.divNat (k + 2)))

/-- Bounds on arctan(n/d) for 0 ≤ n/d ≤ 1/2, where the series gains two bits a term. -/
def arctanSmall (p n d : Nat) : Bounds :=
  let x := Bounds.ofFraction p n d
  arctanSeries p (x.mul p x) (p / 4 + 1) 1 x ⟨0, 0⟩ ⟨0, 0⟩

/-- Bounds on π/4 = arctan(1/2) + arctan(1/3). -/
def quarterPi (p : Nat) : Bounds := (arctanSmall p 1 2).add (arctanSmall p 1 3)

/-- Bounds on arctan(n/d), n/d > 0: the argument is brought to at most 1/2 by arctan x = π/4 ∓ arctan((1-x)/(1+x))
and arctan x = π/2 - arctan(1/x). -/
def arctanBounds (p n d : Nat) : Bounds :=
  if 2 * n ≤ d then arctanSmall p n d
  else if n ≤ d then (quarterPi p).sub (arctanSmall p (d - n) (d + n))
  else if n < 2 * d then (quarterPi p).add (arctanSmall p (n - d) (n + d))
  else ((quarterPi p).add (quarterPi p)).sub (arctanSmall p d n)

/-- The magnitude bits the two ends of the enclosure round to, for a positive magnitude of `g` grid units. -/
def arctanEnds (p g : Nat) : Nat × Nat :=
  let b := arctanBounds p g one
  (roundMag (b.lo * one) (2 ^ p), roundMag (b.hi * one) (2 ^ p))

/-- The precision tried first, in bits after the point. -/
def arctanPrec : Nat := 192

/-- The first agreement of two ends, at the precision `p`, `2 * p`, `4 * p`, ... -/
def firstAgreement (ends : Nat → Nat × Nat) (p : Nat) : Option Nat :=
  if (ends p).1 = (ends p).2 then some (ends p).1 else firstAgreement ends (2 * p)
partial_fixpoint

/-- R131 (P5): the magnitude bits of the arctangent of a positive magnitude of `g` grid units, correctly rounded at
every input: the value both ends of an enclosure round to, at the first precision at which they agree. The enclosure
closes in on the arctangent, which is irrational and so never halfway between two binary64 values: such a precision
exists for every input, and the 0 is never the result (DEDUCED, log 8: `firstAgreement_arctanEnds` and `arctanMag_spec` in
Laws/Arctan.lean). The first precision stands apart from the search, so that the kernel evaluates it. -/
def arctanMag (g : Nat) : Nat :=
  let e := arctanEnds arctanPrec g
  if e.1 = e.2 then e.1 else (firstAgreement (arctanEnds · g) (2 * arctanPrec)).getD 0

/-- R131: `atan64`, the correctly rounded principal arctangent. At an infinity it is the value nearest ±π/2.
R131 gives no value at a NaN, which HDG never reaches (R140): a NaN of free payload (log 9). -/
def atan64 (x : F64) : F64 :=
  if isNaN x then nan
  else if isZero x then x
  else if isInf x then pack (neg x) 0x3FF921FB54442D18
  else pack (neg x) (arctanMag (grid x))

end Sys2Proof.F64
end

