-- ==== Sys2Proof/Machine/Heading.lean ====
section
/-! DEFINITION. The heading unit: the heading function (R132), the sector function (R133), and the commands HEADING (R134,
R135) and SECTOR (R138, R139). -/

namespace Sys2Proof.Machine

/-- R7, R132: `PI64`, the binary64 value nearest π. -/
def pi64 : F64 := 0x400921FB54442D18#64

def f0 : F64 := 0x0000000000000000#64
def f45 : F64 := 0x4046800000000000#64
def f90 : F64 := 0x4056800000000000#64
def f135 : F64 := 0x4060E00000000000#64
def f180 : F64 := 0x4066800000000000#64
def f225 : F64 := 0x406C200000000000#64
def f270 : F64 := 0x4070E00000000000#64
def f315 : F64 := 0x4073B00000000000#64
def f360 : F64 := 0x4076800000000000#64

/-- R132: `q <- f64(X) /. f64(Y)`. -/
def quotient (x y : Sample) : F64 := F64.div (F64.ofInt x.toInt) (F64.ofInt y.toInt)

/-- R132: `d <- (atan64(q) *. 180.0) /. PI64`, left to right (R144). -/
def degrees (q : F64) : F64 := F64.div (F64.mul (F64.atan64 q) f180) pi64

/-- R132: `HDG(X, Y)`, exact (R142). -/
def hdg (x y : Sample) : F64 :=
  if 0 < y.toInt then F64.sub f90 (degrees (quotient x y))
  else if y.toInt < 0 then F64.sub f270 (degrees (quotient x y))
  else if x.toInt < 0 then f180
  else f0

/-- R133: `SEC(a)`, total on every binary64 pattern. -/
def sectorOf (a : F64) : Sector :=
  if !(F64.ge a f0 && F64.lt a f360) then .none
  else if F64.lt a f45 then .north
  else if F64.lt a f135 then .east
  else if F64.lt a f225 then .south
  else if F64.lt a f315 then .west
  else .north

/-- R92, R134: HEADING is accepted: X and Y are latched. -/
def acceptHeading (s : State) : State :=
  let s := accept .hdg s
  { s with latch := { s.latch with lx := s.regs.x, ly := s.regs.y } }

/-- R92, R138: SECTOR is accepted: the angle is latched. -/
def acceptSector (s : State) : State :=
  let s := accept .sec s
  { s with latch := { s.latch with lain := s.regs.ain } }

/-- HEADING written to CMD (R90): the HOST step. Its result comes in the step `completeHeading`. -/
def execHeading (s : State) : Host.Outcome State Fault Refusal := .next (present acceptHeading s)

/-- SECTOR written to CMD (R90): the HOST step. Its result comes in the step `completeSector`. -/
def execSector (s : State) : Host.Outcome State Fault Refusal := .next (present acceptSector s)

/-- R135: HEADING completes: HANGLE and HSECTOR change together. -/
def completeHeading (s : State) : State :=
  let ang := hdg s.latch.lx s.latch.ly
  finish { s with regs := { s.regs with
    hangleLo := loWord ang, hangleHi := hiWord ang, hsector := sectorOf ang } }

/-- R139: SECTOR completes: HSECTOR changes, and NONE is the error ANGLE_DOMAIN with ERRPH 0. -/
def completeSector (s : State) : State :=
  let sec := sectorOf s.latch.lain
  let s := { s with regs := { s.regs with hsector := sec } }
  finish (if sec = .none then recordError .angleDomain .idle s else s)

end Sys2Proof.Machine
end

