-- ==== Sys2Proof/Machine/Dispatch.lean ====
section
/-! DEFINITION. exec: one arm per command, each one direct call of its meaning. -/

namespace Sys2Proof.Machine

/-- The effect of a command word's being written to CMD (R90). -/
def exec (i : Instr) (s : State) : Host.Outcome State Fault Refusal :=
  match i with
  | .rdreg dev reg => Sys2Proof.Machine.execRdreg dev reg s
  | .wrreg dev reg data => Sys2Proof.Machine.execWrreg dev reg data s
  | .heading => Sys2Proof.Machine.execHeading s
  | .sector => Sys2Proof.Machine.execSector s

end Sys2Proof.Machine
end

