-- ==== Sys2Proof/Machine/HostPort.lean ====
section
/-! DEFINITION. The host's accesses to the register window (20_memory.md, R20 to R35) and the CMD write (R90). -/

namespace Sys2Proof.Machine

/-- R20: the register at an offset; `none` is a reserved word offset (R53). -/
def Reg.ofOffset (off : BitVec 8) : Option Reg :=
  if off = 0x00#8 then some .ctrl
  else if off = 0x04#8 then some .timeout
  else if off = 0x08#8 then some .cmd
  else if off = 0x0C#8 then some .status
  else if off = 0x10#8 then some .rxdata
  else if off = 0x14#8 then some .hxy
  else if off = 0x18#8 then some .hainLo
  else if off = 0x1C#8 then some .hainHi
  else if off = 0x20#8 then some .hangleLo
  else if off = 0x24#8 then some .hangleHi
  else if off = 0x28#8 then some .hsector
  else none

/-- R20 to R35: what a load of a register returns. CMD reads 0 (R23). -/
def readReg (s : State) : Reg → Word
  | .ctrl => (BitVec.ofBool s.regs.nacke).setWidth 32
  | .timeout => s.regs.timeout
  | .cmd => 0#32
  | .status => s.status.word
  | .rxdata => s.regs.rxdata.setWidth 32
  | .hxy => s.regs.hxy
  | .hainLo => s.regs.hainLo
  | .hainHi => s.regs.hainHi
  | .hangleLo => s.regs.hangleLo
  | .hangleHi => s.regs.hangleHi
  | .hsector => s.regs.hsector.code.setWidth 32

/-- R53: a load of a word offset; a reserved one returns 0. Loads change nothing in the block (R55). -/
def readOff (s : State) (off : BitVec 8) : Word :=
  match Reg.ofOffset off with
  | some r => readReg s r
  | none => 0#32

/-- R90: the word `w` is presented as a command: dropped (R91), rejected (R93), or executed (R92), in this order. -/
def presentWord (w : Word) (s : State) : Host.Outcome State Fault Refusal :=
  if s.status.busy then .next (drop s)
  else
    match decode w with
    | .illegal _ => .next (reject s)
    | .cmd i => exec i s

/-- R30: a store to STATUS: bit 2 = 1 clears OVR, and nothing else happens. -/
def writeStatus (v : Word) (s : State) : State :=
  if v.getLsbD 2 then { s with status := { s.status with ovr := false } } else s

/-- R21 to R35: a store to a register. The read-only ones ignore it (R53). -/
def writeReg (r : Reg) (v : Word) (s : State) : Host.Outcome State Fault Refusal :=
  match r with
  | .ctrl => .next { s with regs := { s.regs with nacke := v.getLsbD 0 } }
  | .timeout => .next { s with regs := { s.regs with timeout := v } }
  | .cmd => presentWord v s
  | .status => .next (writeStatus v s)
  | .hxy => .next { s with regs := { s.regs with hxy := v } }
  | .hainLo => .next { s with regs := { s.regs with hainLo := v } }
  | .hainHi => .next { s with regs := { s.regs with hainHi := v } }
  | .rxdata | .hangleLo | .hangleHi | .hsector => .next s

/-- R53: a store to a word offset; a reserved one ignores it. -/
def writeOff (off : BitVec 8) (v : Word) (s : State) : Host.Outcome State Fault Refusal :=
  match Reg.ofOffset off with
  | some r => writeReg r v s
  | none => .next s

/-- The offset of an access. -/
def Access.off : Access → BitVec 8
  | .read off _ => off
  | .write off _ _ => off

/-- The width of an access in bytes. -/
def Access.width : Access → Nat
  | .read _ n => n
  | .write _ n _ => n

/-- R9, R50: the host address of an access. -/
def Access.hostAddr (a : Access) : Nat := Config.base + a.off.toNat

/-- R52: only 32-bit accesses at offsets that are multiples of 4 are admitted. -/
def Access.admitted (a : Access) : Bool := decide (a.width = 4) && decide (a.off.toNat % 4 = 0)

/-- R52, R186: the error response to a refused access: the HOST has faulted; the block does not change. -/
def refuse (a : Access) (s : State) : State := { s with host := { s.host with fault := some a } }

/-- R56: an admitted load, one indivisible step: the HOST gets the register's word. -/
def load (off : BitVec 8) (s : State) : State := { s with host := { s.host with rdata := readOff s off } }

/-- R52, R56: one access of the HOST. -/
def access (a : Access) (s : State) : Host.Outcome State Fault Refusal :=
  if a.admitted then
    match a with
    | .read off _ => .next (load off s)
    | .write off _ v => writeOff off v s
  else .next (refuse a s)

end Sys2Proof.Machine
end

