-- ==== Sys2Proof/Machine/Procedures.lean ====
section
/-! DEFINITION. The host's procedures (45_host_procedures.md): each as the list of statements it runs, and one statement's
step. A procedure's variables are the fields of `HostSide`. -/

namespace Sys2Proof.Machine

/-- R165: `runCmd(w)` up to its return: wait for BUSY = 0, write CMD, wait for DONE = 1. -/
def scriptCmd (w : Word) : List HostOp := [.waitIdle, .write 0x08#8 w, .waitDone]

/-- R166: `read(dev, reg)`; the byte joins `bytes`. -/
def scriptRead (dev : DevAddr) (reg : Byte) : List HostOp :=
  scriptCmd (encode (.rdreg dev reg)) ++ [.checkErr, .readByte]

/-- R177: `write(dev, reg, v)`. -/
def scriptWrite (dev : DevAddr) (reg v : Byte) : List HostOp :=
  scriptCmd (encode (.wrreg dev reg v)) ++ [.checkErr]

/-- R167: `readAxis(m)`: the MSB register, then the LSB register. DESIGN CHOICE: for m = 0xFF, where R167 does not say what
`m + 1` is as a uint8, the sum wraps to register 0x00 (log 29). -/
def scriptAxis (m : Byte) : List HostOp :=
  scriptRead Config.devAddr m ++ scriptRead Config.devAddr (m + 1#8) ++ [.assemble]

/-- R169: `readAxes()`: X at 0x03, Y at 0x07, Z at 0x05 (R168), in that order. -/
def scriptAxes : List HostOp := scriptAxis 0x03#8 ++ scriptAxis 0x07#8 ++ scriptAxis 0x05#8

/-- R170: `readIdentity()`: A, B, C. -/
def scriptIdentity : List HostOp :=
  scriptRead Config.devAddr 0x0A#8 ++ scriptRead Config.devAddr 0x0B#8 ++
    scriptRead Config.devAddr 0x0C#8

/-- R171: `setMode(mode)`: the code is masked with 0x03. -/
def scriptMode (m : Mode) : List HostOp :=
  scriptWrite Config.devAddr 0x02#8 (m.code &&& 0x03#8)

/-- R173: HEADING is run and HANGLE read. -/
def scriptHeading : List HostOp := scriptCmd (encode .heading) ++ [.readAngleHi, .readAngleLo]

/-- R165 to R175: the statements of a procedure. -/
def Proc.script : Proc → List HostOp
  | .runCmd w => scriptCmd w ++ [.ret .status]
  | .read dev reg => scriptRead dev reg ++ [.ret .byte]
  | .write dev reg v => scriptWrite dev reg v ++ [.ret .unit]
  | .readAxis m => scriptAxis m ++ [.ret .axis]
  | .readAxisX => scriptAxis 0x03#8 ++ [.ret .axis]
  | .readAxisY => scriptAxis 0x07#8 ++ [.ret .axis]
  | .readAxisZ => scriptAxis 0x05#8 ++ [.ret .axis]
  | .readAxes => scriptAxes ++ [.ret .axes]
  | .readIdentity => scriptIdentity ++ [.ret .identity]
  | .readStatus => scriptRead Config.devAddr 0x09#8 ++ [.ret .byte]
  | .setMode m => scriptMode m ++ [.ret .unit]
  | .initSession =>
    scriptIdentity ++ scriptRead Config.devAddr 0x09#8 ++ scriptMode .continuous ++ [.ret .idCheck]
  | .computeHeading x y => [.write 0x14#8 (packXY x y)] ++ scriptHeading ++ [.ret .angle]
  | .sectorOf a =>
    [.write 0x18#8 (loWord a), .write 0x1C#8 (hiWord a)] ++ scriptCmd (encode .sector) ++
      [.readSector, .ret .sector]
  | .cycle => scriptAxes ++ [.writeXY] ++ scriptHeading ++ [.readSector, .ret .cycle]

/-- The k-th byte a procedure has read. -/
def HostSide.byte (h : HostSide) (k : Nat) : Byte := h.bytes.getD k 0#8

/-- The k-th sample a procedure has assembled. -/
def HostSide.axis (h : HostSide) (k : Nat) : Sample := h.axes.getD k 0#16

/-- R172: the identity check: a result value, which changes nothing else (R178, R185). -/
def identityCheck (a b c : Byte) : HostResult :=
  if (a, b, c) = Config.idExpected then .identityOk else .unexpectedIdentity a b c

/-- R165 to R175: the value a procedure returns from its variables. -/
def HostSide.value (h : HostSide) : Ret → HostResult
  | .status => .status h.st
  | .byte => .byte (h.byte 0)
  | .unit => .ok
  | .axis => .axis (h.axis 0)
  | .axes => .axes (h.axis 0) (h.axis 1) (h.axis 2)
  | .identity => .identity (h.byte 0) (h.byte 1) (h.byte 2)
  | .idCheck => identityCheck (h.byte 0) (h.byte 1) (h.byte 2)
  | .angle => .angle (h.angleHi ++ h.angleLo)
  | .sector => .sector (Sector.ofCode h.sec)
  | .cycle => .display (h.angleHi ++ h.angleLo) (Sector.ofCode h.sec)

/-- A procedure is called: its statements are set out and its variables cleared. A call while one runs changes
nothing: the HOST is one thread (R16; log 3). -/
def callProc (p : Proc) (s : State) : State :=
  if s.host.script = [] then
    { s with host := { s.host with
      script := p.script, bytes := [], axes := [], result := none } }
  else s

/-- The procedure goes on with `rest`. -/
def goOn (rest : List HostOp) (s : State) : State := { s with host := { s.host with script := rest } }

/-- The procedure ends with a value. -/
def returnWith (r : HostResult) (s : State) : State :=
  { s with host := { s.host with script := [], result := some r } }

/-- One statement, `rest` being those after it. A waiting statement stays until its condition holds (R165: the loops
have no bound). -/
def runOp (op : HostOp) (rest : List HostOp) (s : State) : Host.Outcome State Fault Refusal :=
  match op with
  | .waitIdle =>
    let s := load 0x0C#8 s
    .next (if statusBusy s.host.rdata then s else goOn rest s)
  | .write off v => access (.write off 4 v) (goOn rest s)
  | .waitDone =>
    let s := load 0x0C#8 s
    .next (if statusDone s.host.rdata then
      goOn rest { s with host := { s.host with st := s.host.rdata } } else s)
  | .checkErr =>
    .next (if statusErr s.host.st ≠ 0#4 then returnWith (.err (statusErr s.host.st)) s else goOn rest s)
  | .readByte =>
    let s := load 0x10#8 s
    .next (goOn rest { s with host := { s.host with
      bytes := s.host.bytes ++ [s.host.rdata.extractLsb' 0 8] } })
  | .assemble =>
    .next (goOn rest { s with host := { s.host with
      bytes := [], axes := s.host.axes ++ [assembleAxis (s.host.byte 0) (s.host.byte 1)] } })
  | .writeXY => access (.write 0x14#8 4 (packXY (s.host.axis 0) (s.host.axis 1))) (goOn rest s)
  | .readAngleHi =>
    let s := load 0x24#8 s
    .next (goOn rest { s with host := { s.host with angleHi := s.host.rdata } })
  | .readAngleLo =>
    let s := load 0x20#8 s
    .next (goOn rest { s with host := { s.host with angleLo := s.host.rdata } })
  | .readSector =>
    let s := load 0x28#8 s
    .next (goOn rest { s with host := { s.host with sec := s.host.rdata.extractLsb' 0 4 } })
  | .ret r => .next (returnWith (s.host.value r) s)

/-- The HOST's next statement, if a procedure runs. -/
def threadStep (s : State) : Host.Outcome State Fault Refusal :=
  match s.host.script with
  | [] => .next s
  | op :: rest => runOp op rest s

end Sys2Proof.Machine
end

