-- ==== Sys2Proof/Machine/Agents.lean ====
section
/-! DEFINITION. The agents (R12, R16) and their turns: HOST, CTL, BUS and RESET, interleaved one at a time (R57).
A turn given to an agent none of whose steps is enabled changes nothing (log 3). -/

namespace Sys2Proof.Machine

/-- CTL: its enabled step. The conditions of R106, R109, R113, R135 and R139 exclude each other in every state a run
reaches (R46); the order here decides only states no run reaches (log 13). -/
def ctlStep (s : State) : State :=
  match s.wait.req with
  | some q => waitCycle q s
  | none =>
    if s.status.phase = .stopSent then complete s
    else
      match s.latch.lop with
      | some .rd => if s.status.phase = .addrRSent then ackDisable s else s
      | some .hdg => completeHeading s
      | some .sec => completeSector s
      | some .wr | none => s

/-- R200: RESET. The trace is kept but for a REL where the bus was owned; the target sees only that REL; the HOST, which is
outside the block, keeps its variables. `reqst`, which R200 does not name, is kept (log 6). -/
def resetStep (s : State) : State :=
  let s := release s
  { s with
    regs := .reset, status := .reset, latch := .reset
    wait := { s.wait with req := none, wcnt := 0#32, abort := false } }

/-- A turn of the HOST: nothing once an access of its has been refused (R186). -/
def hostTurn (act : State → Host.Outcome State Fault Refusal) (s : State) :
    Host.Outcome State Fault Refusal :=
  match s.host.fault with
  | some a => .fault (.hostStopped a)
  | none => act s

/-- One agent's turn. DESIGN CHOICE: an access of the HOST's own taken while a procedure runs goes through, between two of the
procedure's statements, where R16 makes the HOST one thread and R165 to R175 give it none there (log 31). -/
def turn (t : Turn) (s : State) : Host.Outcome State Fault Refusal :=
  match t with
  | .host a => hostTurn (access a) s
  | .call p => hostTurn (fun s => .next (callProc p s)) s
  | .thread => hostTurn threadStep s
  | .ctl => .next (ctlStep s)
  | .bus ans b => .next (busStep ans b s)
  | .target ans draw => .next (targetStep ans draw s)
  | .reset => .next (resetStep s)

/-- The turn that comes next: the first queued one, or a free one when none is queued (R57; log 2). -/
def nextTurn (s : State) : Turn :=
  match s.turns with
  | t :: _ => t
  | [] => Config.freeTurn s.draws

/-- The state in which the next turn is taken: it leaves the queue, or one more free value has been drawn. -/
def popTurn (s : State) : State :=
  match s.turns with
  | _ :: rest => { s with turns := rest }
  | [] => { s with draws := s.draws + 1 }

/-- One step of the machine. -/
def agentStep (s : State) : Host.Outcome State Fault Refusal := turn (nextTurn s) (popTurn s)

/-- The HOST is about to write the word `w` to CMD (R70, R90), and is able to. -/
def placeCommand (w : Word) (s : State) : State :=
  { s with
    turns := .host (.write 0x08#8 4 w) :: s.turns
    host := { s.host with fault := none } }

end Sys2Proof.Machine
end

