-- ==== Sys2Proof/Machine/Step.lean ====
section
/-! DEFINITION. The machine's step, and how a command comes to be the next thing it runs. -/

namespace Sys2Proof.Machine

/-- One turn of one agent (R12, R57). -/
def step (s : State) : Host.Outcome State Fault Refusal := agentStep s

/-- The block fetches nothing (R62): a command runs when the HOST writes its word to CMD (R90). So the word whose
low `nbits` bits are `w` is queued as the HOST's next access, and the very next step presents it. -/
def State.withFetchWord (s : State) (nbits w : Nat) : State := placeCommand (tableWord nbits w) s

end Sys2Proof.Machine
end

