-- ==== Sys2Proof/Safety.lean ====
section
/-! DEFINITION. What the statements speak of: runs of turns, the invariants (R46, R59, R60, R180), the healthy bus (R160),
the hang (R116) and the end of a host program (R179). -/

namespace Sys2Proof.Machine

/-- R57: a run of the given turns, one after another, stopping at the first that stops the machine. -/
def runTurns : List Turn → State → Host.Outcome State Fault Refusal
  | [], s => .next s
  | t :: ts, s =>
    match turn t s with
    | .next s' => runTurns ts s'
    | .fault r => .fault r
    | .refused r => .refused r

/-- RDREG or WRREG is being executed. -/
abbrev State.onBus (s : State) : Prop := s.latch.lop = some .rd ∨ s.latch.lop = some .wr

/-- R46, items 1 to 4 (item 5 is that `lop` is one value). -/
abbrev State.R46 (s : State) : Prop :=
  (s.status.busy = true ↔ s.latch.lop ≠ none) ∧
  (s.status.phase ≠ .idle → s.onBus) ∧
  (s.wait.req ≠ none → s.onBus) ∧
  (owned s.trace = true → s.onBus)

/-- R110: what an RDREG waits on in each phase. -/
def readRows : List (Phase × Option Req) :=
  [(.idle, some .start), (.startSent, some .addrw), (.addrWSent, some .txreg), (.regAddrSent, some .rstart),
   (.repeatedStart, some .addrr), (.addrRSent, none), (.ackDisabled, some .rxnack),
   (.dataReceived, some .stop), (.stopSent, none)]

/-- R110: what a WRREG waits on in each phase. -/
def writeRows : List (Phase × Option Req) :=
  [(.idle, some .start), (.startSent, some .addrw), (.addrWSent, some .txreg), (.regAddrSent, some .txdata),
   (.dataSent, some .stop), (.stopSent, none)]

/-- R110, R111: what an RDREG waits on after a NACK has aborted it. -/
def readAbortRows : List (Phase × Option Req) :=
  [(.startSent, some .stop), (.addrWSent, some .stop), (.repeatedStart, some .stop), (.stopSent, none)]

/-- R110, R111: what a WRREG waits on after a NACK has aborted it. -/
def writeAbortRows : List (Phase × Option Req) :=
  [(.startSent, some .stop), (.addrWSent, some .stop), (.regAddrSent, some .stop), (.stopSent, none)]

/-- R28, R110: PHASE and req fit the command being executed. -/
def sequenced (lop : Option Op) (abort : Bool) (ph : Phase) (req : Option Req) : Bool :=
  match lop, abort with
  | some .rd, false => decide ((ph, req) ∈ readRows)
  | some .rd, true => decide ((ph, req) ∈ readAbortRows)
  | some .wr, false => decide ((ph, req) ∈ writeRows)
  | some .wr, true => decide ((ph, req) ∈ writeAbortRows)
  | some .hdg, a => !a && decide (ph = .idle) && decide (req = none)
  | some .sec, a => !a && decide (ph = .idle) && decide (req = none)
  | none, a => !a && decide (ph = .idle) && decide (req = none)

/-- A request is STALLED (R40: `reqst` says nothing while req is NONE). -/
def State.stalled (s : State) : Bool := s.wait.req.isSome && s.wait.reqst == .stalled

/-- The control invariant: R46 item 1, R110's table, R112's stall only at an answered request with detection off and no
abort, and an abort only with detection on (R111). -/
abbrev State.ControlInv (s : State) : Prop :=
  (s.status.busy = true ↔ s.latch.lop ≠ none) ∧
  sequenced s.latch.lop s.wait.abort s.status.phase s.wait.req = true ∧
  (s.stalled = true → s.latch.lnacke = false ∧ s.wait.abort = false ∧ s.wait.req.all Req.answered = true) ∧
  (s.wait.abort = true → s.latch.lnacke = true)

/-- R59: how far the transaction on the wire has got. -/
inductive BusPos where
  /-- No transaction is open. -/
  | closed
  /-- `S`. -/
  | started
  /-- `S A(d,W,ACK)`. -/
  | addrW (d : DevAddr)
  /-- `S A(d,W,ACK) T(r,ACK)`. -/
  | reg (d : DevAddr)
  /-- `S A(d,W,ACK) T(r,ACK) Sr`. -/
  | rstart (d : DevAddr)
  /-- `S A(d,W,ACK) T(r,ACK) Sr A(d,R,ACK)`. -/
  | addrR (d : DevAddr)
  /-- All but the closing STOP. -/
  | full
  /-- The last event has the answer NACK. -/
  | nacked
  deriving DecidableEq, Repr, Inhabited

/-- R59: after a byte is answered: the transaction goes on at `p`, or its last event is a NACK. -/
def BusPos.onAnswer (p : BusPos) : Ack → BusPos
  | .ack => p
  | .nack => .nacked

/-- R59, R60: where the transaction stands after one more event; `none` for an event no form of R59 allows there. -/
def BusPos.after (p : BusPos) (e : BusEvent) : Option BusPos :=
  match e with
  | .start => if p = .closed then some .started else none
  | .addr d .w ans => if p = .started then some (onAnswer (.addrW d) ans) else none
  | .tx _ ans =>
    match p with
    | .addrW d => some (onAnswer (.reg d) ans)
    | .reg _ => some (onAnswer .full ans)
    | _ => none
  | .rstart =>
    match p with
    | .reg d => some (.rstart d)
    | _ => none
  | .addr d .r ans => if p = .rstart d then some (onAnswer (.addrR d) ans) else none
  | .rx _ .nack =>
    match p with
    | .addrR _ => some .full
    | _ => none
  | .rx _ .ack => none
  | .stop => if p = .full ∨ p = .nacked then some .closed else none
  | .rel => if p = .closed then none else some .closed

/-- R59, R60: the trace read from its start: `some p` if it is a sequence of complete transactions, each of one of the
forms of R59, followed by an open one at `p` (or none, at `closed`). -/
def scanTrace (trace : List BusEvent) : Option BusPos :=
  trace.foldl (fun p e => p.bind (fun q => q.after e)) (some .closed)

/-- Where the controller's own variables say the transaction stands. -/
def State.busPos (s : State) : BusPos :=
  if s.stalled || (s.wait.abort && s.status.phase != .stopSent) then .nacked
  else
    match s.status.phase with
    | .idle => .closed
    | .startSent => .started
    | .addrWSent => .addrW s.latch.ldev
    | .regAddrSent => .reg s.latch.ldev
    | .dataSent => .full
    | .repeatedStart => .rstart s.latch.ldev
    | .addrRSent => .addrR s.latch.ldev
    | .ackDisabled => .addrR s.latch.ldev
    | .dataReceived => .full
    | .stopSent => .closed

/-- R59, R60: the trace is made of R59's forms, and the controller stands where the trace ends. -/
abbrev State.TraceInv (s : State) : Prop := scanTrace s.trace = some s.busPos

/-- R152: the target's position where the wire stands at `p`, for a transaction addressed to `ldev`; after a NACK
nothing is said. -/
def BusPos.targetAt (p : BusPos) (l : Latch) : Option TSeq :=
  match p with
  | .closed => some .free
  | .started => some .started
  | .addrW _ => some (if l.ldev = Config.devAddr then .addrW else .ignore)
  | .reg _ => some (if l.ldev = Config.devAddr then .ptrSet else .ignore)
  | .rstart _ => some .started
  | .addrR _ => some (if l.ldev = Config.devAddr then .addrR else .ignore)
  | .full =>
    some (if l.ldev = Config.devAddr then (if l.lop = some .wr then .dataW else .addrR) else .ignore)
  | .nacked => none

/-- The positions at which the register pointer is set and the data byte has not passed. -/
def BusPos.pointerSet : BusPos → Bool
  | .reg _ | .rstart _ | .addrR _ => true
  | .closed | .started | .addrW _ | .full | .nacked => false

/-- R152, R153: the target stands where the wire stands, and its pointer is the command's register. -/
abbrev State.TargetInv (s : State) : Prop :=
  (∀ q, s.busPos.targetAt s.latch = some q → s.target.tseq = q) ∧
  (s.busPos.pointerSet = true → s.latch.ldev = Config.devAddr → s.target.tptr = s.latch.lreg)

/-- R29, R180: the ERRPH values each error may have. -/
def errPhases : ErrCode → List Phase
  | .none => [.idle]
  | .busTimeout =>
    [.startSent, .addrWSent, .regAddrSent, .dataSent, .repeatedStart, .addrRSent, .dataReceived, .stopSent]
  | .deviceNotAck => [.addrWSent, .regAddrSent, .dataSent, .addrRSent]
  | .illegalCmd => [.idle]
  | .angleDomain => [.idle]

/-- R25, R29, R180, R184: the recorded error is one of the table's, and while a command runs DONE is 0 and the only
error recorded is the NACK that is aborting it. -/
abbrev State.ErrorInv (s : State) : Prop :=
  s.status.errph ∈ errPhases s.status.err ∧
  (s.latch.lop ≠ none →
    s.status.done = false ∧ (s.wait.abort = false → s.status.err = .none) ∧
    (s.wait.abort = true → s.status.err = .deviceNotAck))

/-- R113: with a bound, no wait has used it up. -/
abbrev State.WaitInv (s : State) : Prop :=
  s.latch.ltout ≠ 0#32 → s.wait.req ≠ none → s.wait.wcnt < s.latch.ltout

/-- R106, R109, R110: the request the controller issues when `q` has completed well. -/
def nextReq (lop : Option Op) : Req → Option Req
  | .start => some .addrw
  | .addrw => some .txreg
  | .txreg => if lop = some .wr then some .txdata else some .rstart
  | .txdata => some .stop
  | .rstart => some .addrr
  | .addrr => none
  | .rxnack => some .stop
  | .stop => none

/-- `n` wait cycles and then a BUS step in which the target answers (R113, R152). -/
def waitThenTarget (n : Nat) (ans : Ack) (draw : Byte) : List Turn :=
  List.replicate n .ctl ++ [.target ans draw]

/-- R100, R118, R160: the turns of an RDREG on a healthy bus, `k j` wait cycles before the j-th bus event. -/
def healthyRead (k : Nat → Nat) (ans : Ack) (draw : Byte) : List Turn :=
  waitThenTarget (k 0) ans draw ++ waitThenTarget (k 1) ans draw ++ waitThenTarget (k 2) ans draw ++
  waitThenTarget (k 3) ans draw ++ waitThenTarget (k 4) ans draw ++ [.ctl] ++
  waitThenTarget (k 5) ans draw ++ waitThenTarget (k 6) ans draw ++ [.ctl]

/-- R101, R118, R160: the turns of a WRREG on a healthy bus. -/
def healthyWrite (k : Nat → Nat) (ans : Ack) (draw : Byte) : List Turn :=
  waitThenTarget (k 0) ans draw ++ waitThenTarget (k 1) ans draw ++ waitThenTarget (k 2) ans draw ++
  waitThenTarget (k 3) ans draw ++ waitThenTarget (k 4) ans draw ++ [.ctl]

/-- R160 item 1: no wait reaches the bound `lim`, if there is one. -/
abbrev WaitsWithin (k : Nat → Nat) (lim : Word) : Prop := lim = 0#32 ∨ ∀ j, k j < lim.toNat

/-- R100: the bus events of an RDREG on a healthy bus. -/
def readEvents (d : DevAddr) (r b : Byte) : List BusEvent :=
  [.start, .addr d .w .ack, .tx r .ack, .rstart, .addr d .r .ack, .rx b .nack, .stop]

/-- R101: the bus events of a WRREG on a healthy bus. -/
def writeEvents (d : DevAddr) (r v : Byte) : List BusEvent :=
  [.start, .addr d .w .ack, .tx r .ack, .tx v .ack, .stop]

/-- R92: the state in which a command is accepted. -/
def acceptOf : Instr → State → State
  | .rdreg dev reg => acceptRdreg dev reg
  | .wrreg dev reg data => acceptWrreg dev reg data
  | .heading => acceptHeading
  | .sector => acceptSector

/-- The words a procedure's statements store to CMD, in their order. -/
def cmdWords (ops : List HostOp) : List Word :=
  ops.filterMap (fun op =>
    match op with
    | .write off v => if off = 0x08#8 then some v else none
    | _ => none)

/-- R116: a bus command waits, with no bound, on a request the BUS agent can no longer complete. -/
abbrev State.Hung (s : State) : Prop :=
  s.stalled = true ∧ s.latch.ltout = 0#32 ∧ s.status.busy = true ∧ s.status.done = false

/-- A turn that is a statement of a host program: an access of its own or a call. `thread` only runs the next statement of a
call already made. -/
def Turn.hostStatement : Turn → Bool
  | .host _ | .call _ => true
  | .thread | .ctl | .bus _ _ | .target _ _ | .reset => false

/-- R179: the HOST has executed its last statement, of the procedure it runs and of those queued, and BUSY is 0.
DEDUCED: a host program's statements are those two (log 30). -/
abbrev State.ProgramEnded (s : State) : Prop :=
  s.host.script = [] ∧ (∀ u ∈ s.turns, u.hostStatement = false) ∧ s.status.busy = false

/-- R165, R179: the HOST is in one of the polling loops of `runCmd`. -/
abbrev State.Polling (s : State) : Prop :=
  s.host.script.head? = some .waitIdle ∨ s.host.script.head? = some .waitDone

end Sys2Proof.Machine
end

