-- ==== Sys2Proof/Certificates/Slice0/Obligations.lean ====
section
/-! DEFINITION. The statements for the provers, from the numbered rules of spec/. Each docstring names its rules. -/

open Sys2Proof Sys2Proof.Machine

/-! ## Encoding -/

/-- R73, R82: the decoder reads back every command the encoder writes, at every operand. -/
def Obligations.DecodeOfEncode : Prop :=
  ∀ i : Instr, i.wellFormed = true → decode (encode i) = .cmd i

/-- R73, R75: a word that decodes to a command is that command's encoding: decoding is strict, no bit is ignored. -/
def Obligations.EncodeOfDecode : Prop :=
  ∀ (w : Word) (i : Instr), decode w = .cmd i → encode i = w

/-- R72: a word is a command exactly when it matches a row, no word matches two rows, and a command's word matches the
row of that command. -/
def Obligations.DecodeFollowsMaskMatchTable : Prop :=
  ∀ w : Word,
    ((decode w).instr.isSome = true ↔ ∃ r ∈ opcodeRows, w &&& r.mask = r.value) ∧
    (∀ r1 ∈ opcodeRows, ∀ r2 ∈ opcodeRows, w &&& r1.mask = r1.value → w &&& r2.mask = r2.value → r1 = r2) ∧
    (∀ i, decode w = .cmd i → w &&& i.mask = i.fixedBits)

/-- R75: an illegal word is named by its cause: a reserved OP (0x0, 0x5 to 0xF), or a legal OP with a bit that must be 0. -/
def Obligations.IllegalWordNamesItsCause : Prop :=
  ∀ w : Word,
    (decode w = .illegal .reservedOp ↔ (opField w = 0#4 ∨ 5 ≤ (opField w).toNat)) ∧
    (decode w = .illegal .reservedBits ↔
      (1 ≤ (opField w).toNat ∧ (opField w).toNat ≤ 4 ∧ ¬ ∃ r ∈ opcodeRows, w &&& r.mask = r.value))

/-- R84: the worked encodings, word by word. -/
def Obligations.WorkedEncodingsDecode : Prop :=
  encode (.rdreg 0x1E#7 0x03#8) = 0x00031E01#32 ∧ decode 0x00031E01#32 = .cmd (.rdreg 0x1E#7 0x03#8) ∧
  encode (.rdreg 0x1E#7 0x0A#8) = 0x000A1E01#32 ∧ decode 0x000A1E01#32 = .cmd (.rdreg 0x1E#7 0x0A#8) ∧
  encode (.wrreg 0x1E#7 0x02#8 0x00#8) = 0x00021E02#32 ∧
  decode 0x00021E02#32 = .cmd (.wrreg 0x1E#7 0x02#8 0x00#8) ∧
  encode (.wrreg 0x1E#7 0x02#8 0x01#8) = 0x01021E02#32 ∧
  decode 0x01021E02#32 = .cmd (.wrreg 0x1E#7 0x02#8 0x01#8) ∧
  encode (.wrreg 0x7F#7 0xFF#8 0xFF#8) = 0xFFFF7F02#32 ∧
  decode 0xFFFF7F02#32 = .cmd (.wrreg 0x7F#7 0xFF#8 0xFF#8) ∧
  encode .heading = 0x00000003#32 ∧ decode 0x00000003#32 = .cmd .heading ∧
  encode .sector = 0x00000004#32 ∧ decode 0x00000004#32 = .cmd .sector ∧
  (decode 0x05031E01#32).instr = none ∧ (decode 0x00039E01#32).instr = none ∧
  (decode 0x00000000#32).instr = none

/-- R82: an operand in range is encoded in its field; one out of range is an assembly error, never truncated. -/
def Obligations.AssemblerNeverTruncates : Prop :=
  (∀ dev reg : Nat, (Asm.rdreg dev reg).assemble =
    if dev ≤ 0x7F ∧ reg ≤ 0xFF then some (BitVec.ofNat 32 (reg * 2 ^ 16 + dev * 2 ^ 8 + 1)) else none) ∧
  (∀ dev reg data : Nat, (Asm.wrreg dev reg data).assemble =
    if dev ≤ 0x7F ∧ reg ≤ 0xFF ∧ data ≤ 0xFF then
      some (BitVec.ofNat 32 (data * 2 ^ 24 + reg * 2 ^ 16 + dev * 2 ^ 8 + 2)) else none)

/-! ## Presenting a command -/

/-- R92: with BUSY = 0 each of the four commands is accepted and leaves exactly this state: what the rule writes, and
every other part of the machine as it was. -/
def Obligations.AcceptedCommandState : Prop :=
  ∀ s : State, s.status.busy = false →
    (∀ dev reg, exec (.rdreg dev reg) s = .next { s with
      status := { s.status with busy := true, done := false, err := .none, errph := .idle }
      latch := { s.latch with
        lop := some .rd, ldev := dev, lreg := reg, ldata := 0#8
        lnacke := s.regs.nacke, ltout := s.regs.timeout }
      wait := { req := some .start, reqst := .pending, wcnt := 0#32, abort := false } }) ∧
    (∀ dev reg data, exec (.wrreg dev reg data) s = .next { s with
      status := { s.status with busy := true, done := false, err := .none, errph := .idle }
      latch := { s.latch with
        lop := some .wr, ldev := dev, lreg := reg, ldata := data
        lnacke := s.regs.nacke, ltout := s.regs.timeout }
      wait := { req := some .start, reqst := .pending, wcnt := 0#32, abort := false } }) ∧
    exec .heading s = .next { s with
      status := { s.status with busy := true, done := false, err := .none, errph := .idle }
      latch := { s.latch with
        lop := some .hdg, lx := s.regs.hxy.extractLsb' 0 16, ly := s.regs.hxy.extractLsb' 16 16
        lnacke := s.regs.nacke, ltout := s.regs.timeout }
      wait := { s.wait with abort := false } } ∧
    exec .sector s = .next { s with
      status := { s.status with busy := true, done := false, err := .none, errph := .idle }
      latch := { s.latch with
        lop := some .sec, lain := s.regs.hainHi ++ s.regs.hainLo
        lnacke := s.regs.nacke, ltout := s.regs.timeout }
      wait := { s.wait with abort := false } }

/-- R91, R183 item 1: with BUSY = 1 any word, legal or not, is dropped: OVR is set and nothing else changes. -/
def Obligations.BusyCommandDropped : Prop :=
  ∀ (s : State), s.status.busy = true →
    (∀ w, presentWord w s = .next { s with status := { s.status with ovr := true } }) ∧
    (∀ i, exec i s = .next { s with status := { s.status with ovr := true } })

/-- R93: with BUSY = 0 an illegal word sets DONE and ILLEGAL_CMD and changes nothing else. -/
def Obligations.IllegalWordRejected : Prop :=
  ∀ (s : State) (w : Word) (why : Illegal), s.status.busy = false → decode w = .illegal why →
    presentWord w s = .next { s with
      status := { s.status with done := true, err := .illegalCmd, errph := .idle } }

/-- R90: a 32-bit store to CMD drops, rejects or accepts, in this order. -/
def Obligations.CmdStoreChoosesInOrder : Prop :=
  ∀ (s : State) (w : Word),
    access (.write 0x08#8 4 w) s =
      if s.status.busy = true then .next (drop s)
      else
        match decode w with
        | .illegal _ => .next (reject s)
        | .cmd i => .next (acceptOf i s)

/-- A step runs the decoded command: the word at the head of the queue, when it decodes to `i`, is run as `exec i`
in the state without it; and a word placed by `withFetchWord` is run so by the very next step (R62, R90). -/
def Obligations.StepRunsDecodedCommand : Prop :=
  (∀ (s : State) (rest : List Turn) (w : Word) (i : Instr),
    s.turns = .host (.write 0x08#8 4 w) :: rest → s.host.fault = none → decode w = .cmd i →
      step s = exec i { s with turns := rest }) ∧
  (∀ (s : State) (nbits w : Nat) (i : Instr), decodeTableWord nbits w = some i →
      step (s.withFetchWord nbits w) = exec i { s with host := { s.host with fault := none } })

/-- R57: the machine takes the queued turns one after another, in their order (the queue is the model's own: log 2). -/
def Obligations.QueuedTurnsRunInOrder : Prop :=
  ∀ (ts rest : List Turn) (s : State),
    Host.Core.run core ts.length { s with turns := ts ++ rest } = runTurns ts { s with turns := rest }

/-! ## The transaction, step by step -/

/-- R96 to R99, R102, R103, R107, R108: a request that completes well puts its event on the trace, enters its phase and
leads to the next request; RXDATA takes the byte at RXNACK; nothing else changes but the target, which sees the event.
ControlInv leaves out the states no run reaches, in which a request is pending that the latched command never makes: the
rules give those no reaction (log 13). -/
def Obligations.CompletedRequestAdvances : Prop :=
  ∀ (s : State) (q : Req) (ans : Ack) (b : Byte), s.ControlInv → s.onBus → s.wait.req = some q → s.wait.reqst = .pending →
    (q.answered = true → ans = .ack) →
    ∃ t, turn (.bus ans b) s = .next t ∧
      t.trace = s.trace ++ [q.event s.latch ans b] ∧
      t.status = { s.status with phase := q.phase } ∧
      t.wait = (match nextReq s.latch.lop q with
        | some q' => { req := some q', reqst := .pending, wcnt := 0#32, abort := s.wait.abort }
        | none => { s.wait with req := none }) ∧
      t.regs = (if q = .rxnack then { s.regs with rxdata := b } else s.regs) ∧
      t.latch = s.latch ∧ t.host = s.host ∧ t.turns = s.turns ∧
      t.target = s.target.observe (Config.freeByte s.draws) (q.event s.latch ans b)

/-- R111: a NACK with detection on records the error and the failed step, and requests STOP; PHASE and the rest stay. -/
def Obligations.NackWithDetectionAborts : Prop :=
  ∀ (s : State) (q : Req) (b : Byte), s.wait.req = some q → s.wait.reqst = .pending → q.answered = true →
    s.latch.lnacke = true →
    ∃ t, turn (.bus .nack b) s = .next t ∧
      t.trace = s.trace ++ [q.event s.latch .nack b] ∧
      t.status = { s.status with err := .deviceNotAck, errph := q.phase } ∧
      t.wait = { req := some .stop, reqst := .pending, wcnt := 0#32, abort := true } ∧
      t.regs = s.regs ∧ t.latch = s.latch ∧ t.host = s.host ∧ t.turns = s.turns

/-- R112: a NACK with detection off puts its event on the trace and stalls the request, which no later BUS turn
completes. -/
def Obligations.NackWithoutDetectionStalls : Prop :=
  (∀ (s : State) (q : Req) (b : Byte), s.wait.req = some q → s.wait.reqst = .pending → q.answered = true →
    s.latch.lnacke = false →
    ∃ t, turn (.bus .nack b) s = .next t ∧
      t.trace = s.trace ++ [q.event s.latch .nack b] ∧
      t.wait = { s.wait with reqst := .stalled } ∧
      t.status = s.status ∧ t.regs = s.regs ∧ t.latch = s.latch ∧ t.host = s.host) ∧
  (∀ (s : State) (ans : Ack) (b : Byte), s.stalled = true →
    turn (.bus ans b) s = .next s ∧ turn (.target ans b) s = .next s)

/-- R113: a wait cycle counts one, saturating, and times out exactly when a bound is set and reached. -/
def Obligations.WaitCycleCountsAndTimesOut : Prop :=
  ∀ (s : State) (q : Req), s.wait.req = some q →
    ∃ n : Word, n.toNat = min (s.wait.wcnt.toNat + 1) 0xFFFFFFFF ∧
      turn .ctl s = .next (if s.latch.ltout ≠ 0#32 ∧ s.latch.ltout.toNat ≤ n.toNat
        then timeout q { s with wait := { s.wait with wcnt := n } }
        else { s with wait := { s.wait with wcnt := n } })

/-- R114: what a timeout leaves: the first error wins, REL only if the bus was owned, the command over, DONE = 1. -/
def Obligations.TimeoutReleasesTheBus : Prop :=
  ∀ (s : State) (q : Req),
    (timeout q s).status =
      { busy := false, done := true, ovr := s.status.ovr, phase := .idle
        err := if s.status.err = .none then .busTimeout else s.status.err
        errph := if s.status.err = .none then q.phase else s.status.errph } ∧
    (timeout q s).trace = s.trace ++ (if owned s.trace = true then [.rel] else []) ∧
    (timeout q s).wait = { s.wait with req := none, abort := false } ∧
    (timeout q s).latch = { s.latch with lop := none } ∧
    (timeout q s).regs = s.regs ∧ (timeout q s).host = s.host ∧ (timeout q s).turns = s.turns

/-- R106, R109: the two internal steps of the controller: no bus event, and nothing changes but what the rules write. -/
def Obligations.InternalStepsOfTheController : Prop :=
  (∀ s : State, s.latch.lop = some .rd → s.status.phase = .addrRSent → s.wait.req = none →
    turn .ctl s = .next { s with
      status := { s.status with phase := .ackDisabled }
      wait := { s.wait with req := some .rxnack, reqst := .pending, wcnt := 0#32 } }) ∧
  (∀ s : State, s.status.phase = .stopSent → s.wait.req = none →
    turn .ctl s = .next { s with
      status := { s.status with phase := .idle, busy := false, done := true }
      latch := { s.latch with lop := none }
      wait := { s.wait with abort := false } })

/-- R100, R117, R118, R160: on a healthy bus an RDREG of the target's register `reg`, with any admissible number of wait
cycles, runs to its end: seven bus events, RXDATA the target's byte, DONE with no error, and nothing else changed. -/
def Obligations.HealthyReadCompletes : Prop :=
  ∀ (s : State) (reg : Byte) (k : Nat → Nat) (ans : Ack) (draw : Byte),
    s.status.busy = false → s.status.phase = .idle → reg.toNat ≤ 0x0C → WaitsWithin k s.regs.timeout →
    ∃ s1 t, exec (.rdreg Config.devAddr reg) s = .next s1 ∧ runTurns (healthyRead k ans draw) s1 = .next t ∧
      t.trace = s.trace ++ readEvents Config.devAddr reg (s.target.read reg draw) ∧
      t.regs = { s.regs with rxdata := s.target.read reg draw } ∧
      t.status = { s.status with busy := false, done := true, err := .none, errph := .idle } ∧
      t.latch.lop = none ∧ t.wait.req = none ∧ t.wait.abort = false ∧
      t.host = s.host ∧ t.turns = s.turns ∧
      t.target.tseq = .free ∧ t.target.tcra = s.target.tcra ∧ t.target.tcrb = s.target.tcrb ∧
      t.target.tmr = s.target.tmr

/-- R101, R117, R118, R154, R160: on a healthy bus a WRREG to the target's register `reg` runs to its end: five bus events,
the target's register written, DONE with no error, RXDATA and every other block register unchanged. -/
def Obligations.HealthyWriteCompletes : Prop :=
  ∀ (s : State) (reg data : Byte) (k : Nat → Nat) (ans : Ack) (draw : Byte),
    s.status.busy = false → s.status.phase = .idle → reg.toNat ≤ 0x0C → WaitsWithin k s.regs.timeout →
    ∃ s1 t, exec (.wrreg Config.devAddr reg data) s = .next s1 ∧ runTurns (healthyWrite k ans draw) s1 = .next t ∧
      t.trace = s.trace ++ writeEvents Config.devAddr reg data ∧
      t.regs = s.regs ∧
      t.status = { s.status with busy := false, done := true, err := .none, errph := .idle } ∧
      t.latch.lop = none ∧ t.wait.req = none ∧ t.wait.abort = false ∧
      t.host = s.host ∧ t.turns = s.turns ∧ t.target.tseq = .free ∧
      t.target.tcra = (if reg = 0x00#8 then some data else s.target.tcra) ∧
      t.target.tcrb = (if reg = 0x01#8 then some data else s.target.tcrb) ∧
      t.target.tmr = (if reg = 0x02#8 then some (data.extractLsb' 0 2) else s.target.tmr)

/-- R155, R156: a mode byte written and register 0x02 read back, on a healthy bus, gives the two low bits written, whatever
the draw of the other six. -/
def Obligations.ModeReadsBack : Prop :=
  ∀ (s : State) (data : Byte) (k k' : Nat → Nat) (ans ans' : Ack) (draw draw' : Byte),
    s.status.busy = false → s.status.phase = .idle →
    WaitsWithin k s.regs.timeout → WaitsWithin k' s.regs.timeout →
    ∃ s1 s2 s3 t, exec (.wrreg Config.devAddr 0x02#8 data) s = .next s1 ∧
      runTurns (healthyWrite k ans draw) s1 = .next s2 ∧
      exec (.rdreg Config.devAddr 0x02#8) s2 = .next s3 ∧
      runTurns (healthyRead k' ans' draw') s3 = .next t ∧
      t.regs.rxdata &&& 0x03#8 = data &&& 0x03#8 ∧ t.status.done = true ∧ t.status.err = .none

/-- R111, R108, R109: after a NACK with detection on, STOP and the completion step end the command with
DEVICE_NOT_ACK and the failed step, and the trace closes with a STOP. -/
def Obligations.NackAbortCompletes : Prop :=
  ∀ (s : State) (q : Req) (ans : Ack) (b b' : Byte), s.wait.req = some q → s.wait.reqst = .pending →
    q.answered = true → s.latch.lnacke = true →
    ∃ t, runTurns [.bus .nack b, .bus ans b', .ctl] s = .next t ∧
      t.trace = s.trace ++ [q.event s.latch .nack b, .stop] ∧
      t.status =
        { busy := false, done := true, ovr := s.status.ovr, err := .deviceNotAck, phase := .idle
          errph := q.phase } ∧
      t.latch.lop = none ∧ t.wait.req = none ∧ t.regs = s.regs

/-- R114, R181, R183 item 3: when the STOP of a NACK abort times out, ERR and ERRPH keep the NACK. -/
def Obligations.FirstErrorWinsOverTimeout : Prop :=
  ∀ (s : State) (q : Req) (b : Byte), s.wait.req = some q → s.wait.reqst = .pending → q.answered = true →
    s.latch.lnacke = true → s.latch.ltout ≠ 0#32 → owned s.trace = true →
    ∃ t, runTurns (.bus .nack b :: List.replicate s.latch.ltout.toNat .ctl) s = .next t ∧
      t.trace = s.trace ++ [q.event s.latch .nack b, .rel] ∧
      t.status =
        { busy := false, done := true, ovr := s.status.ovr, err := .deviceNotAck, phase := .idle
          errph := q.phase }

/-- R112, R116, R202: a stalled request with no bound hangs the block: whatever turn is taken but a reset, it stays hung and
nothing goes on the bus. R165, R179: a HOST in a polling loop stays in it, so its program does not end. -/
def Obligations.StalledRequestHangsUntilReset : Prop :=
  ∀ (s s' : State) (u : Turn), s.Hung → u ≠ .reset → turn u s = .next s' →
    s'.Hung ∧ s'.trace = s.trace ∧ s'.status.phase = s.status.phase ∧
    (s.Polling → s'.host.script = s.host.script ∧ ¬ s'.ProgramEnded)

/-- R165, R209, R113, R114: with a bound set, a bus command ends whatever the BUS agent does: every run of CTL and BUS turns
with enough CTL turns in it ends with BUSY = 0 and DONE = 1. -/
def Obligations.BoundedCommandEndsForEveryBus : Prop :=
  ∀ (s : State) (us : List Turn), s.ControlInv → s.WaitInv → s.onBus → s.latch.ltout ≠ 0#32 →
    (∀ u ∈ us, u = .ctl ∨ (∃ ans b, u = .bus ans b) ∨ (∃ ans b, u = .target ans b)) →
    8 * s.latch.ltout.toNat + 2 ≤ us.count .ctl →
    ∃ t, runTurns us s = .next t ∧ t.status.busy = false ∧ t.status.done = true ∧ t.latch.lop = none

/-! ## Invariants -/

/-- R24, R110, R111, R112: every step keeps BUSY equal to a command being latched, and PHASE, req and the abort flag at a
row of R110's table for that command. -/
def Obligations.StepKeepsControl : Prop :=
  ∀ s s' : State, step s = .next s' → s.ControlInv → s'.ControlInv

/-- R59, R60, R105, R115: every step keeps the trace a sequence of whole transactions of R59's forms, followed by the open
one just where the controller's PHASE and request say it is: no transaction's event comes inside another. -/
def Obligations.StepKeepsTraceForms : Prop :=
  ∀ s s' : State, step s = .next s' → s.ControlInv → s.TraceInv → s'.TraceInv

/-- R152, R153: every step keeps the target where the wire stands, with its pointer at the command's register until
the data byte has passed. -/
def Obligations.StepKeepsTargetInStep : Prop :=
  ∀ s s' : State, step s = .next s' → s.ControlInv → s.TraceInv → s.TargetInv → s'.TargetInv

/-- R29, R180, R184: every step keeps ERR and ERRPH at a pair of R180's table. -/
def Obligations.StepKeepsErrorTable : Prop :=
  ∀ s s' : State, step s = .next s' → s.ControlInv → s.ErrorInv → s'.ErrorInv

/-- R41, R113: every step keeps the wait counter below a bound that is set. -/
def Obligations.StepKeepsWaitBelowBound : Prop :=
  ∀ s s' : State, step s = .next s' → s.ControlInv → s.WaitInv → s'.WaitInv

/-- R46: the four invariants hold in every state in which the two above do. -/
def Obligations.InvariantsOfTheBlock : Prop :=
  ∀ s : State, s.ControlInv → s.TraceInv → s.R46

/-- The power-on state meets every invariant. -/
def Obligations.ResetMeetsInvariants : Prop :=
  State.reset.ControlInv ∧ State.reset.TraceInv ∧ State.reset.TargetInv ∧ State.reset.ErrorInv ∧
    State.reset.WaitInv ∧ State.reset.R46

/-! ## Rules about the whole machine -/

/-- R31: RXDATA changes only in the step that receives a byte, or in a reset. -/
def Obligations.RxdataChangesOnlyOnReceive : Prop :=
  ∀ s s' : State, step s = .next s' → s'.regs.rxdata ≠ s.regs.rxdata →
    nextTurn s = .reset ∨ (s.wait.req = some .rxnack ∧ s.wait.reqst = .pending ∧ s'.status.phase = .dataReceived)

/-- R34, R35: HANGLE changes only when HEADING completes, HSECTOR only when HEADING or SECTOR does, or in a reset. -/
def Obligations.HeadingResultsChangeOnlyOnCompletion : Prop :=
  ∀ s s' : State, step s = .next s' →
    ((s'.regs.hangleLo ≠ s.regs.hangleLo ∨ s'.regs.hangleHi ≠ s.regs.hangleHi) →
      nextTurn s = .reset ∨ (nextTurn s = .ctl ∧ s.latch.lop = some .hdg ∧ s'.status.done = true)) ∧
    (s'.regs.hsector ≠ s.regs.hsector →
      nextTurn s = .reset ∨
        (nextTurn s = .ctl ∧ (s.latch.lop = some .hdg ∨ s.latch.lop = some .sec) ∧ s'.status.done = true))

/-- R26, R187: OVR, once set, is cleared only by the HOST's store to STATUS of a word with bit 2 = 1, made by itself or as the
next statement of a procedure, or by a reset; and a word presented as a command never clears it. -/
def Obligations.OverrunIsSticky : Prop :=
  (∀ s s' : State, step s = .next s' → s.status.ovr = true → s'.status.ovr = false →
    nextTurn s = .reset ∨
    (∃ v : Word, v.getLsbD 2 = true ∧
      (nextTurn s = .host (.write 0x0C#8 4 v) ∨
        (nextTurn s = .thread ∧ s.host.script.head? = some (.write 0x0C#8 v))))) ∧
  (∀ (s s' : State) (w : Word), presentWord w s = .next s' → s.status.ovr = true → s'.status.ovr = true)

/-- R37 to R39, R62, R206: while a command runs, no step but a reset changes what was latched at its acceptance. -/
def Obligations.LatchesHeldWhileBusy : Prop :=
  ∀ s s' : State, step s = .next s' → s.status.busy = true → nextTurn s ≠ .reset →
    s'.latch = { s.latch with lop := s'.latch.lop }

/-- R43, R45, R200: the trace is a record: a step adds at most one event to it and takes none away. -/
def Obligations.TraceOnlyGrows : Prop :=
  ∀ s s' : State, step s = .next s' → ∃ es, s'.trace = s.trace ++ es ∧ es.length ≤ 1

/-- R52, R186: the error response to a refused access stops the HOST for good: no step clears it, a turn of the HOST stops
with that fault, and the block does not change at the refusal (that the other agents go on until then is the model's
reading: log 14). -/
def Obligations.HostFaultIsNeverCleared : Prop :=
  (∀ (s : State) (a : Access), (a.width ≠ 4 ∨ a.off.toNat % 4 ≠ 0) →
    access a s = .next { s with host := { s.host with fault := some a } }) ∧
  (∀ (s s' : State) (a : Access), step s = .next s' → s.host.fault = some a → s'.host.fault = some a) ∧
  (∀ (s : State) (a : Access) (u : Turn), s.host.fault = some a →
    (u = .thread ∨ (∃ a', u = .host a') ∨ ∃ p, u = .call p) → turn u s = .fault (.hostStopped a))

/-! ## The host's window -/

/-- R20, R21 to R23, R31 to R35, R53: what a load returns after a store of `v` to the same offset. The read/write registers
return `v` (CTRL only bit 0), CMD returns 0, the read-only ones return what they held, and so do the reserved offsets: 0. -/
def Obligations.StoreThenLoadOfEachRegister : Prop :=
  ∀ (s s' : State) (off : BitVec 8) (v : Word), off.toNat % 4 = 0 → off ≠ 0x0C#8 →
    access (.write off 4 v) s = .next s' →
    readOff s' off =
      if off = 0x00#8 then v &&& 1#32
      else if off = 0x04#8 ∨ off = 0x14#8 ∨ off = 0x18#8 ∨ off = 0x1C#8 then v
      else if off = 0x10#8 then s.regs.rxdata.setWidth 32
      else if off = 0x20#8 then s.regs.hangleLo
      else if off = 0x24#8 then s.regs.hangleHi
      else if off = 0x28#8 then s.regs.hsector.code.setWidth 32
      else 0#32

/-- R53, R55: an admitted load changes nothing but the word the HOST gets. A store to any offset but CMD's and STATUS's
leaves everything but the five read/write registers as it was; to a read-only or reserved offset it leaves everything. -/
def Obligations.AccessesDoNothingElse : Prop :=
  (∀ (s : State) (off : BitVec 8), off.toNat % 4 = 0 →
    access (.read off 4) s = .next { s with host := { s.host with rdata := readOff s off } }) ∧
  (∀ (s : State) (off : BitVec 8) (v : Word), off.toNat % 4 = 0 → off ≠ 0x08#8 → off ≠ 0x0C#8 →
    access (.write off 4 v) s = .next { s with regs := { s.regs with
      nacke := if off = 0x00#8 then v.getLsbD 0 else s.regs.nacke
      timeout := if off = 0x04#8 then v else s.regs.timeout
      hxy := if off = 0x14#8 then v else s.regs.hxy
      hainLo := if off = 0x18#8 then v else s.regs.hainLo
      hainHi := if off = 0x1C#8 then v else s.regs.hainHi } })

/-- R30: the STATUS word a host reads, bit by bit as a number, and a store to STATUS: bit 2 = 1 clears OVR, and every other
bit is ignored. -/
def Obligations.StatusWordAndItsStore : Prop :=
  (∀ s : State, (readOff s 0x0C#8).toNat =
    s.status.busy.toNat + 2 * s.status.done.toNat + 4 * s.status.ovr.toNat + 16 * s.status.err.code.toNat +
      256 * s.status.phase.code.toNat + 4096 * s.status.errph.code.toNat) ∧
  (∀ (s : State) (v : Word), access (.write 0x0C#8 4 v) s =
    .next { s with status := { s.status with ovr := s.status.ovr && !v.getLsbD 2 } })

/-! ## Reset -/

/-- The RESET step. From R200: every block register and latch at its reset value, REL if the bus was owned, the trace
otherwise kept, the target touched by that REL alone. The model's choices: the HOST's variables are untouched (log 7), and
`reqst` is kept (log 6). Power-on is a reset with an empty trace: a reset of that state changes nothing, an admitted load in it
returns the words of R201, and the target is FREE (R44). -/
def Obligations.ResetStepState : Prop :=
  (∀ s : State, ∃ t, turn .reset s = .next t ∧
    t.regs = {
      nacke := false, timeout := 0#32, rxdata := 0#8, hxy := 0#32, hainLo := 0#32, hainHi := 0#32
      hangleLo := 0#32, hangleHi := 0#32, hsector := .none } ∧
    t.status = { busy := false, done := false, ovr := false, err := .none, phase := .idle, errph := .idle } ∧
    t.latch = {
      lop := none, ldev := 0#7, lreg := 0#8, ldata := 0#8, lnacke := false, ltout := 0#32
      lx := 0#16, ly := 0#16, lain := 0#64 } ∧
    t.wait = { req := none, reqst := s.wait.reqst, wcnt := 0#32, abort := false } ∧
    t.trace = s.trace ++ (if owned s.trace = true then [.rel] else []) ∧
    t.target = (if owned s.trace = true then { s.target with tseq := .free } else s.target) ∧
    t.host = s.host) ∧
  (∀ off : BitVec 8, off.toNat % 4 = 0 → readOff State.reset off = if off = 0x28#8 then 0x0000000F#32 else 0#32) ∧
  State.reset.trace = [] ∧ turn .reset State.reset = .next State.reset ∧ State.reset.latch.lop = none ∧
  State.reset.target.tseq = .free

/-! ## The heading unit -/

/-- R134, R135, R144 (the order of evaluation inside `hdg`): HEADING, accepted and then given its CTL step, leaves HDG of the
operands in HANGLE and its sector in HSECTOR, DONE with no error, and nothing else changed. -/
def Obligations.HeadingWritesItsResult : Prop :=
  ∀ s : State, s.ControlInv → s.status.busy = false →
    ∃ s1 t, exec .heading s = .next s1 ∧ turn .ctl s1 = .next t ∧
      t.regs.hangleHi ++ t.regs.hangleLo = hdg (s.regs.hxy.extractLsb' 0 16) (s.regs.hxy.extractLsb' 16 16) ∧
      t.regs = { s.regs with
        hangleLo := t.regs.hangleLo, hangleHi := t.regs.hangleHi
        hsector := sectorOf (hdg (s.regs.hxy.extractLsb' 0 16) (s.regs.hxy.extractLsb' 16 16)) } ∧
      t.status = { s.status with busy := false, done := true, err := .none, errph := .idle } ∧
      t.latch.lop = none ∧ t.wait.req = none ∧ t.trace = s.trace ∧ t.target = s.target ∧ t.host = s.host

/-- R138, R139: SECTOR, accepted and then given its CTL step, leaves the sector of the angle in HSECTOR, with ANGLE_DOMAIN
exactly where it is NONE; HANGLE and the rest do not change. -/
def Obligations.SectorWritesItsResult : Prop :=
  ∀ s : State, s.ControlInv → s.status.busy = false →
    ∃ s1 t, exec .sector s = .next s1 ∧ turn .ctl s1 = .next t ∧
      t.regs = { s.regs with hsector := sectorOf (s.regs.hainHi ++ s.regs.hainLo) } ∧
      t.status = { s.status with
        busy := false, done := true, errph := .idle
        err := if sectorOf (s.regs.hainHi ++ s.regs.hainLo) = .none then .angleDomain else .none } ∧
      t.latch.lop = none ∧ t.wait.req = none ∧ t.trace = s.trace ∧ t.target = s.target ∧ t.host = s.host

/-- R39, R145, R206: the result of a HEADING or SECTOR does not depend on what the HOST, the BUS or the queue do between its
acceptance and its completion: any run of turns without CTL and RESET in between gives the same result registers. -/
def Obligations.HeadingUndisturbedWhileBusy : Prop :=
  ∀ (s s1 s2 t : State) (us : List Turn), s.ControlInv → s.status.busy = false →
    (∀ u ∈ us, u ≠ .ctl ∧ u ≠ .reset) →
    (exec .heading s = .next s1 → runTurns us s1 = .next s2 → turn .ctl s2 = .next t →
      t.regs.hangleHi ++ t.regs.hangleLo = hdg s.regs.x s.regs.y ∧ t.regs.hsector = sectorOf (hdg s.regs.x s.regs.y)) ∧
    (exec .sector s = .next s1 → runTurns us s1 = .next s2 → turn .ctl s2 = .next t →
      t.regs.hsector = sectorOf s.regs.ain ∧ t.regs.hangleHi = s.regs.hangleHi ∧ t.regs.hangleLo = s.regs.hangleLo)

/-- R132: with Y = 0 the heading is 180.0 for X < 0 and +0.0 otherwise; with X = 0 it is 90.0 or 270.0 (R140). -/
def Obligations.HeadingOnTheAxes : Prop :=
  (∀ x : Sample, hdg x 0#16 = if x.toInt < 0 then f180 else f0) ∧
  (∀ y : Sample, 0 < y.toInt → hdg 0#16 y = f90) ∧
  (∀ y : Sample, y.toInt < 0 → hdg 0#16 y = f270)

/-- R137: where |X| = |Y|, Y ≠ 0, the heading is exactly a sector boundary. -/
def Obligations.HeadingOnTheDiagonals : Prop :=
  ∀ x y : Sample,
    (0 < y.toInt → x.toInt = y.toInt → hdg x y = f45 ∧ sectorOf (hdg x y) = .east) ∧
    (0 < y.toInt → x.toInt = -y.toInt → hdg x y = f135 ∧ sectorOf (hdg x y) = .south) ∧
    (y.toInt < 0 → x.toInt = y.toInt → hdg x y = f225 ∧ sectorOf (hdg x y) = .west) ∧
    (y.toInt < 0 → x.toInt = -y.toInt → hdg x y = f315 ∧ sectorOf (hdg x y) = .north)

/-- R136: every heading lies in [0, 360), so its sector is never NONE. -/
def Obligations.HeadingAlwaysHasASector : Prop :=
  ∀ x y : Sample, F64.ge (hdg x y) f0 = true ∧ F64.lt (hdg x y) f360 = true ∧ sectorOf (hdg x y) ≠ .none

/-- R136: the bounds of the heading on each side, and the operands that reach them. -/
def Obligations.HeadingExtremes : Prop :=
  (∀ x y : Sample, 0 < y.toInt →
    F64.le 0x3F5CA61566680000#64 (hdg x y) = true ∧ F64.le (hdg x y) 0x40667FF1AD11F2E2#64 = true) ∧
  (∀ x y : Sample, y.toInt < 0 →
    F64.le 0x4066800E52EE0D1E#64 (hdg x y) = true ∧ F64.le (hdg x y) 0x40767FF8D67AA666#64 = true) ∧
  hdg 0x7FFF#16 0x0001#16 = 0x3F5CA61566680000#64 ∧ hdg 0x8000#16 0x0001#16 = 0x40667FF1AD11F2E2#64 ∧
  hdg 0x8000#16 0xFFFF#16 = 0x4066800E52EE0D1E#64 ∧ hdg 0x7FFF#16 0xFFFF#16 = 0x40767FF8D67AA666#64

/-- R131 (P2), R144: the arctangent of 1.0 is the value nearest π/4; the block's grouping and the other one differ at
X = 1, Y = 41. -/
def Obligations.ArctangentOfOneAndEvaluationOrder : Prop :=
  F64.atan64 0x3FF0000000000000#64 = 0x3FE921FB54442D18#64 ∧
  hdg 0x0001#16 0x0029#16 = 0x4056269496074AE7#64 ∧
  F64.sub f90 (F64.mul (F64.atan64 (quotient 0x0001#16 0x0029#16)) (F64.div f180 pi64)) = 0x4056269496074AE8#64

/-- R133: the sector of a finite angle by its real value, and NONE for NaNs and infinities. The value of a finite pattern is
its signed number of units of 2^-1074. -/
def Obligations.SectorByValue : Prop :=
  ∀ a : F64,
    (F64.isFinite a = false → sectorOf a = .none) ∧
    (F64.isFinite a = true →
      sectorOf a =
        if F64.gridInt a < 0 ∨ 360 * 2 ^ 1074 ≤ F64.gridInt a then .none
        else if F64.gridInt a < 45 * 2 ^ 1074 then .north
        else if F64.gridInt a < 135 * 2 ^ 1074 then .east
        else if F64.gridInt a < 225 * 2 ^ 1074 then .south
        else if F64.gridInt a < 315 * 2 ^ 1074 then .west
        else .north)

/-- R11: rounding a fraction of grid units gives a finite value nearest to it, and of two nearest ones the even. -/
def Obligations.RoundingIsToNearestEven : Prop :=
  ∀ n d m : Nat, 0 < d → F64.roundMag n d < F64.infMag → m < F64.infMag →
    ((F64.gridOfMag (F64.roundMag n d) * d : Int) - n).natAbs ≤ ((F64.gridOfMag m * d : Int) - n).natAbs ∧
    (m ≠ F64.roundMag n d →
      ((F64.gridOfMag (F64.roundMag n d) * d : Int) - n).natAbs = ((F64.gridOfMag m * d : Int) - n).natAbs →
      F64.roundMag n d % 2 = 0)

/-- R131 (P1): the arctangent is odd, and keeps the sign of a zero (its value at an infinity is the model's reading: log 21). -/
def Obligations.ArctangentIsOdd : Prop :=
  (∀ x : F64, F64.isNaN x = false → F64.atan64 (F64.negate x) = F64.negate (F64.atan64 x)) ∧
  F64.atan64 0x0000000000000000#64 = 0x0000000000000000#64 ∧
  F64.atan64 0x8000000000000000#64 = 0x8000000000000000#64

/-- R131 (P4): for |q| ≤ 32768 the arctangent is below the value nearest π/2, in magnitude. -/
def Obligations.ArctangentBelowHalfPi : Prop :=
  ∀ x : F64, F64.mag x ≤ 0x40E0000000000000 → F64.mag (F64.atan64 x) < 0x3FF921FB54442D18

/-- R131 (P5, P3): at every finite input the arctangent is correctly rounded: no binary64 value is nearer the real
arctangent, and the result has the input's sign; and it is monotone. (At an infinity its value is the model's
reading: log 21.) -/
def Obligations.ArctangentCorrectlyRounded : Prop :=
  (∀ x : F64, F64.isFinite x = true → F64.isZero x = false →
    F64.neg (F64.atan64 x) = F64.neg x ∧
    ∀ m : Nat, m < F64.infMag →
      |(F64.gridOfMag (F64.mag (F64.atan64 x)) : ℝ) / 2 ^ 1074 - Real.arctan ((F64.grid x : ℝ) / 2 ^ 1074)| ≤
        |(F64.gridOfMag m : ℝ) / 2 ^ 1074 - Real.arctan ((F64.grid x : ℝ) / 2 ^ 1074)|) ∧
  (∀ x y : F64, F64.le x y = true → F64.le (F64.atan64 x) (F64.atan64 y) = true)

/-! ## The host's procedures -/

/-- R167: the two bytes of an axis as one signed 16-bit number, the MSB first. -/
def Obligations.AxisAssembly : Prop :=
  ∀ hi lo : Byte, (assembleAxis hi lo).toInt =
    if hi.toNat < 0x80 then (hi.toNat * 256 + lo.toNat : Int) else (hi.toNat * 256 + lo.toNat : Int) - 65536

/-- R169 to R172: the command words `readAxes` and `initialize` write to CMD, in their order; the mode code written is
masked with 0x03 and never 0b11. -/
def Obligations.ProcedureTraffic : Prop :=
  cmdWords Proc.readAxes.script =
    [0x03#8, 0x04#8, 0x07#8, 0x08#8, 0x05#8, 0x06#8].map (fun r => encode (.rdreg Config.devAddr r)) ∧
  cmdWords Proc.initSession.script =
    [0x0A#8, 0x0B#8, 0x0C#8, 0x09#8].map (fun r => encode (.rdreg Config.devAddr r)) ++
      [encode (.wrreg Config.devAddr 0x02#8 0x00#8)] ∧
  (∀ m : Mode, cmdWords (Proc.setMode m).script = [encode (.wrreg Config.devAddr 0x02#8 m.code)] ∧
    m.code ≠ 0b11#8 ∧ m.code &&& 0x03#8 = m.code)

/-- R173, R165: `computeHeading(x, y)`, with any number `n` of polls before HEADING completes, returns HDG(x, y), and HSECTOR
is its sector. -/
def Obligations.ComputeHeadingProcedure : Prop :=
  ∀ (s : State) (x y : Sample) (n : Nat), s.ControlInv → s.status.busy = false → s.host.fault = none →
    s.host.script = [] →
    ∃ t, runTurns ([.call (.computeHeading x y), .thread, .thread, .thread] ++ List.replicate n .thread ++
        [.ctl, .thread, .thread, .thread, .thread]) s = .next t ∧
      t.host.result = some (.angle (hdg x y)) ∧ t.regs.hsector = sectorOf (hdg x y) ∧
      t.host.script = [] ∧ t.status.busy = false ∧ t.turns = s.turns ∧
      ((∀ u ∈ s.turns, u.hostStatement = false) → t.ProgramEnded) ∧
      t.trace = s.trace

/-- R166, R165, R160: `read(DEV_ADDR, reg)` on a healthy bus, with any number `n` of polls before the transaction, returns the
target's byte. -/
def Obligations.ReadProcedureOnHealthyBus : Prop :=
  ∀ (s : State) (reg : Byte) (k : Nat → Nat) (n : Nat) (ans : Ack) (draw : Byte),
    s.ControlInv → s.status.busy = false → s.host.fault = none → s.host.script = [] → reg.toNat ≤ 0x0C →
    WaitsWithin k s.regs.timeout →
    ∃ t, runTurns ([.call (.read Config.devAddr reg), .thread, .thread] ++ List.replicate n .thread ++
        healthyRead k ans draw ++ [.thread, .thread, .thread, .thread]) s = .next t ∧
      t.host.result = some (.byte (s.target.read reg draw)) ∧
      t.host.script = [] ∧ t.status.busy = false ∧ t.turns = s.turns ∧
      ((∀ u ∈ s.turns, u.hostStatement = false) → t.ProgramEnded) ∧
      t.trace = s.trace ++ readEvents Config.devAddr reg (s.target.read reg draw)

/-- R166, R176: `read(dev, reg)` with detection on, of a device that answers its address with NACK, returns the error 2. -/
def Obligations.ReadProcedureReportsNack : Prop :=
  ∀ (s : State) (dev : DevAddr) (reg b : Byte) (ans : Ack), s.ControlInv → s.status.busy = false →
    s.host.fault = none → s.host.script = [] → s.regs.nacke = true →
    ∃ t, runTurns [.call (.read dev reg), .thread, .thread, .bus ans b, .bus .nack b, .bus ans b, .ctl,
        .thread, .thread] s = .next t ∧
      t.host.result = some (.err 2#4) ∧ t.host.script = [] ∧ t.status.busy = false ∧ t.turns = s.turns ∧
      ((∀ u ∈ s.turns, u.hostStatement = false) → t.ProgramEnded) ∧
      t.trace = s.trace ++ [.start, .addr dev .w .nack, .stop] ∧ t.status.errph = .addrWSent
end

