-- ==== Sys2Proof/Laws/State.lean ====
section
/-! SUPPORT. One lemma per part of State and operation: what the operation leaves in that part. -/

namespace Sys2Proof.Machine

variable (s : State)

@[simp] theorem emit_regs (e : BusEvent) : (emit e s).regs = s.regs := rfl
@[simp] theorem emit_status (e : BusEvent) : (emit e s).status = s.status := rfl
@[simp] theorem emit_latch (e : BusEvent) : (emit e s).latch = s.latch := rfl
@[simp] theorem emit_wait (e : BusEvent) : (emit e s).wait = s.wait := rfl
@[simp] theorem emit_trace (e : BusEvent) : (emit e s).trace = s.trace ++ [e] := rfl
@[simp] theorem emit_target (e : BusEvent) : (emit e s).target = s.target.observe (Config.freeByte s.draws) e := rfl
@[simp] theorem emit_host (e : BusEvent) : (emit e s).host = s.host := rfl
@[simp] theorem emit_turns (e : BusEvent) : (emit e s).turns = s.turns := rfl
@[simp] theorem emit_draws (e : BusEvent) : (emit e s).draws = s.draws + 1 := rfl

@[simp] theorem issue_regs (q : Req) : (issue q s).regs = s.regs := rfl
@[simp] theorem issue_status (q : Req) : (issue q s).status = s.status := rfl
@[simp] theorem issue_latch (q : Req) : (issue q s).latch = s.latch := rfl
@[simp] theorem issue_wait (q : Req) : (issue q s).wait = { s.wait with req := some q, reqst := .pending, wcnt := 0#32 } := rfl
@[simp] theorem issue_trace (q : Req) : (issue q s).trace = s.trace := rfl
@[simp] theorem issue_target (q : Req) : (issue q s).target = s.target := rfl
@[simp] theorem issue_host (q : Req) : (issue q s).host = s.host := rfl
@[simp] theorem issue_turns (q : Req) : (issue q s).turns = s.turns := rfl
@[simp] theorem issue_draws (q : Req) : (issue q s).draws = s.draws := rfl

@[simp] theorem clearReq_regs : (clearReq s).regs = s.regs := rfl
@[simp] theorem clearReq_status : (clearReq s).status = s.status := rfl
@[simp] theorem clearReq_latch : (clearReq s).latch = s.latch := rfl
@[simp] theorem clearReq_wait : (clearReq s).wait = { s.wait with req := none } := rfl
@[simp] theorem clearReq_trace : (clearReq s).trace = s.trace := rfl
@[simp] theorem clearReq_target : (clearReq s).target = s.target := rfl
@[simp] theorem clearReq_host : (clearReq s).host = s.host := rfl
@[simp] theorem clearReq_turns : (clearReq s).turns = s.turns := rfl
@[simp] theorem clearReq_draws : (clearReq s).draws = s.draws := rfl

@[simp] theorem setPhase_regs (p : Phase) : (setPhase p s).regs = s.regs := rfl
@[simp] theorem setPhase_status (p : Phase) : (setPhase p s).status = { s.status with phase := p } := rfl
@[simp] theorem setPhase_latch (p : Phase) : (setPhase p s).latch = s.latch := rfl
@[simp] theorem setPhase_wait (p : Phase) : (setPhase p s).wait = s.wait := rfl
@[simp] theorem setPhase_trace (p : Phase) : (setPhase p s).trace = s.trace := rfl
@[simp] theorem setPhase_target (p : Phase) : (setPhase p s).target = s.target := rfl
@[simp] theorem setPhase_host (p : Phase) : (setPhase p s).host = s.host := rfl
@[simp] theorem setPhase_turns (p : Phase) : (setPhase p s).turns = s.turns := rfl
@[simp] theorem setPhase_draws (p : Phase) : (setPhase p s).draws = s.draws := rfl

@[simp] theorem drop_regs : (drop s).regs = s.regs := rfl
@[simp] theorem drop_status : (drop s).status = { s.status with ovr := true } := rfl
@[simp] theorem drop_latch : (drop s).latch = s.latch := rfl
@[simp] theorem drop_wait : (drop s).wait = s.wait := rfl
@[simp] theorem drop_trace : (drop s).trace = s.trace := rfl
@[simp] theorem drop_target : (drop s).target = s.target := rfl
@[simp] theorem drop_host : (drop s).host = s.host := rfl
@[simp] theorem drop_turns : (drop s).turns = s.turns := rfl
@[simp] theorem drop_draws : (drop s).draws = s.draws := rfl

@[simp] theorem reject_regs : (reject s).regs = s.regs := rfl
@[simp] theorem reject_status : (reject s).status = { s.status with done := true, err := .illegalCmd, errph := .idle } := rfl
@[simp] theorem reject_latch : (reject s).latch = s.latch := rfl
@[simp] theorem reject_wait : (reject s).wait = s.wait := rfl
@[simp] theorem reject_trace : (reject s).trace = s.trace := rfl
@[simp] theorem reject_target : (reject s).target = s.target := rfl
@[simp] theorem reject_host : (reject s).host = s.host := rfl
@[simp] theorem reject_turns : (reject s).turns = s.turns := rfl
@[simp] theorem reject_draws : (reject s).draws = s.draws := rfl

@[simp] theorem accept_regs (op : Op) : (accept op s).regs = s.regs := rfl
@[simp] theorem accept_status (op : Op) : (accept op s).status = { s.status with busy := true, done := false, err := .none, errph := .idle } := rfl
@[simp] theorem accept_latch (op : Op) : (accept op s).latch = { s.latch with lop := some op, lnacke := s.regs.nacke, ltout := s.regs.timeout } := rfl
@[simp] theorem accept_wait (op : Op) : (accept op s).wait = { s.wait with abort := false } := rfl
@[simp] theorem accept_trace (op : Op) : (accept op s).trace = s.trace := rfl
@[simp] theorem accept_target (op : Op) : (accept op s).target = s.target := rfl
@[simp] theorem accept_host (op : Op) : (accept op s).host = s.host := rfl
@[simp] theorem accept_turns (op : Op) : (accept op s).turns = s.turns := rfl
@[simp] theorem accept_draws (op : Op) : (accept op s).draws = s.draws := rfl

@[simp] theorem latchBus_regs (dev : DevAddr) (reg data : Byte) : (latchBus dev reg data s).regs = s.regs := rfl
@[simp] theorem latchBus_status (dev : DevAddr) (reg data : Byte) : (latchBus dev reg data s).status = s.status := rfl
@[simp] theorem latchBus_latch (dev : DevAddr) (reg data : Byte) : (latchBus dev reg data s).latch = { s.latch with ldev := dev, lreg := reg, ldata := data } := rfl
@[simp] theorem latchBus_wait (dev : DevAddr) (reg data : Byte) : (latchBus dev reg data s).wait = s.wait := rfl
@[simp] theorem latchBus_trace (dev : DevAddr) (reg data : Byte) : (latchBus dev reg data s).trace = s.trace := rfl
@[simp] theorem latchBus_target (dev : DevAddr) (reg data : Byte) : (latchBus dev reg data s).target = s.target := rfl
@[simp] theorem latchBus_host (dev : DevAddr) (reg data : Byte) : (latchBus dev reg data s).host = s.host := rfl
@[simp] theorem latchBus_turns (dev : DevAddr) (reg data : Byte) : (latchBus dev reg data s).turns = s.turns := rfl
@[simp] theorem latchBus_draws (dev : DevAddr) (reg data : Byte) : (latchBus dev reg data s).draws = s.draws := rfl

@[simp] theorem recordError_regs (e : ErrCode) (ph : Phase) : (recordError e ph s).regs = s.regs := rfl
@[simp] theorem recordError_status (e : ErrCode) (ph : Phase) : (recordError e ph s).status = { s.status with err := e, errph := ph } := rfl
@[simp] theorem recordError_latch (e : ErrCode) (ph : Phase) : (recordError e ph s).latch = s.latch := rfl
@[simp] theorem recordError_wait (e : ErrCode) (ph : Phase) : (recordError e ph s).wait = s.wait := rfl
@[simp] theorem recordError_trace (e : ErrCode) (ph : Phase) : (recordError e ph s).trace = s.trace := rfl
@[simp] theorem recordError_target (e : ErrCode) (ph : Phase) : (recordError e ph s).target = s.target := rfl
@[simp] theorem recordError_host (e : ErrCode) (ph : Phase) : (recordError e ph s).host = s.host := rfl
@[simp] theorem recordError_turns (e : ErrCode) (ph : Phase) : (recordError e ph s).turns = s.turns := rfl
@[simp] theorem recordError_draws (e : ErrCode) (ph : Phase) : (recordError e ph s).draws = s.draws := rfl

@[simp] theorem finish_regs : (finish s).regs = s.regs := rfl
@[simp] theorem finish_status : (finish s).status = { s.status with busy := false, done := true } := rfl
@[simp] theorem finish_latch : (finish s).latch = { s.latch with lop := none } := rfl
@[simp] theorem finish_wait : (finish s).wait = { s.wait with abort := false } := rfl
@[simp] theorem finish_trace : (finish s).trace = s.trace := rfl
@[simp] theorem finish_target : (finish s).target = s.target := rfl
@[simp] theorem finish_host : (finish s).host = s.host := rfl
@[simp] theorem finish_turns : (finish s).turns = s.turns := rfl
@[simp] theorem finish_draws : (finish s).draws = s.draws := rfl

@[simp] theorem goOn_regs (rest : List HostOp) : (goOn rest s).regs = s.regs := rfl
@[simp] theorem goOn_status (rest : List HostOp) : (goOn rest s).status = s.status := rfl
@[simp] theorem goOn_latch (rest : List HostOp) : (goOn rest s).latch = s.latch := rfl
@[simp] theorem goOn_wait (rest : List HostOp) : (goOn rest s).wait = s.wait := rfl
@[simp] theorem goOn_trace (rest : List HostOp) : (goOn rest s).trace = s.trace := rfl
@[simp] theorem goOn_target (rest : List HostOp) : (goOn rest s).target = s.target := rfl
@[simp] theorem goOn_host (rest : List HostOp) : (goOn rest s).host = { s.host with script := rest } := rfl
@[simp] theorem goOn_turns (rest : List HostOp) : (goOn rest s).turns = s.turns := rfl
@[simp] theorem goOn_draws (rest : List HostOp) : (goOn rest s).draws = s.draws := rfl

@[simp] theorem returnWith_regs (r : HostResult) : (returnWith r s).regs = s.regs := rfl
@[simp] theorem returnWith_status (r : HostResult) : (returnWith r s).status = s.status := rfl
@[simp] theorem returnWith_latch (r : HostResult) : (returnWith r s).latch = s.latch := rfl
@[simp] theorem returnWith_wait (r : HostResult) : (returnWith r s).wait = s.wait := rfl
@[simp] theorem returnWith_trace (r : HostResult) : (returnWith r s).trace = s.trace := rfl
@[simp] theorem returnWith_target (r : HostResult) : (returnWith r s).target = s.target := rfl
@[simp] theorem returnWith_host (r : HostResult) : (returnWith r s).host = { s.host with script := [], result := some r } := rfl
@[simp] theorem returnWith_turns (r : HostResult) : (returnWith r s).turns = s.turns := rfl
@[simp] theorem returnWith_draws (r : HostResult) : (returnWith r s).draws = s.draws := rfl

@[simp] theorem load_regs (off : BitVec 8) : (load off s).regs = s.regs := rfl
@[simp] theorem load_status (off : BitVec 8) : (load off s).status = s.status := rfl
@[simp] theorem load_latch (off : BitVec 8) : (load off s).latch = s.latch := rfl
@[simp] theorem load_wait (off : BitVec 8) : (load off s).wait = s.wait := rfl
@[simp] theorem load_trace (off : BitVec 8) : (load off s).trace = s.trace := rfl
@[simp] theorem load_target (off : BitVec 8) : (load off s).target = s.target := rfl
@[simp] theorem load_host (off : BitVec 8) : (load off s).host = { s.host with rdata := readOff s off } := rfl
@[simp] theorem load_turns (off : BitVec 8) : (load off s).turns = s.turns := rfl
@[simp] theorem load_draws (off : BitVec 8) : (load off s).draws = s.draws := rfl

@[simp] theorem refuse_regs (a : Access) : (refuse a s).regs = s.regs := rfl
@[simp] theorem refuse_status (a : Access) : (refuse a s).status = s.status := rfl
@[simp] theorem refuse_latch (a : Access) : (refuse a s).latch = s.latch := rfl
@[simp] theorem refuse_wait (a : Access) : (refuse a s).wait = s.wait := rfl
@[simp] theorem refuse_trace (a : Access) : (refuse a s).trace = s.trace := rfl
@[simp] theorem refuse_target (a : Access) : (refuse a s).target = s.target := rfl
@[simp] theorem refuse_host (a : Access) : (refuse a s).host = { s.host with fault := some a } := rfl
@[simp] theorem refuse_turns (a : Access) : (refuse a s).turns = s.turns := rfl
@[simp] theorem refuse_draws (a : Access) : (refuse a s).draws = s.draws := rfl

@[simp] theorem nackStall_regs : (nackStall s).regs = s.regs := rfl
@[simp] theorem nackStall_status : (nackStall s).status = s.status := rfl
@[simp] theorem nackStall_latch : (nackStall s).latch = s.latch := rfl
@[simp] theorem nackStall_wait : (nackStall s).wait = { s.wait with reqst := .stalled } := rfl
@[simp] theorem nackStall_trace : (nackStall s).trace = s.trace := rfl
@[simp] theorem nackStall_target : (nackStall s).target = s.target := rfl
@[simp] theorem nackStall_host : (nackStall s).host = s.host := rfl
@[simp] theorem nackStall_turns : (nackStall s).turns = s.turns := rfl
@[simp] theorem nackStall_draws : (nackStall s).draws = s.draws := rfl

end Sys2Proof.Machine
end

