-- ==== Sys2Proof/Laws/Ops.lean ====
section
/-! SUPPORT. What the shared operations can do, said once: the trace, the release of the bus, errors, a timeout, a wait
cycle, a BUS completion and a CTL step. -/

namespace Sys2Proof.Machine

variable (s : State)

theorem owned_append (tr : List BusEvent) (e : BusEvent) : owned (tr ++ [e]) = e.owns (owned tr) := by
  simp [owned, List.foldl_append]

theorem scanTrace_append (tr : List BusEvent) (e : BusEvent) :
    scanTrace (tr ++ [e]) = (scanTrace tr).bind (fun q => q.after e) := by
  simp [scanTrace, List.foldl_append]

/-! `release`: REL where the bus was owned. -/

@[simp] theorem release_regs : (release s).regs = s.regs := by unfold release; split <;> rfl
@[simp] theorem release_status : (release s).status = s.status := by unfold release; split <;> rfl
@[simp] theorem release_latch : (release s).latch = s.latch := by unfold release; split <;> rfl
@[simp] theorem release_wait : (release s).wait = s.wait := by unfold release; split <;> rfl
@[simp] theorem release_host : (release s).host = s.host := by unfold release; split <;> rfl
@[simp] theorem release_turns : (release s).turns = s.turns := by unfold release; split <;> rfl

theorem release_trace :
    (release s).trace = s.trace ++ (if owned s.trace then [BusEvent.rel] else []) := by
  unfold release; split <;> simp_all

theorem release_target :
    (release s).target = if owned s.trace then s.target.onEnd else s.target := by
  unfold release; split <;> simp_all [Target.observe]

/-- R43, R200: after a release the bus is not owned. -/
@[simp] theorem owned_release : owned (release s).trace = false := by
  unfold release
  split
  · simp [owned_append, BusEvent.owns]
  · simp_all

/-! `raise`: the first error wins (R181). -/

variable (e : ErrCode) (ph : Phase)

@[simp] theorem raise_regs : (raise e ph s).regs = s.regs := by unfold raise; split <;> rfl
@[simp] theorem raise_latch : (raise e ph s).latch = s.latch := by unfold raise; split <;> rfl
@[simp] theorem raise_wait : (raise e ph s).wait = s.wait := by unfold raise; split <;> rfl
@[simp] theorem raise_trace : (raise e ph s).trace = s.trace := by unfold raise; split <;> rfl
@[simp] theorem raise_target : (raise e ph s).target = s.target := by unfold raise; split <;> rfl
@[simp] theorem raise_host : (raise e ph s).host = s.host := by unfold raise; split <;> rfl
@[simp] theorem raise_turns : (raise e ph s).turns = s.turns := by unfold raise; split <;> rfl

theorem raise_status :
    (raise e ph s).status =
      if s.status.err = .none then { s.status with err := e, errph := ph } else s.status := by
  unfold raise; split <;> rfl

/-! `timeout` (R114). -/

variable (q : Req)

@[simp] theorem timeout_regs : (timeout q s).regs = s.regs := by simp [timeout]
@[simp] theorem timeout_host : (timeout q s).host = s.host := by simp [timeout]
@[simp] theorem timeout_turns : (timeout q s).turns = s.turns := by simp [timeout]
@[simp] theorem timeout_latch : (timeout q s).latch = { s.latch with lop := none } := by simp [timeout]
@[simp] theorem timeout_wait : (timeout q s).wait = { s.wait with req := none, abort := false } := by
  simp [timeout]

theorem timeout_status :
    (timeout q s).status =
      { busy := false, done := true, ovr := s.status.ovr, phase := .idle
        err := if s.status.err = .none then .busTimeout else s.status.err
        errph := if s.status.err = .none then q.phase else s.status.errph } := by
  simp only [timeout, finish_status, setPhase_status, clearReq_status, release_status, raise_status]
  split <;> rfl

theorem timeout_trace :
    (timeout q s).trace = s.trace ++ (if owned s.trace then [BusEvent.rel] else []) := by
  simp [timeout, release_trace]

theorem timeout_target :
    (timeout q s).target = if owned s.trace then s.target.onEnd else s.target := by
  simp [timeout, release_target]

@[simp] theorem owned_timeout : owned (timeout q s).trace = false := by
  simp [timeout]

/-- The value a wait cycle leaves in the counter (R41, R113). -/
def bump (n : Word) : Word := if n = 0xFFFFFFFF#32 then 0xFFFFFFFF#32 else n + 1#32

theorem bump_toNat (n : Word) : (bump n).toNat = min (n.toNat + 1) 0xFFFFFFFF := by
  unfold bump
  split
  · simp_all
  · have : n.toNat ≠ 0xFFFFFFFF := by
      intro h; apply_assumption; exact BitVec.eq_of_toNat_eq (by simpa using h)
    have := n.isLt
    rw [BitVec.toNat_add, Nat.mod_eq_of_lt] <;> simp <;> omega

/-- R113: everything one wait cycle can do. -/
theorem waitCycle_cases :
    (waitCycle q s = { s with wait := { s.wait with wcnt := bump s.wait.wcnt } } ∧
      (s.latch.ltout = 0#32 ∨ bump s.wait.wcnt < s.latch.ltout)) ∨
    (waitCycle q s = timeout q { s with wait := { s.wait with wcnt := bump s.wait.wcnt } } ∧
      s.latch.ltout ≠ 0#32 ∧ s.latch.ltout ≤ bump s.wait.wcnt) := by
  simp only [waitCycle]
  change (if _ then timeout q { s with wait := { s.wait with wcnt := bump s.wait.wcnt } }
    else { s with wait := { s.wait with wcnt := bump s.wait.wcnt } } : State) = _ ∧ _ ∨ _
  by_cases h : s.latch.ltout ≠ 0#32 ∧ s.latch.ltout ≤ bump s.wait.wcnt
  · right
    refine ⟨if_pos h, h⟩
  · left
    refine ⟨if_neg h, ?_⟩
    rw [not_and_or, not_not, BitVec.not_le] at h
    exact h

/-- R95: everything a BUS step can do. -/
theorem busStep_cases (ans : Ack) (b : Byte) :
    (busStep ans b s = s ∧ (s.wait.req = none ∨ s.wait.reqst = .stalled)) ∨
    ∃ q, s.wait.req = some q ∧ s.wait.reqst = .pending ∧
      ((q.answered = true ∧ ans = .nack ∧ s.latch.lnacke = true ∧
          busStep ans b s = nackAbort q (emit (q.event s.latch ans b) s)) ∨
        (q.answered = true ∧ ans = .nack ∧ s.latch.lnacke = false ∧
          busStep ans b s = nackStall (emit (q.event s.latch ans b) s)) ∨
        ((q.answered = false ∨ ans = .ack) ∧
          busStep ans b s = advance q b (emit (q.event s.latch ans b) s))) := by
  unfold busStep
  cases hq : s.wait.req with
  | none => simp
  | some q =>
    cases hr : s.wait.reqst with
    | stalled => simp
    | pending =>
      right
      refine ⟨q, rfl, rfl, ?_⟩
      cases ha : q.answered <;> cases ans <;> cases hl : s.latch.lnacke <;> simp [completeReq, ha, hl]

/-- The target's BUS step is a BUS step with the answer and the byte the target gives (R152, R155). -/
theorem targetStep_eq (ans : Ack) (draw : Byte) : ∃ ans' b', targetStep ans draw s = busStep ans' b' s := by
  unfold targetStep
  cases hq : s.wait.req with
  | none => exact ⟨ans, draw, by simp [busStep, hq]⟩
  | some q => exact ⟨_, _, rfl⟩

/-- R106, R109, R113, R135, R139: everything a CTL step can do. -/
theorem ctlStep_cases :
    (∃ q, s.wait.req = some q ∧ ctlStep s = waitCycle q s) ∨
    (s.wait.req = none ∧ s.status.phase = .stopSent ∧ ctlStep s = complete s) ∨
    (s.wait.req = none ∧ s.latch.lop = some .rd ∧ s.status.phase = .addrRSent ∧ ctlStep s = ackDisable s) ∨
    (s.wait.req = none ∧ s.latch.lop = some .hdg ∧ ctlStep s = completeHeading s) ∨
    (s.wait.req = none ∧ s.latch.lop = some .sec ∧ ctlStep s = completeSector s) ∨
    ctlStep s = s := by
  unfold ctlStep
  cases hq : s.wait.req with
  | some q => simp
  | none =>
    by_cases hp : s.status.phase = .stopSent
    · simp [hp]
    · cases hl : s.latch.lop with
      | none => simp [hp]
      | some op =>
        cases op with
        | rd => by_cases ha : s.status.phase = .addrRSent <;> simp [hp, ha]
        | _ => simp [hp]

end Sys2Proof.Machine
end

