-- ==== Sys2Proof/Laws/Agents.lean ====
section
/-! SUPPORT. What a turn, and so a step, can do to the machine. -/

namespace Sys2Proof.Machine

/-- R90, R92: a command is accepted or dropped; it never stops the machine. -/
theorem exec_eq (i : Instr) (s : State) : exec i s = .next (present (acceptOf i) s) := by
  cases i <;> rfl

/-- Everything a turn of the HOST can leave: its own variables apart, it stores an operand or configuration register,
clears OVR, or presents a word, which is dropped, rejected or accepted. -/
inductive HostEffect (s : State) : State → Prop where
  | quiet (h : HostSide) : HostEffect s { s with host := h }
  | store (h : HostSide) (r : Regs) (hr : r.rxdata = s.regs.rxdata ∧ r.hangleLo = s.regs.hangleLo ∧
      r.hangleHi = s.regs.hangleHi ∧ r.hsector = s.regs.hsector) : HostEffect s { s with regs := r, host := h }
  | clearOvr (h : HostSide) : HostEffect s { s with status := { s.status with ovr := false }, host := h }
  | dropped (h : HostSide) (hb : s.status.busy = true) : HostEffect s { drop s with host := h }
  | rejected (h : HostSide) (hb : s.status.busy = false) : HostEffect s { reject s with host := h }
  | accepted (h : HostSide) (i : Instr) (hb : s.status.busy = false) :
      HostEffect s { acceptOf i s with host := h }

theorem presentWord_next {w : Word} {s t : State} (h : presentWord w s = .next t) :
    (s.status.busy = true ∧ t = drop s) ∨ (s.status.busy = false ∧ t = reject s) ∨
      ∃ i, decode w = .cmd i ∧ s.status.busy = false ∧ t = acceptOf i s := by
  unfold presentWord at h
  cases hb : s.status.busy with
  | true => rw [hb, if_pos rfl] at h; injection h with h; exact .inl ⟨rfl, h.symm⟩
  | false =>
    rw [hb, if_neg (by simp)] at h
    cases hd : decode w with
    | illegal why => rw [hd] at h; injection h with h; exact .inr (.inl ⟨rfl, h.symm⟩)
    | cmd i =>
      rw [hd] at h
      have h := (exec_eq i s).symm.trans h
      injection h with h
      exact .inr (.inr ⟨i, rfl, rfl, by simp [← h, present, hb]⟩)

/-- An admitted store changes one register, or does what R30 or R90 says. -/
theorem writeOff_next {off : BitVec 8} {v : Word} {s t : State} (h : writeOff off v s = .next t)
    {s0 : State} {g : HostSide} (hs : s = { s0 with host := g }) : HostEffect s0 t := by
  subst hs
  unfold writeOff at h
  cases hr : Reg.ofOffset off with
  | none => rw [hr] at h; injection h with h; subst h; exact .quiet g
  | some r =>
    rw [hr] at h
    cases r with
    | ctrl => injection h with h; subst h; exact .store g _ ⟨rfl, rfl, rfl, rfl⟩
    | timeout => injection h with h; subst h; exact .store g _ ⟨rfl, rfl, rfl, rfl⟩
    | hxy => injection h with h; subst h; exact .store g _ ⟨rfl, rfl, rfl, rfl⟩
    | hainLo => injection h with h; subst h; exact .store g _ ⟨rfl, rfl, rfl, rfl⟩
    | hainHi => injection h with h; subst h; exact .store g _ ⟨rfl, rfl, rfl, rfl⟩
    | rxdata => injection h with h; subst h; exact .quiet g
    | hangleLo => injection h with h; subst h; exact .quiet g
    | hangleHi => injection h with h; subst h; exact .quiet g
    | hsector => injection h with h; subst h; exact .quiet g
    | status =>
      injection h with h
      subst h
      unfold writeStatus
      split
      · exact .clearOvr g
      · exact .quiet g
    | cmd =>
      rcases presentWord_next h with ⟨hb, rfl⟩ | ⟨hb, rfl⟩ | ⟨i, -, hb, rfl⟩
      · exact .dropped g hb
      · exact .rejected g hb
      · have : acceptOf i { s0 with host := g } = { acceptOf i s0 with host := g } := by cases i <;> rfl
        rw [this]
        exact .accepted g i hb

theorem access_next {a : Access} {s t : State} (h : access a s = .next t) {s0 : State} {g : HostSide}
    (hs : s = { s0 with host := g }) : HostEffect s0 t := by
  unfold access at h
  split at h
  · cases a with
    | read off n => injection h with h; subst h; subst hs; exact .quiet _
    | write off n v => exact writeOff_next h hs
  · injection h with h; subst h; subst hs; exact .quiet _

theorem runOp_next {op : HostOp} {rest : List HostOp} {s t : State} (h : runOp op rest s = .next t) :
    HostEffect s t := by
  cases op with
  | write off v => exact access_next h rfl
  | writeXY => exact access_next h rfl
  | waitIdle =>
    injection h with h; subst h
    split <;> exact .quiet _
  | waitDone =>
    injection h with h; subst h
    split <;> exact .quiet _
  | checkErr =>
    injection h with h; subst h
    split <;> exact .quiet _
  | readByte => injection h with h; subst h; exact .quiet _
  | assemble => injection h with h; subst h; exact .quiet _
  | readAngleHi => injection h with h; subst h; exact .quiet _
  | readAngleLo => injection h with h; subst h; exact .quiet _
  | readSector => injection h with h; subst h; exact .quiet _
  | ret r => injection h with h; subst h; exact .quiet _

theorem threadStep_next {s t : State} (h : threadStep s = .next t) : HostEffect s t := by
  unfold threadStep at h
  split at h
  · injection h with h; subst h; exact .quiet s.host
  · exact runOp_next h

/-- The turns of the HOST agent. -/
def Turn.isHost : Turn → Bool
  | .host _ | .call _ | .thread => true
  | .ctl | .bus _ _ | .target _ _ | .reset => false

/-- R57: everything one turn can do. -/
theorem turn_cases {t : Turn} {s s' : State} (h : turn t s = .next s') :
    (t.isHost = true ∧ s.host.fault = none ∧ HostEffect s s') ∨
    (t = .ctl ∧ s' = ctlStep s) ∨
    (∃ ans b, (t = .bus ans b ∨ ∃ a d, t = .target a d) ∧ s' = busStep ans b s) ∨
    (t = .reset ∧ s' = resetStep s) := by
  have host : ∀ act : State → Host.Outcome State Fault Refusal, hostTurn act s = .next s' →
      s.host.fault = none ∧ act s = .next s' := by
    intro act ha
    unfold hostTurn at ha
    split at ha
    · cases ha
    · exact ⟨‹_›, ha⟩
  cases t with
  | host a => exact .inl ⟨rfl, (host _ h).1, access_next (host _ h).2 (g := s.host) rfl⟩
  | call p =>
    obtain ⟨hf, ha⟩ := host (fun s => .next (callProc p s)) h
    refine .inl ⟨rfl, hf, ?_⟩
    injection ha with ha
    subst ha
    unfold callProc
    split
    · exact .quiet _
    · exact .quiet s.host
  | thread => exact .inl ⟨rfl, (host _ h).1, threadStep_next (host _ h).2⟩
  | ctl => injection h with h; exact .inr (.inl ⟨rfl, h.symm⟩)
  | bus ans b => injection h with h; exact .inr (.inr (.inl ⟨ans, b, .inl rfl, h.symm⟩))
  | target ans d =>
    injection h with h
    obtain ⟨ans', b', hb⟩ := targetStep_eq s ans d
    exact .inr (.inr (.inl ⟨ans', b', .inr ⟨_, _, rfl⟩, by rw [← h, hb]⟩))
  | reset => injection h with h; exact .inr (.inr (.inr ⟨rfl, h.symm⟩))

/-! Taking a turn off the queue changes the queue and the count of free values alone. -/

@[simp] theorem popTurn_regs (s : State) : (popTurn s).regs = s.regs := by unfold popTurn; split <;> rfl
@[simp] theorem popTurn_status (s : State) : (popTurn s).status = s.status := by unfold popTurn; split <;> rfl
@[simp] theorem popTurn_latch (s : State) : (popTurn s).latch = s.latch := by unfold popTurn; split <;> rfl
@[simp] theorem popTurn_wait (s : State) : (popTurn s).wait = s.wait := by unfold popTurn; split <;> rfl
@[simp] theorem popTurn_trace (s : State) : (popTurn s).trace = s.trace := by unfold popTurn; split <;> rfl
@[simp] theorem popTurn_target (s : State) : (popTurn s).target = s.target := by unfold popTurn; split <;> rfl
@[simp] theorem popTurn_host (s : State) : (popTurn s).host = s.host := by unfold popTurn; split <;> rfl

/-- A step is the next turn, taken in the state without it. -/
theorem step_eq (s : State) : step s = turn (nextTurn s) (popTurn s) := rfl

/-- A property that depends neither on the queue nor on the count of free values, and that every turn keeps, is kept by every
step. -/
theorem step_keeps {P : State → Prop} (hpop : ∀ s, P s → P (popTurn s))
    (hturn : ∀ t s s', turn t s = .next s' → P s → P s') {s s' : State} (h : step s = .next s') (hs : P s) :
    P s' :=
  hturn _ _ _ h (hpop s hs)

end Sys2Proof.Machine
end

