-- ==== Sys2Proof/Laws/Float.lean ====
section
/-! SUPPORT. The parts of a binary64 pattern, its magnitude in grid units, and the bound on a rounded magnitude. -/

namespace Sys2Proof.F64

theorem mag_lt (x : F64) : mag x < 2 ^ 63 := Nat.mod_lt _ (by norm_num)

theorem roundMag_le (n d : Nat) : roundMag n d ≤ infMag := Nat.min_le_right _ _

theorem infMag_lt : infMag < 2 ^ 63 := by decide

theorem toNat_pack {m : Nat} (h : m < 2 ^ 63) (sign : Bool) :
    (pack sign m).toNat = m + if sign then 2 ^ 63 else 0 := by
  unfold pack
  rw [BitVec.toNat_ofNat, Nat.mod_eq_of_lt]
  cases sign <;> simp <;> omega

/-- A pattern's magnitude bits are the ones it was packed from. -/
theorem mag_pack {m : Nat} (h : m < 2 ^ 63) (sign : Bool) : mag (pack sign m) = m := by
  unfold mag
  rw [toNat_pack h]
  cases sign <;> simp <;> omega

/-- A pattern's sign is the one it was packed from. -/
theorem neg_pack {m : Nat} (h : m < 2 ^ 63) (sign : Bool) : neg (pack sign m) = sign := by
  unfold neg
  rw [BitVec.msb_eq_decide, toNat_pack h]
  cases sign <;> simp <;> omega

theorem mag_negate (x : F64) : mag (negate x) = mag x := mag_pack (mag_lt x) _

theorem neg_negate (x : F64) : neg (negate x) = !neg x := neg_pack (mag_lt x) _

/-- A pattern is its sign and its magnitude bits. -/
theorem pack_neg_mag (x : F64) : pack (neg x) (mag x) = x := by
  apply BitVec.eq_of_toNat_eq
  rw [toNat_pack (mag_lt x)]
  unfold neg mag
  rw [BitVec.msb_eq_decide]
  have := x.isLt
  by_cases h : 2 ^ 63 ≤ x.toNat
  · rw [if_pos (by simpa using h)]; omega
  · rw [if_neg (by simpa using h)]; omega

/-- Larger magnitude bits, larger magnitude. -/
theorem gridOfMag_mono {m m' : Nat} (h : m ≤ m') : gridOfMag m ≤ gridOfMag m' := by
  have e := Nat.div_add_mod m (2 ^ 52)
  have e' := Nat.div_add_mod m' (2 ^ 52)
  have l := Nat.mod_lt m (show 0 < 2 ^ 52 by norm_num)
  have l' := Nat.mod_lt m' (show 0 < 2 ^ 52 by norm_num)
  have q := Nat.div_le_div_right (c := 2 ^ 52) h
  unfold gridOfMag
  rcases q.lt_or_eq with lt | eq
  · split_ifs with a b b
    · omega
    · have := Nat.le_mul_of_pos_right (2 ^ 52 + m' % 2 ^ 52) (Nat.two_pow_pos (m' / 2 ^ 52 - 1))
      omega
    · omega
    · calc (2 ^ 52 + m % 2 ^ 52) * 2 ^ (m / 2 ^ 52 - 1) ≤ 2 ^ 53 * 2 ^ (m / 2 ^ 52 - 1) := by gcongr; omega
        _ = 2 ^ 52 * 2 ^ (m / 2 ^ 52 - 1 + 1) := by ring
        _ ≤ (2 ^ 52 + m' % 2 ^ 52) * 2 ^ (m' / 2 ^ 52 - 1) := by gcongr <;> omega
  · rw [← eq]
    split_ifs <;> [exact h; (gcongr; omega)]

/-- A value that is not zero has a positive magnitude. -/
theorem grid_pos {x : F64} (h : mag x ≠ 0) : 0 < grid x := by
  unfold grid gridOfMag
  split_ifs
  · omega
  · exact Nat.mul_pos (by omega) (Nat.two_pow_pos _)

end Sys2Proof.F64
end

