-- ==== Sys2Proof/Laws/Lambert.lean ====
section
/-! SUPPORT. Lambert's theorem for the arctangent unit (R131): the arctangent of a positive fraction is irrational, so it
is never halfway between two binary64 values. -/

namespace Sys2Proof

/-- The remainders of Lambert's continued fraction of the tangent. -/
noncomputable def lambert (x : ℝ) : ℕ → ℝ
  | 0 => Real.sin x
  | 1 => Real.sin x - x * Real.cos x
  | n + 2 => (2 * n + 3) * lambert x (n + 1) - x ^ 2 * lambert x n

theorem lambert_zero : ∀ n, lambert 0 n = 0
  | 0 => by simp [lambert]
  | 1 => by simp [lambert]
  | n + 2 => by simp [lambert, lambert_zero (n + 1)]

theorem hasDerivAt_lambert (x : ℝ) : ∀ n, HasDerivAt (lambert · (n + 1)) (x * lambert x n) x
  | 0 => by
    have h := (Real.hasDerivAt_sin x).sub ((hasDerivAt_id x).mul (Real.hasDerivAt_cos x))
    convert! h using 1
    simp [lambert]
  | 1 => by
    have h := ((hasDerivAt_lambert x 0).const_mul 3).sub ((hasDerivAt_pow 2 x).mul (Real.hasDerivAt_sin x))
    convert! h using 1
    · ext y; simp [lambert]
    · simp [lambert]; ring
  | n + 2 => by
    have h := ((hasDerivAt_lambert x (n + 1)).const_mul (2 * (n + 1 : ℕ) + 3 : ℝ)).sub
      ((hasDerivAt_pow 2 x).mul (hasDerivAt_lambert x n))
    convert! h using 1
    simp [lambert]; ring

theorem continuous_lambert (n : ℕ) : Continuous (lambert · (n + 1)) :=
  continuous_iff_continuousAt.2 fun x => (hasDerivAt_lambert x n).continuousAt

/-- Below π the remainders are positive and shrink faster than any power. -/
theorem lambert_bounds : ∀ (n : ℕ) (x : ℝ), 0 < x → x < Real.pi →
    0 < lambert x n ∧ lambert x n ≤ x ^ (2 * n) / n.factorial
  | 0, x, h0, h1 => ⟨Real.sin_pos_of_pos_of_lt_pi h0 h1, by simpa [lambert] using Real.sin_le_one x⟩
  | n + 1, x, h0, h1 => by
    have hd (y : ℝ) : deriv (lambert · (n + 1)) y = y * lambert y n := (hasDerivAt_lambert y n).deriv
    have up : StrictMonoOn (lambert · (n + 1)) (Set.Icc 0 x) :=
      strictMonoOn_of_deriv_pos (convex_Icc 0 x) (continuous_lambert n).continuousOn fun y hy => by
        rw [interior_Icc] at hy
        rw [hd]
        exact mul_pos hy.1 (lambert_bounds n y hy.1 (hy.2.trans h1)).1
    have hg (y : ℝ) : HasDerivAt (fun z => z ^ (2 * (n + 1)) / (n + 1).factorial - lambert z (n + 1))
        ((2 * (n + 1) : ℕ) * y ^ (2 * (n + 1) - 1) / (n + 1).factorial - y * lambert y n) y :=
      ((hasDerivAt_pow (2 * (n + 1)) y).div_const _).sub (hasDerivAt_lambert y n)
    have down : MonotoneOn (fun z => z ^ (2 * (n + 1)) / (n + 1).factorial - lambert z (n + 1)) (Set.Icc 0 x) :=
      monotoneOn_of_deriv_nonneg (convex_Icc 0 x) (fun y _ => (hg y).continuousAt.continuousWithinAt)
        (fun y _ => (hg y).differentiableAt.differentiableWithinAt) fun y hy => by
        rw [interior_Icc] at hy
        rw [(hg y).deriv]
        have b := (lambert_bounds n y hy.1 (hy.2.trans h1)).2
        have e : ((2 * (n + 1) : ℕ) : ℝ) * y ^ (2 * (n + 1) - 1) / (n + 1).factorial =
            2 * (y * (y ^ (2 * n) / n.factorial)) := by
          have : (n.factorial : ℝ) ≠ 0 := by positivity
          rw [Nat.factorial_succ, show 2 * (n + 1) - 1 = 2 * n + 1 by omega]
          push_cast
          field_simp
          ring
        have m := mul_le_mul_of_nonneg_left b hy.1.le
        have p : 0 < y * (y ^ (2 * n) / n.factorial) := by have := hy.1; positivity
        rw [e]; linarith
    have l := Set.left_mem_Icc.2 h0.le
    have r := Set.right_mem_Icc.2 h0.le
    refine ⟨by simpa [lambert_zero] using up l r h0, ?_⟩
    simpa [lambert_zero] using down l r h0.le

/-- At a fraction `a / b` the remainders, times `b^n`, are integer combinations of the sine and the cosine. -/
theorem lambert_fraction (a b : ℤ) (hb : (b : ℝ) ≠ 0) : ∀ n : ℕ, ∃ s c : ℤ,
    (b : ℝ) ^ n * lambert (a / b) n = s * Real.sin (a / b) + c * Real.cos (a / b) := by
  have two : ∀ n : ℕ, (∃ s c : ℤ, (b : ℝ) ^ n * lambert (a / b) n = s * Real.sin (a / b) + c * Real.cos (a / b)) ∧
      ∃ s c : ℤ, (b : ℝ) ^ (n + 1) * lambert (a / b) (n + 1) = s * Real.sin (a / b) + c * Real.cos (a / b) := by
    intro n
    induction n with
    | zero =>
      refine ⟨⟨1, 0, by simp [lambert]⟩, b, -a, ?_⟩
      simp only [lambert]
      push_cast
      field_simp
      ring
    | succ n ih =>
      obtain ⟨⟨s, c, h⟩, s', c', h'⟩ := ih
      refine ⟨⟨s', c', h'⟩, (2 * n + 3) * b * s' - a ^ 2 * s, (2 * n + 3) * b * c' - a ^ 2 * c, ?_⟩
      have e : (b : ℝ) ^ (n + 2) * lambert (a / b) (n + 2) =
          (2 * n + 3) * b * (b ^ (n + 1) * lambert (a / b) (n + 1)) - a ^ 2 * (b ^ n * lambert (a / b) n) := by
        simp only [lambert]
        field_simp
        ring
      rw [e, h, h']
      push_cast
      ring
  exact fun n => (two n).1

/-- The tangent of a positive fraction below π/2 is no fraction. -/
theorem irrational_tan {x : ℚ} (h0 : 0 < (x : ℝ)) (h1 : (x : ℝ) < Real.pi / 2) (y : ℚ) : Real.tan x ≠ y := by
  intro hy
  have hcos : 0 < Real.cos x := Real.cos_pos_of_mem_Ioo ⟨by linarith, h1⟩
  have hd : 0 < (y.den : ℝ) := by exact_mod_cast y.pos
  have hb : 0 < (x.den : ℝ) := by exact_mod_cast x.pos
  have hx : (x : ℝ) = (x.num : ℝ) / ((x.den : ℤ) : ℝ) := by
    push_cast; exact_mod_cast (Rat.num_div_den x).symm
  have hs : Real.sin x * y.den = y.num * Real.cos x := by
    rw [← Real.tan_mul_cos hcos.ne', hy]
    have : (y : ℝ) * y.den = y.num := by exact_mod_cast Rat.mul_den_eq_num y
    linear_combination Real.cos x * this
  obtain ⟨n, hn⟩ := ((FloorSemiring.tendsto_pow_div_factorial_atTop ((x.den : ℝ) * x ^ 2)).eventually_lt_const
    (show (0 : ℝ) < Real.cos x / y.den by positivity)).exists
  obtain ⟨s, c, h⟩ := lambert_fraction x.num x.den (by exact_mod_cast hb.ne') n
  rw [← hx] at h
  push_cast at h
  have bd := lambert_bounds n x h0 (by linarith [Real.pi_pos])
  have e : (x.den : ℝ) ^ n * lambert x n * y.den = ((s * y.num + c * y.den : ℤ) : ℝ) * Real.cos x := by
    rw [h]; push_cast; linear_combination (s : ℝ) * hs
  have pos : (0 : ℝ) < ((s * y.num + c * y.den : ℤ) : ℝ) * Real.cos x := by
    rw [← e]; have := bd.1; positivity
  have le : (x.den : ℝ) ^ n * lambert x n ≤ ((x.den : ℝ) * x ^ 2) ^ n / n.factorial := by
    rw [mul_pow, ← pow_mul, mul_div_assoc]
    exact mul_le_mul_of_nonneg_left bd.2 (by positivity)
  have lt : ((s * y.num + c * y.den : ℤ) : ℝ) * Real.cos x < 1 * Real.cos x := by
    rw [← e, one_mul]
    exact (mul_lt_mul_of_pos_right (le.trans_lt hn) hd).trans_eq (div_mul_cancel₀ _ hd.ne')
  have a1 : (0 : ℝ) < ((s * y.num + c * y.den : ℤ) : ℝ) := pos_of_mul_pos_left pos hcos.le
  have a2 := lt_of_mul_lt_mul_right lt hcos.le
  have a3 : 0 < s * y.num + c * y.den := by exact_mod_cast a1
  have a4 : s * y.num + c * y.den < 1 := by exact_mod_cast a2
  omega

/-- The arctangent of a positive fraction is no fraction. -/
theorem irrational_arctan {y : ℚ} (h : 0 < (y : ℝ)) : Irrational (Real.arctan y) := by
  rintro ⟨x, hx⟩
  exact irrational_tan (by rw [hx]; exact Real.arctan_pos.2 h) (by rw [hx]; exact Real.arctan_lt_pi_div_two _) y
    (by rw [hx]; exact Real.tan_arctan _)

end Sys2Proof
end

