-- ==== Sys2Proof/Laws/Rounding.lean ====
section
/-! SUPPORT. Rounding to binary64 (R11): it is monotone, and constant around an irrational number. -/

namespace Sys2Proof.F64

/-- Rounding gives the natural number that is nearer than a half. -/
theorem divNearestEven_eq {n d m : Nat} (h1 : 2 * (m * d) < 2 * n + d) (h2 : 2 * n < 2 * (m * d) + d) :
    divNearestEven n d = m := by
  have hd : 0 < d := by omega
  have e := Nat.div_add_mod n d
  have l := Nat.mod_lt n hd
  set q := n / d
  set r := n % d
  have low : q ≤ m := by
    by_contra c
    have := Nat.mul_le_mul_left d (show m + 1 ≤ q by omega)
    nlinarith
  have up : m ≤ q + 1 := by
    by_contra c
    have := Nat.mul_le_mul_left d (show q + 2 ≤ m by omega)
    nlinarith
  have ed : divNearestEven n d = if 2 * r < d then q else if d < 2 * r then q + 1 else q + q % 2 := rfl
  rcases (show m = q ∨ m = q + 1 by omega) with rfl | rfl
  · rw [ed, if_pos (by nlinarith)]
  · rw [ed, if_neg (by nlinarith), if_pos (by nlinarith)]

/-- Rounding is monotone. -/
theorem divNearestEven_mono {n d n' d' : Nat} (hd : 0 < d) (hd' : 0 < d') (h : n * d' ≤ n' * d) :
    divNearestEven n d ≤ divNearestEven n' d' := by
  have q : n / d ≤ n' / d' := by
    rw [Nat.le_div_iff_mul_le hd']
    by_contra c
    have := Nat.div_mul_le_self n d
    nlinarith
  have e := Nat.div_add_mod n d
  have e' := Nat.div_add_mod n' d'
  unfold divNearestEven
  simp only
  set k := n / d
  set k' := n' / d'
  set r := n % d
  set r' := n' % d'
  rcases q.lt_or_eq with lt | eq
  · split_ifs <;> omega
  · rw [← eq] at e' ⊢
    have rr : r * d' ≤ r' * d := by nlinarith
    split_ifs with a1 a2 a3 a4 a5 <;> try omega
    all_goals exfalso; nlinarith

theorem divNearestEven_one (k : Nat) : divNearestEven k 1 = k := divNearestEven_eq (by omega) (by omega)

/-- A magnitude's significand, rounded: at most 2^53, and at least 2^52 where the unit is more than the grid's. -/
theorem significand_bounds {n d u : Nat} (hd : 0 < d) (hu : u = (n / d).log2 - 52) :
    divNearestEven n (d * 2 ^ u) ≤ 2 ^ 53 ∧ (0 < u → 2 ^ 52 ≤ divNearestEven n (d * 2 ^ u)) := by
  have D : 0 < d * 2 ^ u := by positivity
  constructor
  · have q : n / d < 2 ^ (u + 53) := Nat.lt_log2_self.trans_le (Nat.pow_le_pow_right (by norm_num) (by omega))
    rw [Nat.div_lt_iff_lt_mul hd] at q
    simpa only [divNearestEven_one] using
      divNearestEven_mono (n' := 2 ^ 53) D one_pos (by rw [pow_add] at q; nlinarith)
  · intro pos
    have q : 2 ^ (u + 52) ≤ n / d := by
      rw [show u + 52 = (n / d).log2 by omega]
      exact Nat.log2_self_le (by rintro z; rw [z] at hu; simp at hu; omega)
    rw [Nat.le_div_iff_mul_le hd] at q
    simpa only [divNearestEven_one] using
      divNearestEven_mono (n := 2 ^ 52) one_pos D (by rw [pow_add] at q; nlinarith)

theorem log2_mono {a b : Nat} (h : a ≤ b) : a.log2 ≤ b.log2 := by
  simpa only [Nat.log2_eq_log_two] using Nat.log_mono_right h

/-- R11: rounding to a binary64 magnitude is monotone. -/
theorem roundMag_mono {n d n' d' : Nat} (hd : 0 < d) (hd' : 0 < d') (h : n * d' ≤ n' * d) :
    roundMag n d ≤ roundMag n' d' := by
  have q : n / d ≤ n' / d' := by
    rw [Nat.le_div_iff_mul_le hd']
    by_contra c
    have := Nat.div_mul_le_self n d
    nlinarith
  obtain ⟨u, hu⟩ : ∃ u, u = (n / d).log2 - 52 := ⟨_, rfl⟩
  obtain ⟨u', hu'⟩ : ∃ u', u' = (n' / d').log2 - 52 := ⟨_, rfl⟩
  have uu : u ≤ u' := by rw [hu, hu']; exact Nat.sub_le_sub_right (log2_mono q) 52
  simp only [roundMag, ← hu, ← hu']
  refine min_le_min_right _ ?_
  rcases uu.lt_or_eq with lt | rfl
  · have a := (significand_bounds hd hu).1
    have b := (significand_bounds hd' hu').2 (by omega)
    omega
  · have := divNearestEven_mono (n := n) (d := d * 2 ^ u) (n' := n') (d' := d' * 2 ^ u) (by positivity) (by positivity)
      (by nlinarith [Nat.mul_le_mul_right (2 ^ u) h])
    omega

/-- All fractions close enough to an irrational number round to one magnitude. -/
theorem roundMag_locally_const {z : ℝ} (h0 : 0 < z) (hz : Irrational z) :
    ∃ m, ∀ᶠ y in nhds z, ∀ n d : Nat, 0 < d → (n / d : ℝ) = y → roundMag n d = m := by
  obtain ⟨u, hu⟩ : ∃ u, u = ⌊z⌋₊.log2 - 52 := ⟨_, rfl⟩
  have P : (0 : ℝ) < 2 ^ u := by positivity
  obtain ⟨k, hk⟩ : ∃ k, k = ⌊z / 2 ^ u + 1 / 2⌋₊ := ⟨_, rfl⟩
  have k1 : (k : ℝ) ≤ z / 2 ^ u + 1 / 2 := by rw [hk]; exact Nat.floor_le (by positivity)
  have k2 : z / 2 ^ u + 1 / 2 < k + 1 := by rw [hk]; exact Nat.lt_floor_add_one _
  have ne : (⌊z⌋₊ : ℝ) ≠ z := fun e => hz ⟨⌊z⌋₊, by exact_mod_cast e⟩
  have nk : ((k : ℝ) - 1 / 2) * 2 ^ u ≠ z := fun e => hz ⟨((k : ℚ) - 1 / 2) * 2 ^ u, by push_cast; exact e⟩
  have a1 := (Nat.floor_le h0.le).lt_of_ne ne
  have a2 := Nat.lt_floor_add_one z
  have a3 : ((k : ℝ) - 1 / 2) * 2 ^ u < z := lt_of_le_of_ne (by rw [← le_div_iff₀ P]; linarith) nk
  have a4 : z < ((k : ℝ) + 1 / 2) * 2 ^ u := by rw [← div_lt_iff₀ P]; linarith
  refine ⟨min (u * 2 ^ 52 + k) infMag, ?_⟩
  filter_upwards [Ioi_mem_nhds a1, Iio_mem_nhds a2, Ioi_mem_nhds a3, Iio_mem_nhds a4] with y b1 b2 b3 b4 n d hd e
  have d0 : (0 : ℝ) < d := by exact_mod_cast hd
  have q : n / d = ⌊z⌋₊ := by
    rw [← Nat.floor_div_eq_div (K := ℝ), e]
    exact (Nat.floor_eq_iff (by rw [← e]; positivity)).2 ⟨le_of_lt b1, b2⟩
  have r : divNearestEven n (d * 2 ^ u) = k := by
    simp only [Set.mem_Ioi, Set.mem_Iio, ← e, lt_div_iff₀ d0, div_lt_iff₀ d0] at b3 b4
    apply divNearestEven_eq
    · have : (2 * (k * (d * 2 ^ u)) : ℝ) < 2 * n + d * 2 ^ u := by linarith
      exact_mod_cast this
    · have : (2 * n : ℝ) < 2 * (k * (d * 2 ^ u)) + d * 2 ^ u := by linarith
      exact_mod_cast this
  simp only [roundMag, q, ← hu, r]

end Sys2Proof.F64
end

