-- ==== Sys2Proof/Laws/Arctan.lean ====
section
/-! SUPPORT. The arctangent (R131): its bounds enclose the real arctangent and close in on it, so the search for a precision
answers at every input, and what it answers is the correctly rounded value (P5); it is monotone (P3). -/

namespace Sys2Proof.F64

/-- The bounds enclose `x` at precision `p`, and neither of them is further off than `e` units. -/
structure Bounds.Encloses (p : Nat) (b : Bounds) (x e : ℝ) : Prop where
  lo_le : (b.lo : ℝ) ≤ x * 2 ^ p
  le_hi : x * 2 ^ p ≤ b.hi
  le_lo_add : x * 2 ^ p ≤ b.lo + e
  hi_le_add : (b.hi : ℝ) ≤ x * 2 ^ p + e

/-- A natural quotient is the real one rounded down. -/
theorem natDiv_bounds (a : Nat) {k : Nat} (hk : 0 < k) :
    ((a / k : Nat) : ℝ) ≤ a / k ∧ (a / k : ℝ) ≤ ((a / k : Nat) : ℝ) + 1 := by
  refine ⟨Nat.cast_div_le, ?_⟩
  rw [div_le_iff₀ (by exact_mod_cast hk)]
  exact_mod_cast (show a ≤ (a / k + 1) * k by rw [mul_comm]; exact (Nat.lt_mul_div_succ a hk).le)

/-- A difference of naturals, cut off at 0, is at least the real one, and keeps any bound that is not negative. -/
theorem natSub_bounds (a b : Nat) : (a : ℝ) - b ≤ ((a - b : Nat) : ℝ) ∧
    ∀ c : ℝ, 0 ≤ c → (a : ℝ) - b ≤ c → ((a - b : Nat) : ℝ) ≤ c := by
  rcases le_total b a with h | h
  · rw [Nat.cast_sub h]; exact ⟨le_rfl, fun _ _ h => h⟩
  · rw [Nat.sub_eq_zero_of_le h]
    have : (a : ℝ) ≤ b := by exact_mod_cast h
    exact ⟨by simpa using this, fun c hc _ => by simpa using hc⟩

namespace Bounds

variable {p : Nat} {a b : Bounds} {x y e f : ℝ}

theorem Encloses.mono (h : a.Encloses p x e) (le : e ≤ f) : a.Encloses p x f :=
  ⟨h.lo_le, h.le_hi, by linarith [h.le_lo_add], by linarith [h.hi_le_add]⟩

theorem Encloses.add (ha : a.Encloses p x e) (hb : b.Encloses p y f) : (a.add b).Encloses p (x + y) (e + f) := by
  obtain ⟨a1, a2, a3, a4⟩ := ha
  obtain ⟨b1, b2, b3, b4⟩ := hb
  constructor <;> simp only [Bounds.add, Nat.cast_add] <;> linarith

theorem Encloses.sub (ha : a.Encloses p x e) (hb : b.Encloses p y f) (h : y ≤ x) :
    (a.sub b).Encloses p (x - y) (e + f) := by
  obtain ⟨a1, a2, a3, a4⟩ := ha
  obtain ⟨b1, b2, b3, b4⟩ := hb
  have pos : 0 ≤ (x - y) * 2 ^ p := mul_nonneg (by linarith) (by positivity)
  have lo := natSub_bounds a.lo b.hi
  have hi := natSub_bounds a.hi b.lo
  constructor <;> simp only [Bounds.sub]
  · exact lo.2 _ pos (by linarith)
  · linarith [hi.1]
  · linarith [lo.1]
  · exact hi.2 _ (by linarith) (by linarith)

theorem Encloses.divNat (ha : a.Encloses p x e) {k : Nat} (hk : 0 < k) (he : 0 ≤ e) :
    (a.divNat k).Encloses p (x / k) (e + 1) := by
  obtain ⟨a1, a2, a3, a4⟩ := ha
  have k1 : (1 : ℝ) ≤ k := by exact_mod_cast hk
  have lo := natDiv_bounds a.lo hk
  have hi := natDiv_bounds a.hi hk
  have ek : e / k ≤ e := div_le_self he k1
  have sw : x / k * 2 ^ p = x * 2 ^ p / k := by ring
  have d1 : (a.lo : ℝ) / k ≤ x * 2 ^ p / k := by gcongr
  have d2 : x * 2 ^ p / k ≤ (a.hi : ℝ) / k := by gcongr
  have d3 : x * 2 ^ p / k ≤ (a.lo : ℝ) / k + e / k := by rw [← add_div]; gcongr
  have d4 : (a.hi : ℝ) / k ≤ x * 2 ^ p / k + e / k := by rw [← add_div]; gcongr
  constructor <;> simp only [Bounds.divNat, sw] <;> push_cast <;> linarith

theorem Encloses.mul (ha : a.Encloses p x e) (hb : b.Encloses p y f) (hx : 0 ≤ x) (hy : 0 ≤ y) (he : 0 ≤ e) :
    (a.mul p b).Encloses p (x * y) (x * f + e * y + e * f / 2 ^ p + 1) := by
  obtain ⟨a1, a2, a3, a4⟩ := ha
  obtain ⟨b1, b2, b3, b4⟩ := hb
  have P : (0 : ℝ) < 2 ^ p := by positivity
  have lo := natDiv_bounds (a.lo * b.lo) (Nat.two_pow_pos p)
  have hi := natDiv_bounds (a.hi * b.hi) (Nat.two_pow_pos p)
  push_cast at lo hi
  have l0 : (0 : ℝ) ≤ a.lo := Nat.cast_nonneg _
  have l1 : (0 : ℝ) ≤ b.lo := Nat.cast_nonneg _
  have X : 0 ≤ x * 2 ^ p := by positivity
  have Y : 0 ≤ y * 2 ^ p := by positivity
  have sw : x * y * 2 ^ p = x * 2 ^ p * (y * 2 ^ p) / 2 ^ p := by field_simp
  have sl : x * f + e * y = (x * 2 ^ p * f + e * (y * 2 ^ p)) / 2 ^ p := by field_simp
  have f0 : 0 ≤ f := by linarith
  have d1 : (a.lo : ℝ) * b.lo / 2 ^ p ≤ x * y * 2 ^ p := by rw [sw]; gcongr
  have d2 : x * y * 2 ^ p ≤ (a.hi : ℝ) * b.hi / 2 ^ p := by rw [sw]; gcongr
  have d3 : x * y * 2 ^ p ≤ (a.lo : ℝ) * b.lo / 2 ^ p + (x * f + e * y) := by
    rw [sw, sl, ← add_div]; gcongr
    nlinarith [mul_le_mul_of_nonneg_left b3 X, mul_le_mul_of_nonneg_right a3 l1, mul_le_mul_of_nonneg_left b1 he]
  have d4 : (a.hi : ℝ) * b.hi / 2 ^ p ≤ x * y * 2 ^ p + (x * f + e * y) + e * f / 2 ^ p := by
    rw [sw, sl, ← add_div, ← add_div]; gcongr
    calc (a.hi : ℝ) * b.hi ≤ (x * 2 ^ p + e) * (y * 2 ^ p + f) := by gcongr
      _ = _ := by ring
  have ef : 0 ≤ e * f / 2 ^ p := by positivity
  constructor <;> simp only [Bounds.mul] <;> push_cast <;> linarith

theorem encloses_ofFraction (p n : Nat) {d : Nat} (hd : 0 < d) : (ofFraction p n d).Encloses p (n / d) 1 := by
  have h := natDiv_bounds (n * 2 ^ p) hd
  have sw : (n / d : ℝ) * 2 ^ p = ((n * 2 ^ p : Nat) : ℝ) / d := by push_cast; ring
  constructor <;> simp only [ofFraction, sw] <;> push_cast at * <;> linarith

end Bounds

/-- The first `2 * j` terms of the arctangent's series. -/
noncomputable def arctanSum (x : ℝ) (j : Nat) : ℝ := ∑ i ∈ Finset.range (2 * j), (-1) ^ i * (x ^ (2 * i + 1) / (2 * i + 1 : Nat))

theorem arctanSum_succ (x : ℝ) (j : Nat) : arctanSum x (j + 1) =
    arctanSum x j + x ^ (4 * j + 1) / (4 * j + 1 : Nat) - x ^ (4 * j + 3) / (4 * j + 1 + 2 : Nat) := by
  have e : (-1 : ℝ) ^ (2 * j) = 1 := by simp
  have o : (-1 : ℝ) ^ (2 * j + 1) = -1 := by rw [pow_succ, e]; ring
  rw [arctanSum, show 2 * (j + 1) = 2 * j + 1 + 1 by ring, Finset.sum_range_succ, Finset.sum_range_succ, e, o,
    show 2 * (2 * j) + 1 = 4 * j + 1 by ring, show 2 * (2 * j + 1) + 1 = 4 * j + 3 by ring]
  simp only [arctanSum]
  ring

/-- The series alternates: what follows an even number of its terms lies between 0 and the next power. -/
theorem arctan_between {x : ℝ} (h0 : 0 ≤ x) (h1 : x ≤ 1 / 2) (j : Nat) :
    arctanSum x j ≤ Real.arctan x ∧ Real.arctan x ≤ arctanSum x j + x ^ (4 * j + 1) := by
  have t : Filter.Tendsto (fun n => ∑ i ∈ Finset.range n, (-1) ^ i * (x ^ (2 * i + 1) / (2 * i + 1 : Nat)))
      Filter.atTop (nhds (Real.arctan x)) := by
    have := (Real.hasSum_arctan (x := x) (by rw [Real.norm_of_nonneg h0]; linarith)).tendsto_sum_nat
    simpa only [mul_div_assoc] using this
  have anti : Antitone fun i : Nat => x ^ (2 * i + 1) / ((2 * i + 1 : Nat) : ℝ) := fun i k h => by
    have : x ^ (2 * k + 1) ≤ x ^ (2 * i + 1) := pow_le_pow_of_le_one h0 (by linarith) (by omega)
    have : 0 ≤ x ^ (2 * i + 1) := by positivity
    dsimp only
    gcongr
  refine ⟨anti.alternating_series_le_tendsto t j, (anti.tendsto_le_alternating_series t j).trans ?_⟩
  have e : (-1 : ℝ) ^ (2 * j) = 1 := by simp
  rw [Finset.sum_range_succ, e, one_mul, show 2 * (2 * j) + 1 = 4 * j + 1 by ring, arctanSum]
  have : x ^ (4 * j + 1) / ((4 * j + 1 : Nat) : ℝ) ≤ x ^ (4 * j + 1) :=
    div_le_self (by positivity) (by push_cast; linarith [Nat.cast_nonneg (α := ℝ) j])
  linarith

variable {p : Nat} {x : ℝ}

/-- One multiplication by the square keeps a power's bounds within 5 units. -/
theorem Bounds.Encloses.mul_sq {a sq : Bounds} {y : ℝ} (ha : a.Encloses p y 5) (hsq : sq.Encloses p (x ^ 2) 3)
    (hp : 4 ≤ p) (h0 : 0 ≤ x) (h1 : x ≤ 1 / 2) (hy0 : 0 ≤ y) (hy : y ≤ 1 / 2) : (a.mul p sq).Encloses p (y * x ^ 2) 5 := by
  refine (ha.mul hsq hy0 (by positivity) (by norm_num)).mono ?_
  have : (5 : ℝ) * 3 / 2 ^ p ≤ 5 * 3 / 2 ^ 4 := by gcongr; norm_num
  nlinarith

/-- The running sums of the series, however far they have come, enclose the arctangent at its end. -/
theorem arctanSeries_encloses (hp : 4 ≤ p) (h0 : 0 ≤ x) (h1 : x ≤ 1 / 2) {sq : Bounds} (hsq : sq.Encloses p (x ^ 2) 3) :
    ∀ (fuel j : Nat) (pow plus minus : Bounds) (s t e : ℝ), pow.Encloses p (x ^ (4 * j + 1)) 5 →
      plus.Encloses p s e → minus.Encloses p t e → s - t = arctanSum x j → x ^ (4 * (j + fuel) + 1) * 2 ^ p ≤ 1 →
      (arctanSeries p sq fuel (4 * j + 1) pow plus minus).Encloses p (Real.arctan x) (2 * (e + 6 * fuel) + 6)
  | 0, j, pow, plus, minus, s, t, e, hpow, hplus, hminus, st, small => by
    obtain ⟨p1, p2, p3, p4⟩ := hplus
    obtain ⟨m1, m2, m3, m4⟩ := hminus
    obtain ⟨q1, q2, q3, q4⟩ := hpow
    have P : (0 : ℝ) < 2 ^ p := by positivity
    have b := arctan_between h0 h1 j
    rw [← st] at b
    have pos : 0 ≤ Real.arctan x * 2 ^ p := mul_nonneg (Real.arctan_nonneg.2 h0) P.le
    have b1 := mul_le_mul_of_nonneg_right b.1 P.le
    have b2 := mul_le_mul_of_nonneg_right b.2 P.le
    have lo := natSub_bounds plus.lo minus.hi
    have hi := natSub_bounds (plus.hi + pow.hi) minus.lo
    push_cast at hi
    simp only [arctanSeries, Nat.cast_zero, mul_zero, add_zero] at *
    constructor <;> dsimp only
    · exact lo.2 _ pos (by linarith)
    · linarith [hi.1]
    · linarith [lo.1]
    · exact hi.2 _ (by linarith) (by linarith)
  | fuel + 1, j, pow, plus, minus, s, t, e, hpow, hplus, hminus, st, small => by
    have le (k : Nat) : x ^ (k + 1) ≤ 1 / 2 := (pow_le_of_le_one h0 (by linarith) (by omega)).trans h1
    have pow3 := hpow.mul_sq hsq hp h0 h1 (by positivity) (le _)
    rw [← pow_add] at pow3
    have pow5 := pow3.mul_sq hsq hp h0 h1 (by positivity) (le _)
    rw [← pow_add] at pow5
    have ih := arctanSeries_encloses hp h0 h1 hsq fuel (j + 1) _ _ _ _ _ _ pow5
      (hplus.add (hpow.divNat (show 0 < 4 * j + 1 by omega) (by norm_num)))
      (hminus.add (pow3.divNat (show 0 < 4 * j + 1 + 2 by omega) (by norm_num)))
      (by rw [arctanSum_succ, ← st]; ring) (by rwa [show j + 1 + fuel = j + (fuel + 1) by ring])
    exact ih.mono (by push_cast; linarith)

/-- The bounds of a small fraction's arctangent, off by at most a few units a bit. -/
theorem arctanSmall_encloses (hp : 4 ≤ p) {n d : Nat} (hd : 0 < d) (h : 2 * n ≤ d) :
    (arctanSmall p n d).Encloses p (Real.arctan (n / d)) (3 * p + 18) := by
  have d0 : (0 : ℝ) < d := by exact_mod_cast hd
  have h0 : (0 : ℝ) ≤ n / d := by positivity
  have h1 : (n / d : ℝ) ≤ 1 / 2 := by rw [div_le_div_iff₀ d0 two_pos]; exact_mod_cast (by omega : n * 2 ≤ 1 * d)
  have hx := Bounds.encloses_ofFraction p n hd
  have sq := hx.mul hx h0 h0 zero_le_one
  rw [← pow_two] at sq
  have z : (⟨0, 0⟩ : Bounds).Encloses p 0 0 := by constructor <;> simp
  have inv : (1 : ℝ) * 1 / 2 ^ p ≤ 1 * 1 / 1 := by gcongr; exact one_le_pow₀ (by norm_num)
  have small : (n / d : ℝ) ^ (4 * (0 + (p / 4 + 1)) + 1) * 2 ^ p ≤ 1 := by
    calc (n / d : ℝ) ^ (4 * (0 + (p / 4 + 1)) + 1) * 2 ^ p ≤ (n / d : ℝ) ^ p * 2 ^ p := by
          gcongr ?_ * _
          exact pow_le_pow_of_le_one h0 (by linarith) (by omega)
      _ = (n / d * 2 : ℝ) ^ p := (mul_pow _ _ _).symm
      _ ≤ 1 := pow_le_one₀ (by positivity) (by linarith)
  have run := arctanSeries_encloses hp h0 h1 (sq.mono (f := 3) (by linarith)) (p / 4 + 1) 0 _ _ _ 0 0 0
    (by simpa using hx.mono (by norm_num)) z z (by simp [arctanSum]) small
  refine run.mono ?_
  have : ((p / 4 : Nat) : ℝ) ≤ p / 4 := Nat.cast_div_le
  push_cast
  linarith

theorem quarterPi_encloses (hp : 4 ≤ p) : (quarterPi p).Encloses p (Real.pi / 4) (6 * p + 36) := by
  have h := (arctanSmall_encloses hp (n := 1) (d := 2) (by norm_num) (by norm_num)).add
    (arctanSmall_encloses hp (n := 1) (d := 3) (by norm_num) (by norm_num))
  rw [Real.arctan_add (by norm_num)] at h
  norm_num at h
  exact h.mono (by linarith)

/-- R131: the bounds enclose the arctangent of `n / d`, and their distance grows with the precision only linearly. -/
theorem arctanBounds_encloses (hp : 4 ≤ p) {n d : Nat} (hn : 0 < n) (hd : 0 < d) :
    (arctanBounds p n d).Encloses p (Real.arctan (n / d)) (15 * p + 90) := by
  have d0 : (0 : ℝ) < d := by exact_mod_cast hd
  have n0 : (0 : ℝ) < n := by exact_mod_cast hn
  have q := quarterPi_encloses hp
  unfold arctanBounds
  split_ifs with c1 c2 c3
  · exact (arctanSmall_encloses hp hd c1).mono (by linarith [Nat.cast_nonneg (α := ℝ) p])
  · have s := arctanSmall_encloses hp (n := d - n) (d := d + n) (by omega) (by omega)
    rw [Nat.cast_sub c2, Nat.cast_add] at s
    have e : Real.arctan (n / d) = Real.pi / 4 - Real.arctan ((d - n) / (d + n)) := by
      rw [eq_sub_iff_add_eq, ← Real.arctan_one, Real.arctan_add]
      · congr 1
        have : (d : ℝ) * (d + n) - n * (d - n) ≠ 0 := by nlinarith
        field_simp; ring
      · rw [div_mul_div_comm, div_lt_one (by positivity)]; nlinarith
    have le : Real.arctan ((d - n) / (d + n)) ≤ Real.pi / 4 := by
      have := Real.arctan_nonneg.2 (by positivity : (0 : ℝ) ≤ n / d); linarith
    rw [e]
    exact (q.sub s le).mono (by linarith [Nat.cast_nonneg (α := ℝ) p])
  · have s := arctanSmall_encloses hp (n := n - d) (d := n + d) (by omega) (by omega)
    rw [Nat.cast_sub (by omega), Nat.cast_add] at s
    have e : Real.arctan (n / d) = Real.pi / 4 + Real.arctan ((n - d) / (n + d)) := by
      rw [← Real.arctan_one, Real.arctan_add]
      · congr 1
        have : (n : ℝ) + d - (n - d) ≠ 0 := by linarith
        field_simp; ring
      · rw [one_mul, div_lt_one (by positivity)]; linarith
    rw [e]
    exact (q.add s).mono (by linarith [Nat.cast_nonneg (α := ℝ) p])
  · have s := arctanSmall_encloses hp hn (show 2 * d ≤ n by omega)
    have e : Real.arctan (n / d) = Real.pi / 4 + Real.pi / 4 - Real.arctan (d / n) := by
      rw [← inv_div, Real.arctan_inv_of_pos (by positivity)]; ring
    rw [e]
    exact ((q.add q).sub s (by linarith [Real.arctan_lt_pi_div_two (d / n)])).mono (by linarith [Nat.cast_nonneg (α := ℝ) p])

/-- The value of a magnitude of `g` grid units. -/
noncomputable def valueOf (g : Nat) : ℝ := g / one

theorem cast_one_eq : (one : ℝ) = 2 ^ 1074 := by rw [one, Nat.cast_pow, Nat.cast_ofNat]

theorem cast_one_pos : (0 : ℝ) < one := by rw [cast_one_eq]; positivity

theorem valueOf_eq (g : Nat) : valueOf g = g / 2 ^ 1074 := by rw [valueOf, cast_one_eq]

theorem valueOf_pos {g : Nat} (hg : 0 < g) : 0 < valueOf g := div_pos (by exact_mod_cast hg) cast_one_pos

theorem arctanBounds_encloses_valueOf (hp : 4 ≤ p) {g : Nat} (hg : 0 < g) :
    (arctanBounds p g one).Encloses p (Real.arctan (valueOf g)) (15 * p + 90) :=
  arctanBounds_encloses hp hg (by exact_mod_cast cast_one_pos)

/-- The two ends of the enclosure close in on the arctangent. -/
theorem tendsto_arctanBounds {g : Nat} (hg : 0 < g) :
    Filter.Tendsto (fun p => ((arctanBounds p g one).lo / 2 ^ p : ℝ)) Filter.atTop (nhds (Real.arctan (valueOf g))) ∧
    Filter.Tendsto (fun p => ((arctanBounds p g one).hi / 2 ^ p : ℝ)) Filter.atTop (nhds (Real.arctan (valueOf g))) := by
  have err : Filter.Tendsto (fun p : Nat => ((15 * p + 90) / 2 ^ p : ℝ)) Filter.atTop (nhds 0) := by
    have a := (tendsto_pow_const_div_const_pow_of_one_lt 1 (r := (2 : ℝ)) one_lt_two).const_mul 15
    have b := (tendsto_pow_const_div_const_pow_of_one_lt 0 (r := (2 : ℝ)) one_lt_two).const_mul 90
    have c := a.add b
    simp only [pow_one, pow_zero, mul_zero, add_zero] at c
    exact c.congr fun p => by ring
  have P (p : Nat) : (0 : ℝ) < 2 ^ p := by positivity
  constructor
  · refine tendsto_of_tendsto_of_tendsto_of_le_of_le' (by simpa using err.const_sub (Real.arctan (valueOf g)))
      tendsto_const_nhds ?_ ?_ <;> filter_upwards [Filter.eventually_ge_atTop 4] with p hp
    · have h := (arctanBounds_encloses_valueOf hp hg).le_lo_add
      rw [le_div_iff₀ (P p), sub_mul, div_mul_cancel₀ _ (P p).ne']; linarith
    · rw [div_le_iff₀ (P p)]; exact (arctanBounds_encloses_valueOf hp hg).lo_le
  · refine tendsto_of_tendsto_of_tendsto_of_le_of_le' tendsto_const_nhds
      (by simpa using err.const_add (Real.arctan (valueOf g))) ?_ ?_ <;> filter_upwards [Filter.eventually_ge_atTop 4] with p hp
    · rw [le_div_iff₀ (P p)]; exact (arctanBounds_encloses_valueOf hp hg).le_hi
    · have h := (arctanBounds_encloses_valueOf hp hg).hi_le_add
      rw [div_le_iff₀ (P p), add_mul, div_mul_cancel₀ _ (P p).ne']; exact h

/-- At every fine enough precision both ends round to one value. -/
theorem arctanEnds_agree {g : Nat} (hg : 0 < g) : ∀ᶠ p in Filter.atTop, (arctanEnds p g).1 = (arctanEnds p g).2 := by
  have irr : Irrational (Real.arctan (valueOf g) * one) := by
    have h := irrational_arctan (y := (g : ℚ) / one) (by have := valueOf_pos hg; push_cast; exact this)
    push_cast at h
    exact h.mul_natCast (by have := cast_one_pos; exact_mod_cast this.ne')
  obtain ⟨m, hm⟩ := roundMag_locally_const (mul_pos (Real.arctan_pos.2 (valueOf_pos hg)) cast_one_pos) irr
  have t := tendsto_arctanBounds hg
  filter_upwards [(t.1.mul_const _).eventually hm, (t.2.mul_const _).eventually hm] with p lo hi
  simp only [arctanEnds]
  rw [lo _ _ (Nat.two_pow_pos p) (by push_cast; ring), hi _ _ (Nat.two_pow_pos p) (by push_cast; ring)]

/-- The search answers where the two ends agree from some precision on. -/
theorem firstAgreement_isSome {ends : Nat → Nat × Nat} {q : Nat} (hq : ∀ p, q ≤ p → (ends p).1 = (ends p).2) :
    ∀ k p, 0 < p → q ≤ p + k → (firstAgreement ends p).isSome := by
  intro k
  induction k with
  | zero => intro p _ h; rw [firstAgreement, if_pos (hq p h)]; rfl
  | succ k ih =>
    intro p hp h
    rw [firstAgreement]
    split_ifs
    · rfl
    · exact ih (2 * p) (by omega) (by omega)

/-- What the search answers, both ends are at some precision no less than the first. -/
theorem firstAgreement_spec (ends : Nat → Nat × Nat) (p m : Nat) (h : firstAgreement ends p = some m) :
    ∃ q, p ≤ q ∧ (ends q).1 = m ∧ (ends q).2 = m := by
  refine firstAgreement.partial_correctness ends (fun p m => ∃ q, p ≤ q ∧ (ends q).1 = m ∧ (ends q).2 = m) ?_ p m h
  intro search ih p m h
  split_ifs at h with c
  · obtain rfl := Option.some.inj h
    exact ⟨p, le_rfl, rfl, c.symm⟩
  · obtain ⟨q, hq⟩ := ih _ _ h
    exact ⟨q, by omega, hq.2⟩

/-- R131 (P5): the search for a precision answers at every input. -/
theorem firstAgreement_arctanEnds {g : Nat} (hg : 0 < g) {p : Nat} (hp : 0 < p) :
    (firstAgreement (arctanEnds · g) p).isSome := by
  obtain ⟨q, hq⟩ := Filter.eventually_atTop.1 (arctanEnds_agree hg)
  exact firstAgreement_isSome hq q p hp (by omega)

/-- R131 (P5): at every input both ends of an enclosure round to the result. -/
theorem arctanMag_spec {g : Nat} (hg : 0 < g) :
    ∃ p, arctanPrec ≤ p ∧ (arctanEnds p g).1 = arctanMag g ∧ (arctanEnds p g).2 = arctanMag g := by
  simp only [arctanMag]
  split_ifs with c
  · exact ⟨_, le_rfl, rfl, c.symm⟩
  · obtain ⟨m, hm⟩ := Option.isSome_iff_exists.1 (firstAgreement_arctanEnds hg (p := 2 * arctanPrec) (by simp [arctanPrec]))
    obtain ⟨q, hq⟩ := firstAgreement_spec _ _ _ hm
    rw [hm]
    exact ⟨q, by omega, hq.2⟩

/-- R131 (P5): the result is the value both of two fractions round to that enclose the real arctangent. -/
theorem arctanMag_encloses {g : Nat} (hg : 0 < g) : ∃ n n' d : Nat, 0 < d ∧ (n / d : ℝ) ≤ Real.arctan (valueOf g) * one ∧
    Real.arctan (valueOf g) * one ≤ (n' / d : ℝ) ∧ roundMag n d = arctanMag g ∧ roundMag n' d = arctanMag g := by
  obtain ⟨p, hp, h1, h2⟩ := arctanMag_spec hg
  have e := arctanBounds_encloses_valueOf (by simp only [arctanPrec] at hp; omega : 4 ≤ p) hg
  have P : (0 : ℝ) < 2 ^ p := by positivity
  refine ⟨_, _, 2 ^ p, Nat.two_pow_pos p, ?_, ?_, h1, h2⟩ <;> push_cast
  · rw [div_le_iff₀ P, mul_right_comm]; exact mul_le_mul_of_nonneg_right e.lo_le cast_one_pos.le
  · rw [le_div_iff₀ P, mul_right_comm]; exact mul_le_mul_of_nonneg_right e.le_hi cast_one_pos.le

/-- Rounding is monotone, for fractions compared through a real number. -/
theorem roundMag_le_of_le {n d n' d' : Nat} (hd : 0 < d) (hd' : 0 < d') (h : (n / d : ℝ) ≤ n' / d') :
    roundMag n d ≤ roundMag n' d' := by
  refine roundMag_mono hd hd' ?_
  rw [div_le_div_iff₀ (by exact_mod_cast hd) (by exact_mod_cast hd')] at h
  exact_mod_cast h

theorem valueOf_mono {g g' : Nat} (h : g ≤ g') : valueOf g ≤ valueOf g' :=
  div_le_div_of_nonneg_right (by exact_mod_cast h) cast_one_pos.le

/-- R131 (P3), on magnitudes. -/
theorem arctanMag_mono {g g' : Nat} (hg : 0 < g) (h : g ≤ g') : arctanMag g ≤ arctanMag g' := by
  obtain ⟨n, _, d, hd, lo, _, e, _⟩ := arctanMag_encloses hg
  obtain ⟨_, n', d', hd', _, hi, _, e'⟩ := arctanMag_encloses (hg.trans_le h)
  rw [← e, ← e']
  refine roundMag_le_of_le hd hd' (lo.trans (le_trans ?_ hi))
  exact mul_le_mul_of_nonneg_right (Real.arctan_strictMono.monotone (valueOf_mono h)) cast_one_pos.le

/-- No arctangent rounds above the value nearest π/2. -/
theorem arctanMag_le {g : Nat} (hg : 0 < g) : arctanMag g ≤ 0x3FF921FB54442D18 := by
  obtain ⟨n, _, d, hd, lo, _, e, _⟩ := arctanMag_encloses hg
  have q := (quarterPi_encloses (p := 192) (by norm_num)).le_hi
  rw [← e, ← (show roundMag (2 * (quarterPi 192).hi * one) (2 ^ 192) = 0x3FF921FB54442D18 by decide +kernel)]
  refine roundMag_le_of_le hd (Nat.two_pow_pos 192) (lo.trans ?_)
  push_cast
  rw [le_div_iff₀ (by positivity), mul_right_comm]
  refine mul_le_mul_of_nonneg_right ?_ cast_one_pos.le
  linarith [mul_le_mul_of_nonneg_right (Real.arctan_lt_pi_div_two (valueOf g)).le (by positivity : (0 : ℝ) ≤ 2 ^ 192)]

/-- R131: what `atan64` answers away from the NaNs, part by part: the input's sign (P1), and the magnitude. -/
theorem atan64_parts {x : F64} (h : isNaN x = false) : neg (atan64 x) = neg x ∧
    mag (atan64 x) = if mag x = 0 then 0 else if mag x = infMag then 0x3FF921FB54442D18 else arctanMag (grid x) := by
  simp only [atan64, h, isZero, isInf, decide_eq_true_eq, Bool.false_eq_true, if_false]
  split_ifs with zero inf
  · exact ⟨rfl, zero⟩
  · exact ⟨neg_pack (by norm_num) _, mag_pack (by norm_num) _⟩
  · have := arctanMag_le (grid_pos zero)
    exact ⟨neg_pack (by omega) _, mag_pack (by omega) _⟩

end Sys2Proof.F64
end

