-- ==== Sys2Proof/Laws/Bus.lean ====
section
/-! SUPPORT. What a completed request leaves in each part of State, runs of turns, runs of wait cycles, and the bus
ownership a well formed trace shows. -/

namespace Sys2Proof.Machine

variable (q : Req) (b : Byte) (s : State)

/-! `advance` (R96 to R99, R102, R103, R107, R108). -/

theorem advance_regs :
    (advance q b s).regs = if q = .rxnack then { s.regs with rxdata := b } else s.regs := by
  cases q <;> simp [advance]
  split <;> simp

@[simp] theorem advance_status : (advance q b s).status = { s.status with phase := q.phase } := by
  cases q <;> simp [advance]
  split <;> simp

@[simp] theorem advance_latch : (advance q b s).latch = s.latch := by
  cases q <;> simp [advance]
  split <;> simp

@[simp] theorem advance_trace : (advance q b s).trace = s.trace := by
  cases q <;> simp [advance]
  split <;> simp

@[simp] theorem advance_target : (advance q b s).target = s.target := by
  cases q <;> simp [advance]
  split <;> simp

@[simp] theorem advance_host : (advance q b s).host = s.host := by
  cases q <;> simp [advance]
  split <;> simp

@[simp] theorem advance_turns : (advance q b s).turns = s.turns := by
  cases q <;> simp [advance]
  split <;> simp

/-- R94 to R103, R107, R108: the request that follows, for a bus command. -/
theorem advance_wait (h : s.onBus) :
    (advance q b s).wait = match nextReq s.latch.lop q with
      | some q' => { req := some q', reqst := .pending, wcnt := 0#32, abort := s.wait.abort }
      | none => { s.wait with req := none } := by
  rcases h with h | h <;> cases q <;> simp [advance, nextReq, h]

/-! Runs of turns (R57). -/

/-- A run of turns is a run of its first part and then one of the rest. -/
theorem runTurns_append (us vs : List Turn) (s : State) :
    runTurns (us ++ vs) s =
      match runTurns us s with
      | .next s' => runTurns vs s'
      | .fault r => .fault r
      | .refused r => .refused r := by
  induction us generalizing s with
  | nil => rfl
  | cons u us ih =>
    simp only [List.cons_append, runTurns]
    cases turn u s <;> simp [ih]

/-- R113: `n` wait cycles that do not use up the bound change the counter alone, by `n` (saturating). -/
theorem waits_below_bound (n : Nat) (s : State) (hq : s.wait.req = some q)
    (h : s.latch.ltout = 0#32 ∨ s.wait.wcnt.toNat + n < s.latch.ltout.toNat) :
    ∃ c : Word, c.toNat = min (s.wait.wcnt.toNat + n) 0xFFFFFFFF ∧
      runTurns (List.replicate n .ctl) s = .next { s with wait := { s.wait with wcnt := c } } := by
  induction n generalizing s with
  | zero => exact ⟨s.wait.wcnt, by have := s.wait.wcnt.isLt; omega, rfl⟩
  | succ n ih =>
    have hc : ctlStep s = { s with wait := { s.wait with wcnt := bump s.wait.wcnt } } := by
      have hs : ctlStep s = waitCycle q s := by simp [ctlStep, hq]
      rw [hs]
      rcases waitCycle_cases s q with ⟨h1, -⟩ | ⟨-, h2, h3⟩
      · exact h1
      · exfalso
        rcases h with h | h
        · exact h2 h
        · rw [BitVec.le_def, bump_toNat] at h3; omega
    obtain ⟨c, hn, hc'⟩ := ih { s with wait := { s.wait with wcnt := bump s.wait.wcnt } } hq (by
      rcases h with h | h
      · exact .inl h
      · right; simp [bump_toNat]; omega)
    refine ⟨c, by simp [bump_toNat] at hn; omega, ?_⟩
    rw [List.replicate_succ, runTurns]
    simp only [turn, hc]
    exact hc'

/-! The trace (R43, R59). -/

/-- One event an R59 form allows moves the position and the ownership alike. -/
theorem owns_of_after {p p' : BusPos} {e : BusEvent} (h : p.after e = some p') :
    e.owns (decide (p ≠ .closed)) = decide (p' ≠ .closed) := by
  cases e with
  | addr d dir ans =>
    cases dir <;> cases ans <;> simp [BusPos.after, BusPos.onAnswer] at h <;> obtain ⟨rfl, rfl⟩ := h <;> rfl
  | tx b ans =>
    cases p <;> cases ans <;> simp [BusPos.after, BusPos.onAnswer] at h <;> subst h <;> rfl
  | rx b ans => cases p <;> cases ans <;> simp [BusPos.after] at h <;> subst h <;> rfl
  | start => simp [BusPos.after] at h; obtain ⟨rfl, rfl⟩ := h; rfl
  | rstart => cases p <;> simp [BusPos.after] at h <;> subst h <;> rfl
  | stop => simp [BusPos.after] at h; rw [← h.2]; rfl
  | rel => simp [BusPos.after] at h; rw [← h.2]; rfl

/-- R43: on a trace of R59's forms the bus is owned exactly while a transaction is open. -/
theorem owned_of_scan (tr : List BusEvent) (p : BusPos) (h : scanTrace tr = some p) :
    owned tr = decide (p ≠ .closed) := by
  induction tr using List.reverseRecOn generalizing p with
  | nil => simp [scanTrace] at h; subst h; rfl
  | append_singleton tr e ih =>
    rw [scanTrace_append] at h
    cases hp : scanTrace tr with
    | none => simp [hp] at h
    | some p' =>
      rw [hp] at h
      rw [owned_append, ih p' hp]
      exact owns_of_after h

end Sys2Proof.Machine
end

