-- ==== Sys2Proof/Laws/HostPort.lean ====
section
/-! SUPPORT. The register window: which accesses are admitted (R52), and what each offset is (R20). -/

namespace Sys2Proof.Machine

theorem admitted_iff (a : Access) : a.admitted = true ↔ a.width = 4 ∧ a.off.toNat % 4 = 0 := by
  simp [Access.admitted]

/-- R52, R56: an admitted load. -/
theorem access_read {off : BitVec 8} (h : off.toNat % 4 = 0) (s : State) :
    access (.read off 4) s = .next (load off s) := by
  simp [access, admitted_iff, Access.width, Access.off, h]

/-- R52, R53: an admitted store. -/
theorem access_write {off : BitVec 8} (h : off.toNat % 4 = 0) (v : Word) (s : State) :
    access (.write off 4 v) s = writeOff off v s := by
  simp [access, admitted_iff, Access.width, Access.off, h]

/-- R52, R186: a refused access. -/
theorem access_refused {a : Access} (h : a.width ≠ 4 ∨ a.off.toNat % 4 ≠ 0) (s : State) :
    access a s = .next (refuse a s) := by
  have : ¬ a.admitted = true := by rw [admitted_iff]; tauto
  simp [access, this]

@[simp] theorem ofOffset_ctrl : Reg.ofOffset 0x00#8 = some .ctrl := rfl
@[simp] theorem ofOffset_timeout : Reg.ofOffset 0x04#8 = some .timeout := rfl
@[simp] theorem ofOffset_cmd : Reg.ofOffset 0x08#8 = some .cmd := rfl
@[simp] theorem ofOffset_status : Reg.ofOffset 0x0C#8 = some .status := rfl
@[simp] theorem ofOffset_rxdata : Reg.ofOffset 0x10#8 = some .rxdata := rfl
@[simp] theorem ofOffset_hxy : Reg.ofOffset 0x14#8 = some .hxy := rfl
@[simp] theorem ofOffset_hainLo : Reg.ofOffset 0x18#8 = some .hainLo := rfl
@[simp] theorem ofOffset_hainHi : Reg.ofOffset 0x1C#8 = some .hainHi := rfl
@[simp] theorem ofOffset_hangleLo : Reg.ofOffset 0x20#8 = some .hangleLo := rfl
@[simp] theorem ofOffset_hangleHi : Reg.ofOffset 0x24#8 = some .hangleHi := rfl
@[simp] theorem ofOffset_hsector : Reg.ofOffset 0x28#8 = some .hsector := rfl

/-- R90: a store to CMD presents its word. -/
theorem access_cmd (w : Word) (s : State) : access (.write 0x08#8 4 w) s = presentWord w s := by
  rw [access_write (by decide)]
  simp [writeOff, writeReg]

/-- R90, R92: an accepted word. -/
theorem presentWord_cmd {w : Word} {i : Instr} (h : decode w = .cmd i) (s : State) :
    presentWord w s = exec i s := by
  rw [exec_eq]
  unfold presentWord present
  rw [h]
  split <;> simp_all [exec_eq, present]

/-- The bytes of a 64-bit pattern come back from its two words (R54). -/
theorem hiWord_loWord (a : F64) : hiWord a ++ loWord a = a := by
  have h : hiWord a ++ loWord a = a.extractLsb' 0 64 :=
    BitVec.extractLsb'_append_extractLsb'_eq_extractLsb' (w := 64) (by rfl)
  rw [h, BitVec.extractLsb'_eq_self]

/-- R174: the code of a sector names it. -/
@[simp] theorem ofCode_code (c : Sector) : Sector.ofCode c.code = c := by cases c <;> rfl

end Sys2Proof.Machine
end

