-- ==== Sys2Proof/Laws/PerInstr.lean ====
section
/-! SUPPORT. Facts of every command as syntax, one lemma per constructor. -/

namespace Sys2Proof.Laws.MaskMatch

/-- R72, R82: a command's encoding, under its row's mask, is its row's match. -/
def Statement (i : Instr) : Prop := encode i &&& i.mask = i.fixedBits

theorem rdreg (dev : DevAddr) (reg : Byte) : Statement (.rdreg dev reg) := by
  unfold Statement encode Instr.mask Instr.fixedBits
  ext k hk
  interval_cases k <;> simp

theorem wrreg (dev : DevAddr) (reg data : Byte) : Statement (.wrreg dev reg data) := by
  unfold Statement encode Instr.mask Instr.fixedBits
  ext k hk
  interval_cases k <;> simp

theorem heading : Statement .heading := by unfold Statement; decide

theorem sector : Statement .sector := by unfold Statement; decide

end Sys2Proof.Laws.MaskMatch
end

