-- ==== Sys2Proof/Tests/Slice0.lean ====
section
/-! SUPPORT. The model's own tests. Expected results are from spec/95_test_vectors.md and the worked encodings of R84, or
worked out by hand from the rules named. The second half gives, for each statement with hypotheses, a case that meets
them. -/

namespace Sys2Proof.Tests

open Sys2Proof Sys2Proof.Machine

/-! ## Small states -/

/-- An RDREG of register 0x03 of device 0x1E (or a WRREG of 0x01 to register 0x02), at phase `ph`, waiting on `req`. -/
def mid (op : Op) (ph : Phase) (req : Option Req) (nacke : Bool) (lim : Word) (tr : List BusEvent) : State :=
  { State.reset with
    status := { Status.reset with busy := true, phase := ph }
    latch := { Latch.reset with
      lop := some op, ldev := 0x1E#7, lreg := if op = .rd then 0x03#8 else 0x02#8
      ldata := if op = .rd then 0x00#8 else 0x01#8, lnacke := nacke, ltout := lim }
    wait := { Wait.reset with req := req }
    trace := tr }

/-- `S`, then `A(0x1E,W,ACK)`, then `T(0x03,ACK)`, and so on, as far as an RDREG has got. -/
def readPrefix (n : Nat) : List BusEvent := (readEvents 0x1E#7 0x03#8 0x7A#8).take n

/-- The same of a WRREG. -/
def writePrefix (n : Nat) : List BusEvent := (writeEvents 0x1E#7 0x02#8 0x01#8).take n

/-- HEADING or SECTOR accepted, the operands latched. -/
def heldHeading (op : Op) (x y : Sample) (a : F64) : State :=
  { State.reset with
    status := { Status.reset with busy := true }
    latch := { Latch.reset with lop := some op, lx := x, ly := y, lain := a } }

/-- A request STALLED after a NACK of the address byte (T6). -/
def stuck (lim : Word) : State :=
  let s := mid .rd .startSent (some .addrw) false lim [.start, .addr 0x1E#7 .w .nack]
  { s with wait := { s.wait with reqst := .stalled } }

/-- The turn of a state with one turn queued. -/
def withTurn (t : Turn) (s : State) : State := { s with turns := [t] }

/-- The next state, or the given one if the machine stopped. -/
def orElse (o : Host.Outcome State Fault Refusal) (s : State) : State :=
  match o with
  | .next t => t
  | .fault _ => s
  | .refused _ => s

/-! ## Well-formedness (R82) -/

theorem test_dev_out_of_range_refused : (Asm.rdreg 0x80 0x03).wellFormed = false := by decide
theorem test_reg_out_of_range_refused : (Asm.rdreg 0x1E 0x100).wellFormed = false := by decide
theorem test_write_dev_out_of_range_refused : (Asm.wrreg 0x80 0x02 0x00).wellFormed = false := by decide
theorem test_write_reg_out_of_range_refused : (Asm.wrreg 0x1E 0x100 0x00).wellFormed = false := by decide
theorem test_data_out_of_range_refused : (Asm.wrreg 0x1E 0x02 0x100).wellFormed = false := by decide
theorem test_out_of_range_is_an_assembly_error : (Asm.wrreg 0x1E 0x02 0x100).assemble = none := by decide
theorem test_in_range_assembles : (Asm.wrreg 0x7F 0xFF 0xFF).assemble = some 0xFFFF7F02#32 := by decide

/-! ## Decoding: words written out from R70's pattern vvvvvvvv rrrrrrrr 0ddddddd 0000oooo -/

theorem test_decode_rdreg :
    decode 0b00000000000000110001111000000001#32 = .cmd (.rdreg 0x1E#7 0x03#8) := by decide
theorem test_decode_wrreg :
    decode 0b00000001000000100001111000000010#32 = .cmd (.wrreg 0x1E#7 0x02#8 0x01#8) := by decide
theorem test_decode_heading : decode 0b00000000000000000000000000000011#32 = .cmd .heading := by decide
theorem test_decode_sector : decode 0b00000000000000000000000000000100#32 = .cmd .sector := by decide
/-- E3 to E5, E11 and E12: the ends of the operand ranges. -/
theorem test_decode_range_ends :
    decode 0x00007F01#32 = .cmd (.rdreg 0x7F#7 0x00#8) ∧ decode 0x00000001#32 = .cmd (.rdreg 0x00#7 0x00#8) ∧
    decode 0x00FF1E01#32 = .cmd (.rdreg 0x1E#7 0xFF#8) ∧
    decode 0xFFFF7F02#32 = .cmd (.wrreg 0x7F#7 0xFF#8 0xFF#8) ∧
    decode 0x00000002#32 = .cmd (.wrreg 0x00#7 0x00#8 0x00#8) := by decide
/-- E6 to E8, E13, E15, E16, E18: a bit that must be 0. -/
theorem test_decode_reserved_bits :
    [0x05031E01#32, 0x00039E01#32, 0x00031E11#32, 0x0000FF02#32, 0x00000103#32, 0x80000003#32, 0x00000014#32].all
      (fun w => decide (decode w = .illegal .reservedBits)) = true := by decide
/-- E19 to E22: OP 0, 5 and 15. -/
theorem test_decode_reserved_op :
    [0x00000000#32, 0x00000005#32, 0x0000000F#32, 0xFFFFFFFF#32].all
      (fun w => decide (decode w = .illegal .reservedOp)) = true := by decide
/-- R82's syntax, with the words of R84. -/
theorem test_assembler_text :
    Asm.assembleLine "rdreg 0x1E, 0x03".toList = some 0x00031E01#32 ∧
    Asm.assembleLine "wrreg 30, 2, 1".toList = some 0x01021E02#32 ∧
    Asm.assembleLine "heading".toList = some 0x00000003#32 ∧
    Asm.assembleLine "sector".toList = some 0x00000004#32 ∧
    Asm.assembleLine "rdreg 0x80, 0x03".toList = none := by decide

/-! ## One step of each command (95, sections 2.3 to 2.5) -/

/-- T4: NACK of the second address byte with detection on. -/
theorem test_rdreg_nack_at_addrr :
    (orElse (turn (.bus .nack 0x00#8) (mid .rd .repeatedStart (some .addrr) true 0#32 (readPrefix 4))) .reset).status
      = { Status.reset with busy := true, phase := .repeatedStart, err := .deviceNotAck, errph := .addrRSent } := by
  decide
/-- T9f: the fifth wait cycle at STOP: ERRPH 9, REL, STATUS 0x00009012. -/
theorem test_rdreg_timeout_at_stop :
    (let s := mid .rd .dataReceived (some .stop) false 5#32 (readPrefix 6)
     let t := orElse (turn .ctl { s with wait := { s.wait with wcnt := 4#32 } }) .reset
     decide (t.status.word = 0x00009012#32) && decide (t.trace = readPrefix 6 ++ [.rel])) = true := by decide
/-- T11: NACK of the payload byte. -/
theorem test_wrreg_nack_at_txdata :
    (orElse (turn (.bus .nack 0x00#8) (mid .wr .regAddrSent (some .txdata) true 0#32 (writePrefix 3))) .reset).trace
      = writePrefix 3 ++ [.tx 0x01#8 .nack] := by decide
/-- T10, its last step: STATUS 0x00000002. -/
theorem test_wrreg_completes :
    (orElse (turn .ctl (mid .wr .stopSent none true 0#32 (writePrefix 5))) .reset).status.word = 0x00000002#32 := by
  decide
/-- H39: X = 1, Y = 41, whose result depends on the order of evaluation (R144). -/
theorem test_heading_order_sensitive :
    (let t := orElse (turn .ctl (heldHeading .hdg 0x0001#16 0x0029#16 0#64)) .reset
     decide (t.regs.hangleHi = 0x40562694#32) && decide (t.regs.hangleLo = 0x96074AE7#32) &&
       decide (t.regs.hsector = .east)) = true := by decide +kernel
/-- H36: X = 256, Y = -1. -/
theorem test_heading_general :
    (let t := orElse (turn .ctl (heldHeading .hdg 0x0100#16 0xFFFF#16 0#64)) .reset
     decide (t.regs.hangleHi = 0x40767C6B#32) && decide (t.regs.hangleLo = 0x45AE46A7#32) &&
       decide (t.regs.hsector = .north)) = true := by decide +kernel
/-- S11: 360.0 has no sector: STATUS 0x00000042. -/
theorem test_sector_360 :
    (let t := orElse (turn .ctl (heldHeading .sec 0#16 0#16 0x4076800000000000#64)) .reset
     decide (t.status.word = 0x00000042#32) && decide (t.regs.hsector = .none)) = true := by decide
/-- S10: the largest value below 360 is North. -/
theorem test_sector_below_360 :
    (let t := orElse (turn .ctl (heldHeading .sec 0#16 0#16 0x40767FFFFFFFFFFF#64)) .reset
     decide (t.status.word = 0x00000002#32) && decide (t.regs.hsector = .north)) = true := by decide

/-! ## The window and the step -/

/-- V5: only NACKE is stored. -/
theorem test_ctrl_keeps_bit_0 :
    readOff (orElse (access (.write 0x00#8 4 0xFFFFFFFF#32) .reset) .reset) 0x00#8 = 0x00000001#32 := by decide
/-- V11: a 16-bit store to CMD launches nothing and faults the HOST. -/
theorem test_narrow_store_refused :
    (let t := orElse (access (.write 0x08#8 2 0x00000003#32) .reset) .reset
     decide (t.status = Status.reset) && decide (t.host.fault = some (.write 0x08#8 2 0x00000003#32))) = true := by
  decide
/-- V12: an illegal word: STATUS 0x00000032. -/
theorem test_illegal_word :
    (orElse (access (.write 0x08#8 4 0x00000000#32) .reset) .reset).status.word = 0x00000032#32 := by decide
/-- A7: 0xFF, 0x38 is -200. -/
theorem test_axis_assembly : (assembleAxis 0xFF#8 0x38#8).toInt = -200 := by decide
/-- P7 with BUSY = 0 after its second load of STATUS: a store and a load are still to come, so it has not ended; it has when
no statement of the HOST is left, whatever other turns are. -/
theorem test_program_end :
    ¬ { State.reset with turns := [.host (.write 0x0C#8 4 0x00000004#32), .host (.read 0x0C#8 4)] }.ProgramEnded ∧
    { State.reset with turns := [.thread, .ctl, .bus .ack 0x00#8] }.ProgramEnded ∧
    ¬ (acceptOf .heading .reset).ProgramEnded := by decide
/-- Each table row's word, placed and stepped, is accepted: STATUS 0x00000001. -/
theorem test_placed_words_run :
    [0x00000001, 0x00000002, 0x00000003, 0x00000004].all
      (fun w => decide ((orElse (step (State.reset.withFetchWord 32 w)) .reset).status.word = 0x00000001#32)) = true := by
  decide
theorem test_placed_rdreg_runs :
    (orElse (step (State.reset.withFetchWord 32 0x00031E01)) .reset).latch.lreg = 0x03#8 := by decide

/-! ## Cases that meet the hypotheses of the statements -/

theorem witness_DecodeOfEncode : (Instr.wrreg 0x7F#7 0xFF#8 0xFF#8).wellFormed = true := by decide
theorem witness_EncodeOfDecode : decode 0xFFFF7F02#32 = .cmd (.wrreg 0x7F#7 0xFF#8 0xFF#8) := by decide
theorem witness_DecodeFollowsMaskMatchTable :
    opcodeRows.all (fun r => decide (r.value &&& r.mask = r.value) && (decode r.value).instr.isSome) = true := by decide
theorem witness_IllegalWordNamesItsCause :
    opField 0x00000000#32 = 0#4 ∧ opField 0x00000005#32 = 5#4 ∧ opField 0x0000000F#32 = 15#4 ∧
    opField 0x05031E01#32 = 1#4 ∧ opField 0x00000014#32 = 4#4 := by decide
theorem witness_AssemblerNeverTruncates :
    (Asm.rdreg 0x7F 0xFF).assemble = some 0x00FF7F01#32 ∧ (Asm.rdreg 0x80 0xFF).assemble = none ∧
    (Asm.rdreg 0x7F 0x100).assemble = none ∧ (Asm.wrreg 0x7F 0xFF 0xFF).assemble = some 0xFFFF7F02#32 ∧
    (Asm.wrreg 0x7F 0xFF 0x100).assemble = none := by decide
theorem witness_AcceptedCommandState : State.reset.status.busy = false := by decide
theorem witness_BusyCommandDropped :
    (mid .rd .startSent (some .addrw) false 0#32 (readPrefix 1)).status.busy = true := by decide
theorem witness_IllegalWordRejected :
    State.reset.status.busy = false ∧ decode 0x00000000#32 = .illegal .reservedOp ∧
    decode 0x05031E01#32 = .illegal .reservedBits := by decide
theorem witness_CmdStoreChoosesInOrder :
    (mid .rd .idle (some .start) false 0#32 []).status.busy = true ∧ State.reset.status.busy = false ∧
    decode 0x00000005#32 = .illegal .reservedOp ∧ decode 0x00000004#32 = .cmd .sector := by decide
theorem witness_StepRunsDecodedCommand :
    (withTurn (.host (.write 0x08#8 4 0x00031E01#32)) .reset).turns = [.host (.write 0x08#8 4 0x00031E01#32)] ∧
    State.reset.host.fault = none ∧ decode 0x00031E01#32 = .cmd (.rdreg 0x1E#7 0x03#8) ∧
    decodeTableWord 32 0x00031E01 = some (.rdreg 0x1E#7 0x03#8) ∧ decodeTableWord 32 3 = some .heading := by decide
/-- The three shapes of a request: without an answer, with one, and the received byte. -/
theorem witness_CompletedRequestAdvances :
    (let s := mid .rd .idle (some .start) false 0#32 []
     s.ControlInv ∧ s.onBus ∧ s.wait.req = some .start ∧ s.wait.reqst = .pending ∧ Req.start.answered = false) ∧
    (let s := mid .wr .addrWSent (some .txreg) true 0#32 (writePrefix 2)
     s.ControlInv ∧ s.onBus ∧ s.wait.req = some .txreg ∧ s.wait.reqst = .pending ∧ Req.txreg.answered = true) ∧
    (let s := mid .rd .ackDisabled (some .rxnack) false 0#32 (readPrefix 5)
     s.ControlInv ∧ s.onBus ∧ s.wait.req = some .rxnack ∧ s.wait.reqst = .pending ∧ Req.rxnack.answered = false) := by decide
theorem witness_NackWithDetectionAborts :
    (let s := mid .rd .repeatedStart (some .addrr) true 0#32 (readPrefix 4)
     s.wait.req = some .addrr ∧ s.wait.reqst = .pending ∧ Req.addrr.answered = true ∧ s.latch.lnacke = true) := by
  decide
theorem witness_NackWithoutDetectionStalls :
    (let s := mid .wr .regAddrSent (some .txdata) false 0#32 (writePrefix 3)
     s.wait.req = some .txdata ∧ s.wait.reqst = .pending ∧ Req.txdata.answered = true ∧ s.latch.lnacke = false) ∧
    (stuck 0#32).stalled = true := by decide
/-- Below the bound, at it, with no bound, and saturated. -/
theorem witness_WaitCycleCountsAndTimesOut :
    (let s := mid .rd .startSent (some .addrw) false 3#32 (readPrefix 1)
     s.wait.req = some .addrw ∧ (orElse (turn .ctl s) .reset).wait.wcnt = 1#32 ∧
     (orElse (turn .ctl { s with wait := { s.wait with wcnt := 2#32 } }) .reset).status.err = .busTimeout) ∧
    (let s := mid .rd .startSent (some .addrw) false 0#32 (readPrefix 1)
     (orElse (turn .ctl { s with wait := { s.wait with wcnt := 0xFFFFFFFF#32 } }) .reset).wait.wcnt = 0xFFFFFFFF#32) := by
  decide
theorem witness_InternalStepsOfTheController :
    (let s := mid .rd .addrRSent none false 0#32 (readPrefix 5)
     s.latch.lop = some .rd ∧ s.status.phase = .addrRSent ∧ s.wait.req = none) ∧
    (let s := mid .wr .stopSent none false 0#32 (writePrefix 5)
     s.status.phase = .stopSent ∧ s.wait.req = none) := by decide
/-- The last register of the map, with two waits under a bound of three and with no bound. -/
theorem witness_HealthyReadCompletes :
    (let s := { State.reset with regs := { Regs.reset with timeout := 3#32 } }
     s.status.busy = false ∧ s.status.phase = .idle ∧ (0x0C#8 : Byte).toNat ≤ 0x0C ∧
     WaitsWithin (fun _ => 2) s.regs.timeout) ∧ WaitsWithin (fun _ => 100) State.reset.regs.timeout :=
  ⟨⟨rfl, rfl, by decide, .inr (fun _ => show 2 < (3#32).toNat by decide)⟩, .inl rfl⟩
theorem witness_HealthyWriteCompletes :
    State.reset.status.busy = false ∧ State.reset.status.phase = .idle ∧ (0x02#8 : Byte).toNat ≤ 0x0C ∧
    WaitsWithin (fun _ => 0) State.reset.regs.timeout ∧
    WaitsWithin (fun _ => 0) 1#32 :=
  ⟨rfl, rfl, by decide, .inl rfl, .inr (fun _ => show 0 < (1#32).toNat by decide)⟩
theorem witness_ModeReadsBack :
    State.reset.status.busy = false ∧ State.reset.status.phase = .idle ∧
    WaitsWithin (fun _ => 5) State.reset.regs.timeout := ⟨rfl, rfl, .inl rfl⟩
theorem witness_NackAbortCompletes :
    (let s := mid .rd .startSent (some .addrw) true 0#32 (readPrefix 1)
     s.wait.req = some .addrw ∧ s.wait.reqst = .pending ∧ Req.addrw.answered = true ∧ s.latch.lnacke = true) := by
  decide
theorem witness_FirstErrorWinsOverTimeout :
    (let s := mid .rd .startSent (some .addrw) true 5#32 (readPrefix 1)
     s.wait.req = some .addrw ∧ s.wait.reqst = .pending ∧ Req.addrw.answered = true ∧ s.latch.lnacke = true ∧
     s.latch.ltout ≠ 0#32 ∧ owned s.trace = true) := by decide
/-- Each polling loop of R165, and the turn in which the HOST polls. -/
theorem witness_StalledRequestHangsUntilReset :
    ∀ op ∈ [HostOp.waitIdle, .waitDone],
      (let s := { stuck 0#32 with host := { HostSide.idle with script := [op] } }
       s.Hung ∧ s.Polling ∧ Turn.thread ≠ .reset ∧
       (match turn .thread s with | .next _ => true | .fault _ => false | .refused _ => false) = true) := by decide
theorem witness_BoundedCommandEndsForEveryBus :
    (stuck 1#32).ControlInv ∧ (stuck 1#32).WaitInv ∧ (stuck 1#32).onBus ∧ (stuck 1#32).latch.ltout ≠ 0#32 ∧
    (∀ u ∈ List.replicate 10 Turn.ctl, u = .ctl ∨ (∃ ans b, u = .bus ans b) ∨ ∃ ans b, u = .target ans b) ∧
    8 * (stuck 1#32).latch.ltout.toNat + 2 ≤ (List.replicate 10 Turn.ctl).count .ctl :=
  ⟨by decide, by decide, by decide, by decide, fun _ h => .inl (List.eq_of_mem_replicate h), by decide⟩

/-- An RDREG just accepted, with the START about to complete: a state of every invariant, with a step. -/
def accepted : State := withTurn (.bus .ack 0x00#8) (acceptOf (.rdreg 0x1E#7 0x03#8) .reset)

theorem witness_StepKeepsControl : (∃ s', step accepted = .next s') ∧ accepted.ControlInv := ⟨⟨_, rfl⟩, by decide⟩
theorem witness_StepKeepsTraceForms :
    (∃ s', step accepted = .next s') ∧ accepted.ControlInv ∧ accepted.TraceInv := ⟨⟨_, rfl⟩, by decide, by decide⟩
theorem witness_StepKeepsTargetInStep :
    (∃ s', step accepted = .next s') ∧ accepted.ControlInv ∧ accepted.TraceInv ∧ accepted.TargetInv := by
  refine ⟨⟨_, rfl⟩, by decide, by decide, ?_, ?_⟩
  · intro q h
    have hp : accepted.busPos = .closed := by decide
    rw [hp] at h
    simp [BusPos.targetAt] at h
    exact h
  · intro h
    exact absurd h (by decide)
theorem witness_StepKeepsErrorTable :
    (∃ s', step accepted = .next s') ∧ accepted.ControlInv ∧ accepted.ErrorInv := ⟨⟨_, rfl⟩, by decide, by decide⟩
theorem witness_StepKeepsWaitBelowBound :
    (let s := withTurn .ctl (mid .rd .startSent (some .addrw) false 3#32 (readPrefix 1))
     (∃ s', step s = .next s') ∧ s.ControlInv ∧ s.WaitInv) := ⟨⟨_, rfl⟩, by decide, by decide⟩
theorem witness_InvariantsOfTheBlock :
    (let s := mid .wr .regAddrSent (some .txdata) false 0#32 (writePrefix 3)
     s.ControlInv ∧ s.TraceInv) := by decide

/-- T1 at its RXNACK: RXDATA changes. -/
theorem witness_RxdataChangesOnlyOnReceive :
    (let s := withTurn (.bus .ack 0x7A#8) (mid .rd .ackDisabled (some .rxnack) false 0#32 (readPrefix 5))
     ∃ s', step s = .next s' ∧ s'.regs.rxdata ≠ s.regs.rxdata) := ⟨_, rfl, by decide⟩
/-- H2: HANGLE and HSECTOR both change. -/
theorem witness_HeadingResultsChangeOnlyOnCompletion :
    (let s := withTurn .ctl (heldHeading .hdg 0xFFCE#16 0x0000#16 0#64)
     ∃ s', step s = .next s' ∧ s'.regs.hangleHi ≠ s.regs.hangleHi ∧ s'.regs.hsector ≠ s.regs.hsector) :=
  ⟨_, rfl, by decide, by decide⟩
/-- V16, and V18's word presented with OVR set. -/
theorem witness_OverrunIsSticky :
    (let s := withTurn (.host (.write 0x0C#8 4 0x00000004#32)) (drop .reset)
     ∃ s', step s = .next s' ∧ s.status.ovr = true ∧ s'.status.ovr = false) ∧
    (∃ s', presentWord 0x00000000#32 (drop .reset) = .next s' ∧ (drop State.reset).status.ovr = true) :=
  ⟨⟨_, rfl, by decide, by decide⟩, _, rfl, by decide⟩
theorem witness_LatchesHeldWhileBusy :
    (let s := withTurn (.host (.write 0x14#8 4 0x00640064#32)) (heldHeading .hdg 0x0001#16 0x0002#16 0#64)
     (∃ s', step s = .next s') ∧ s.status.busy = true ∧ nextTurn s ≠ .reset) := ⟨⟨_, rfl⟩, by decide, by decide⟩
theorem witness_TraceOnlyGrows : ∃ s', step (withTurn .reset .reset) = .next s' := ⟨_, rfl⟩
/-- A byte load (V9), a misaligned load (V10), and the turns after them. -/
theorem witness_HostFaultIsNeverCleared :
    (Access.read 0x0C#8 1).width ≠ 4 ∧ (Access.read 0x0E#8 4).off.toNat % 4 ≠ 0 ∧
    (let s := withTurn .ctl (refuse (.read 0x0E#8 4) .reset)
     (∃ s', step s = .next s') ∧ s.host.fault = some (.read 0x0E#8 4)) :=
  ⟨by decide, by decide, ⟨_, rfl⟩, rfl⟩
/-- One offset of each clause: CTRL, a read/write register, each read-only register, CMD, and both ends of the
reserved range. -/
theorem witness_StoreThenLoadOfEachRegister :
    ∀ off ∈ [0x00#8, 0x04#8, 0x14#8, 0x18#8, 0x1C#8, 0x10#8, 0x20#8, 0x24#8, 0x28#8, 0x08#8, 0x2C#8, 0xFC#8],
      off.toNat % 4 = 0 ∧ off ≠ 0x0C#8 ∧
      (match access (.write off 4 0x12345678#32) .reset with | .next _ => true | .fault _ => false | .refused _ => false)
        = true := by decide
theorem witness_AccessesDoNothingElse :
    (0x0C#8 : BitVec 8).toNat % 4 = 0 ∧
    ((0xFC#8 : BitVec 8).toNat % 4 = 0 ∧ (0xFC#8 : BitVec 8) ≠ 0x08#8 ∧ (0xFC#8 : BitVec 8) ≠ 0x0C#8) := by decide
/-- HSECTOR, and both ends of the window. -/
theorem witness_ResetStepState :
    ∀ off ∈ [0x28#8, 0x00#8, 0xFC#8], off.toNat % 4 = 0 := by decide
theorem witness_HeadingWritesItsResult : State.reset.ControlInv ∧ State.reset.status.busy = false := by decide
theorem witness_SectorWritesItsResult :
    (let s := { State.reset with regs := { Regs.reset with hainHi := 0x40768000#32 } }
     s.ControlInv ∧ s.status.busy = false ∧ sectorOf (s.regs.hainHi ++ s.regs.hainLo) = .none) ∧
    sectorOf (State.reset.regs.hainHi ++ State.reset.regs.hainLo) = .north := by decide
/-- HXY and HAIN are stored to between acceptance and completion. -/
theorem witness_HeadingUndisturbedWhileBusy :
    State.reset.ControlInv ∧ State.reset.status.busy = false ∧
    (∀ u ∈ [Turn.host (.write 0x14#8 4 0x00640064#32), .host (.write 0x1C#8 4 0x40768000#32), .bus .ack 0x00#8],
      u ≠ .ctl ∧ u ≠ .reset) ∧
    (∃ s1 s2 t, exec .heading State.reset = .next s1 ∧
      runTurns [.host (.write 0x14#8 4 0x00640064#32), .host (.write 0x1C#8 4 0x40768000#32), .bus .ack 0x00#8] s1
        = .next s2 ∧ turn .ctl s2 = .next t) ∧
    (∃ s1 s2 t, exec .sector State.reset = .next s1 ∧
      runTurns [.host (.write 0x14#8 4 0x00640064#32), .host (.write 0x1C#8 4 0x40768000#32), .bus .ack 0x00#8] s1
        = .next s2 ∧ turn .ctl s2 = .next t) :=
  ⟨by decide, by decide, by decide, ⟨_, _, _, rfl, rfl, rfl⟩, ⟨_, _, _, rfl, rfl, rfl⟩⟩
theorem witness_HeadingOnTheAxes :
    (0x8000#16 : Sample).toInt < 0 ∧ 0 < (0x7FFF#16 : Sample).toInt ∧ hdg 0x8000#16 0#16 = f180 ∧
    hdg 0x7FFF#16 0#16 = f0 := by decide
theorem witness_HeadingOnTheDiagonals :
    (0 < (0x7FFF#16 : Sample).toInt ∧ (0x7FFF#16 : Sample).toInt = (0x7FFF#16 : Sample).toInt) ∧
    (0 < (0x7FFF#16 : Sample).toInt ∧ (0x8001#16 : Sample).toInt = -(0x7FFF#16 : Sample).toInt) ∧
    ((0x8000#16 : Sample).toInt < 0 ∧ (0x8000#16 : Sample).toInt = (0x8000#16 : Sample).toInt) ∧
    ((0x8001#16 : Sample).toInt < 0 ∧ (0x7FFF#16 : Sample).toInt = -(0x8001#16 : Sample).toInt) := by decide
theorem witness_HeadingExtremes : 0 < (0x0001#16 : Sample).toInt ∧ (0xFFFF#16 : Sample).toInt < 0 := by decide
/-- NaN, infinity, and a value in each range, at its lower end (S14, S1, S3, S5, S7, S9, S11). -/
theorem witness_SectorByValue :
    F64.isFinite 0x7FF8000000000000#64 = false ∧ F64.isFinite 0x7FF0000000000000#64 = false ∧
    [(0x8000000000000001#64, Sector.none), (0x0000000000000000#64, .north), (0x4046800000000000#64, .east),
      (0x4060E00000000000#64, .south), (0x406C200000000000#64, .west), (0x4073B00000000000#64, .north),
      (0x4076800000000000#64, .none)].all
      (fun p => F64.isFinite p.1 && decide (sectorOf p.1 = p.2)) = true := by decide
/-- Half a grid unit is a tie between 0 and 1, and the even one is 0. -/
theorem witness_RoundingIsToNearestEven :
    0 < 2 ∧ F64.roundMag 1 2 = 0 ∧ F64.roundMag 1 2 < F64.infMag ∧ 1 < F64.infMag ∧ F64.roundMag 3 2 = 2 := by decide
theorem witness_ArctangentIsOdd : F64.isNaN 0x7FF0000000000000#64 = false := by decide
theorem witness_ArctangentBelowHalfPi : F64.mag 0xC0E0000000000000#64 ≤ 0x40E0000000000000 := by decide
theorem witness_ArctangentCorrectlyRounded :
    F64.isFinite 0x3FF0000000000000#64 = true ∧ F64.isZero 0x3FF0000000000000#64 = false ∧
    0x3FF0000000000000 < F64.infMag ∧ F64.le 0x8000000000000001#64 0x7FF0000000000000#64 = true := by decide
theorem witness_AxisAssembly :
    (assembleAxis 0x7F#8 0xFF#8).toInt = 32767 ∧ (assembleAxis 0x80#8 0x00#8).toInt = -32768 := by decide
theorem witness_ComputeHeadingProcedure :
    State.reset.ControlInv ∧ State.reset.status.busy = false ∧ State.reset.host.fault = none ∧
    State.reset.host.script = [] ∧ ∀ u ∈ State.reset.turns, u.hostStatement = false := by decide
theorem witness_ReadProcedureOnHealthyBus :
    State.reset.ControlInv ∧ State.reset.status.busy = false ∧ State.reset.host.fault = none ∧
    State.reset.host.script = [] ∧ (0x0A#8 : Byte).toNat ≤ 0x0C ∧ WaitsWithin (fun _ => 1) State.reset.regs.timeout ∧
    ∀ u ∈ State.reset.turns, u.hostStatement = false :=
  ⟨by decide, rfl, rfl, rfl, by decide, .inl rfl, by decide⟩
theorem witness_ReadProcedureReportsNack :
    (let s := { State.reset with regs := { Regs.reset with nacke := true } }
     s.ControlInv ∧ s.status.busy = false ∧ s.host.fault = none ∧ s.host.script = [] ∧ s.regs.nacke = true ∧
     ∀ u ∈ s.turns, u.hostStatement = false) := by
  decide

end Sys2Proof.Tests
end

section
/-! SUPPORT. Rounding to binary64 (R11) is to nearest with ties to even. The values next to a rounded one are multiples
of its unit `2^u`, and there rounding to a natural number decides; the values of smaller units all lie below `2^52 * 2^u`,
which is such a multiple itself and no larger than the rounded fraction. -/

namespace Sys2Proof.F64

/-- Rounding is off by half at most, and by a half only to an even number. -/
theorem divNearestEven_bounds (n : Nat) {d : Nat} (hd : 0 < d) :
    2 * (divNearestEven n d * d) ≤ 2 * n + d ∧ 2 * n ≤ 2 * (divNearestEven n d * d) + d ∧
    (2 * (divNearestEven n d * d) = 2 * n + d ∨ 2 * n = 2 * (divNearestEven n d * d) + d →
      divNearestEven n d % 2 = 0) := by
  have e : n / d * d + n % d = n := Nat.div_add_mod' n d
  have l := Nat.mod_lt n hd
  have succ : (n / d + 1) * d = n / d * d + d := Nat.succ_mul _ _
  unfold divNearestEven
  simp only
  split_ifs with below above
  · omega
  · omega
  · rcases Nat.mod_two_eq_zero_or_one (n / d) with even | odd
    · rw [even, Nat.add_zero]; exact ⟨by omega, by omega, fun _ => even⟩
    · rw [odd]; omega

/-- Rounding gives a nearest natural number, and of two nearest the even one. -/
theorem divNearestEven_nearest (n : Nat) {d : Nat} (hd : 0 < d) (j : Nat) :
    ((divNearestEven n d * d : Nat) - n : Int).natAbs ≤ ((j * d : Nat) - n : Int).natAbs ∧
    (j ≠ divNearestEven n d →
      ((divNearestEven n d * d : Nat) - n : Int).natAbs = ((j * d : Nat) - n : Int).natAbs →
      divNearestEven n d % 2 = 0) := by
  obtain ⟨up, low, tie⟩ := divNearestEven_bounds n hd
  generalize divNearestEven n d = k at up low tie ⊢
  rcases lt_trichotomy j k with lt | rfl | gt
  · have : j * d + d ≤ k * d := by rw [← Nat.succ_mul]; exact Nat.mul_le_mul_right d lt
    omega
  · exact ⟨le_rfl, fun ne => absurd rfl ne⟩
  · have : k * d + d ≤ j * d := by rw [← Nat.succ_mul]; exact Nat.mul_le_mul_right d gt
    omega

/-- The value of a pattern given by its unit and its significand, a significand of `2^53` included. -/
theorem gridOfMag_unit {u k : Nat} (hi : k ≤ 2 ^ 53) (lo : 0 < u → 2 ^ 52 ≤ k) :
    gridOfMag (u * 2 ^ 52 + k) = k * 2 ^ u := by
  unfold gridOfMag
  rcases Nat.lt_or_ge k (2 ^ 52) with small | large
  · obtain rfl : u = 0 := by omega
    rw [if_pos (by omega)]; omega
  rcases hi.lt_or_eq with lt | rfl
  · have q : (u * 2 ^ 52 + k) / 2 ^ 52 = u + 1 := by omega
    have r : 2 ^ 52 + (u * 2 ^ 52 + k) % 2 ^ 52 = k := by omega
    rw [q, r, if_neg (by omega), Nat.add_sub_cancel]
  · have q : (u * 2 ^ 52 + 2 ^ 53) / 2 ^ 52 = u + 2 := by omega
    have r : (u * 2 ^ 52 + 2 ^ 53) % 2 ^ 52 = 0 := by omega
    rw [q, r, if_neg (by omega), show u + 2 - 1 = u + 1 by omega, pow_succ 2 u]
    omega

/-- Every pattern is a unit and a significand below `2^53`. -/
theorem exists_unit (m : Nat) : ∃ v j, m = v * 2 ^ 52 + j ∧ j < 2 ^ 53 ∧ (0 < v → 2 ^ 52 ≤ j) :=
  ⟨m / 2 ^ 52 - 1, m - (m / 2 ^ 52 - 1) * 2 ^ 52, by omega, by omega, by omega⟩

/-- Different magnitude bits, different magnitudes: the next pattern has one more unit. -/
theorem gridOfMag_strictMono : StrictMono gridOfMag := by
  refine strictMono_nat_of_lt_succ fun m => ?_
  obtain ⟨v, j, rfl, hi, lo⟩ := exists_unit m
  rw [gridOfMag_unit hi.le lo, Nat.add_assoc, gridOfMag_unit hi fun h => (lo h).trans j.le_succ]
  exact Nat.mul_lt_mul_of_pos_right j.lt_succ_self (Nat.two_pow_pos v)

/-- A value is a multiple of the unit `2^u`, or it is below `2^52` of them. -/
theorem gridOfMag_multiple_or_lt (m u : Nat) :
    (∃ j, gridOfMag m = j * 2 ^ u) ∨ 0 < u ∧ gridOfMag m < 2 ^ 52 * 2 ^ u := by
  obtain ⟨v, j, rfl, hi, lo⟩ := exists_unit m
  rw [gridOfMag_unit hi.le lo]
  rcases Nat.lt_or_ge v u with lt | ge
  · refine .inr ⟨by omega, ?_⟩
    calc j * 2 ^ v < 2 ^ 53 * 2 ^ v := Nat.mul_lt_mul_of_pos_right hi (Nat.two_pow_pos v)
      _ = 2 ^ 52 * 2 ^ (v + 1) := by ring
      _ ≤ 2 ^ 52 * 2 ^ u := Nat.mul_le_mul_left _ (Nat.pow_le_pow_right two_pos lt)
  · exact .inl ⟨j * 2 ^ (v - u), by rw [Nat.mul_assoc, ← pow_add, Nat.sub_add_cancel ge]⟩

/-- A fraction whose unit is more than the grid's is at least `2^52` units. -/
theorem unit_le {n d u : Nat} (hd : 0 < d) (hu : u = (n / d).log2 - 52) (pos : 0 < u) :
    2 ^ 52 * (d * 2 ^ u) ≤ n := by
  have q : 2 ^ (u + 52) ≤ n / d := by
    rw [show u + 52 = (n / d).log2 by omega]
    exact Nat.log2_self_le fun z => by simp [z] at hu; omega
  calc 2 ^ 52 * (d * 2 ^ u) = 2 ^ (u + 52) * d := by ring
    _ ≤ n := (Nat.le_div_iff_mul_le hd).1 q

/-- A finite rounded magnitude is the rounded significand at the fraction's unit. -/
theorem exists_unit_roundMag {n d : Nat} (hd : 0 < d) (fin : roundMag n d < infMag) :
    ∃ u, (0 < u → 2 ^ 52 * (d * 2 ^ u) ≤ n) ∧
      roundMag n d = u * 2 ^ 52 + divNearestEven n (d * 2 ^ u) ∧
      gridOfMag (roundMag n d) = divNearestEven n (d * 2 ^ u) * 2 ^ u := by
  obtain ⟨u, hu⟩ : ∃ u, u = (n / d).log2 - 52 := ⟨_, rfl⟩
  obtain ⟨hi, lo⟩ := significand_bounds hd hu
  have eq : roundMag n d = u * 2 ^ 52 + divNearestEven n (d * 2 ^ u) := by
    simp only [roundMag, ← hu] at fin ⊢
    exact min_eq_left_of_lt ((min_lt_iff.1 fin).resolve_right (lt_irrefl _))
  exact ⟨u, unit_le hd hu, eq, by rw [eq, gridOfMag_unit hi lo]⟩

/-- Settles O52: against a multiple of the rounded value's unit by `divNearestEven_nearest`, and against a value of a smaller
unit because `2^52` units lie between it and the fraction. -/
theorem roundingIsToNearestEven : Obligations.RoundingIsToNearestEven := by
  intro n d m hd fin _
  obtain ⟨u, ge, eq, value⟩ := exists_unit_roundMag hd fin
  have near := divNearestEven_nearest n (Nat.mul_pos hd (Nat.two_pow_pos u))
  have even : roundMag n d % 2 = divNearestEven n (d * 2 ^ u) % 2 := by omega
  have scale (j : Nat) : ((j * 2 ^ u : Nat) * d : Int) = (j * (d * 2 ^ u) : Nat) := by push_cast; ring
  rw [even, value, scale]
  rcases gridOfMag_multiple_or_lt m u with ⟨j, hj⟩ | ⟨pos, lt⟩
  · rw [hj, scale]
    refine ⟨(near j).1, fun ne => (near j).2 ?_⟩
    rintro rfl
    exact ne (gridOfMag_strictMono.injective (hj.trans value.symm))
  · have below : gridOfMag m * d < 2 ^ 52 * (d * 2 ^ u) := by
      rw [Nat.mul_comm d, ← Nat.mul_assoc]; exact Nat.mul_lt_mul_of_pos_right lt hd
    have := ge pos
    have := (near (2 ^ 52)).1
    rw [← Nat.cast_mul]
    omega

end Sys2Proof.F64
end

section
/-! SUPPORT. What each agent's turn leaves in each part of the block: the HOST's, CTL's and BUS's, on top of the case lemmas of
Laws/Ops.lean and Laws/Agents.lean. -/

namespace Sys2Proof.Machine

variable (i : Instr) (ans : Ack) (b : Byte) (s : State)

/-! Acceptance (R92). -/

@[simp] theorem acceptOf_regs : (acceptOf i s).regs = s.regs := by cases i <;> rfl

@[simp] theorem acceptOf_status :
    (acceptOf i s).status = { s.status with busy := true, done := false, err := .none, errph := .idle } := by
  cases i <;> rfl

@[simp] theorem acceptOf_trace : (acceptOf i s).trace = s.trace := by cases i <;> rfl

/-! The turns of the HOST. -/

namespace HostEffect

variable {s t : State}

/-- R53: no access of the HOST changes a register that is read-only to it. -/
theorem readOnly_regs (h : HostEffect s t) :
    t.regs.rxdata = s.regs.rxdata ∧ t.regs.hangleLo = s.regs.hangleLo ∧ t.regs.hangleHi = s.regs.hangleHi ∧
      t.regs.hsector = s.regs.hsector := by
  cases h with
  | store _ _ hr => exact hr
  | accepted _ i _ => simp
  | quiet | clearOvr | dropped | rejected => exact ⟨rfl, rfl, rfl, rfl⟩

/-- R37 to R39: with BUSY = 1 no access of the HOST changes a latch. -/
theorem latch_of_busy (h : HostEffect s t) (busy : s.status.busy = true) : t.latch = s.latch := by
  cases h with
  | accepted _ _ idle => simp [busy] at idle
  | quiet | store | clearOvr | dropped | rejected => rfl

/-- R16: the HOST is not on the bus. -/
theorem trace_eq (h : HostEffect s t) : t.trace = s.trace := by
  cases h with
  | accepted _ i _ => simp
  | quiet | store | clearOvr | dropped | rejected => rfl

end HostEffect

/-! The steps of CTL: a wait cycle, and the steps that end a command. -/

@[simp] theorem complete_regs : (complete s).regs = s.regs := rfl
@[simp] theorem complete_status :
    (complete s).status = { s.status with phase := .idle, busy := false, done := true } := rfl
@[simp] theorem complete_latch : (complete s).latch = { s.latch with lop := none } := rfl
@[simp] theorem complete_wait : (complete s).wait = { s.wait with abort := false } := rfl
@[simp] theorem complete_trace : (complete s).trace = s.trace := rfl

@[simp] theorem ackDisable_regs : (ackDisable s).regs = s.regs := rfl
@[simp] theorem ackDisable_status : (ackDisable s).status = { s.status with phase := .ackDisabled } := rfl
@[simp] theorem ackDisable_latch : (ackDisable s).latch = s.latch := rfl
@[simp] theorem ackDisable_wait :
    (ackDisable s).wait = { s.wait with req := some .rxnack, reqst := .pending, wcnt := 0#32 } := rfl
@[simp] theorem ackDisable_trace : (ackDisable s).trace = s.trace := rfl

@[simp] theorem completeHeading_regs : (completeHeading s).regs =
    { s.regs with
      hangleLo := loWord (hdg s.latch.lx s.latch.ly), hangleHi := hiWord (hdg s.latch.lx s.latch.ly)
      hsector := sectorOf (hdg s.latch.lx s.latch.ly) } := rfl
@[simp] theorem completeHeading_status :
    (completeHeading s).status = { s.status with busy := false, done := true } := rfl
@[simp] theorem completeHeading_latch : (completeHeading s).latch = { s.latch with lop := none } := rfl
@[simp] theorem completeHeading_wait : (completeHeading s).wait = { s.wait with abort := false } := rfl
@[simp] theorem completeHeading_trace : (completeHeading s).trace = s.trace := rfl

@[simp] theorem completeSector_regs :
    (completeSector s).regs = { s.regs with hsector := sectorOf s.latch.lain } := by
  unfold completeSector; dsimp only; split <;> rfl
theorem completeSector_status : (completeSector s).status =
    { busy := false, done := true, ovr := s.status.ovr, phase := s.status.phase
      err := if sectorOf s.latch.lain = .none then .angleDomain else s.status.err
      errph := if sectorOf s.latch.lain = .none then .idle else s.status.errph } := by
  unfold completeSector; dsimp only; split <;> rfl
@[simp] theorem completeSector_latch : (completeSector s).latch = { s.latch with lop := none } := by
  unfold completeSector; dsimp only; split <;> rfl
@[simp] theorem completeSector_wait : (completeSector s).wait = { s.wait with abort := false } := by
  unfold completeSector; dsimp only; split <;> rfl
@[simp] theorem completeSector_trace : (completeSector s).trace = s.trace := by
  unfold completeSector; dsimp only; split <;> rfl

@[simp] theorem waitCycle_regs (q : Req) : (waitCycle q s).regs = s.regs := by
  rcases waitCycle_cases s q with ⟨h, -⟩ | ⟨h, -⟩ <;> simp [h]

@[simp] theorem waitCycle_ovr (q : Req) : (waitCycle q s).status.ovr = s.status.ovr := by
  rcases waitCycle_cases s q with ⟨h, -⟩ | ⟨h, -⟩ <;> simp [h, timeout_status]

theorem waitCycle_latch (q : Req) : (waitCycle q s).latch = { s.latch with lop := (waitCycle q s).latch.lop } := by
  rcases waitCycle_cases s q with ⟨h, -⟩ | ⟨h, -⟩ <;> simp [h]

/-- R26: no step of CTL changes OVR. -/
@[simp] theorem ctlStep_ovr : (ctlStep s).status.ovr = s.status.ovr := by
  rcases ctlStep_cases s with ⟨q, -, h⟩ | ⟨-, -, h⟩ | ⟨-, -, -, h⟩ | ⟨-, -, h⟩ | ⟨-, -, h⟩ | h <;>
    simp [h, completeSector_status]

/-- R31: no step of CTL changes RXDATA. -/
@[simp] theorem ctlStep_rxdata : (ctlStep s).regs.rxdata = s.regs.rxdata := by
  rcases ctlStep_cases s with ⟨q, -, h⟩ | ⟨-, -, h⟩ | ⟨-, -, -, h⟩ | ⟨-, -, h⟩ | ⟨-, -, h⟩ | h <;> simp [h]

/-- R37 to R39: a step of CTL changes no latch but `lop`. -/
theorem ctlStep_latch : (ctlStep s).latch = { s.latch with lop := (ctlStep s).latch.lop } := by
  rcases ctlStep_cases s with ⟨q, -, h⟩ | ⟨-, -, h⟩ | ⟨-, -, -, h⟩ | ⟨-, -, h⟩ | ⟨-, -, h⟩ | h
  · rw [h]; exact waitCycle_latch s q
  all_goals simp [h]

/-- R34, R35: a step of CTL that changes HANGLE or HSECTOR completes HEADING or SECTOR. -/
theorem ctlStep_results :
    ((ctlStep s).regs = s.regs) ∨
    (s.latch.lop = some .hdg ∧ (ctlStep s).status.done = true) ∨
    (s.latch.lop = some .sec ∧ (ctlStep s).status.done = true ∧
      (ctlStep s).regs = { s.regs with hsector := sectorOf s.latch.lain }) := by
  rcases ctlStep_cases s with ⟨q, -, h⟩ | ⟨-, -, h⟩ | ⟨-, -, -, h⟩ | ⟨-, hl, h⟩ | ⟨-, hl, h⟩ | h <;> rw [h]
  · exact .inl (by simp)
  · exact .inl rfl
  · exact .inl rfl
  · exact .inr (.inl ⟨hl, rfl⟩)
  · exact .inr (.inr ⟨hl, by simp [completeSector_status], completeSector_regs s⟩)
  · exact .inl rfl

/-- R43: `tr'` is `tr` with at most one event more. -/
def Extends (tr tr' : List BusEvent) : Prop := ∃ es, tr' = tr ++ es ∧ es.length ≤ 1

theorem Extends.refl (tr : List BusEvent) : Extends tr tr := ⟨[], by simp, by simp⟩

theorem Extends.snoc (tr : List BusEvent) (e : BusEvent) : Extends tr (tr ++ [e]) := ⟨[e], rfl, le_rfl⟩

/-- R114, R200: a release puts REL on the trace, or nothing. -/
theorem release_extends : Extends s.trace (release s).trace := by
  rw [release_trace]
  split
  · exact .snoc _ _
  · simpa using Extends.refl _

/-- R113, R114: a step of CTL puts REL on the trace, or nothing. -/
theorem ctlStep_extends : Extends s.trace (ctlStep s).trace := by
  rcases ctlStep_cases s with ⟨q, -, h⟩ | ⟨-, -, h⟩ | ⟨-, -, -, h⟩ | ⟨-, -, h⟩ | ⟨-, -, h⟩ | h <;> rw [h]
  · rcases waitCycle_cases s q with ⟨h, -⟩ | ⟨h, -⟩ <;> rw [h]
    · exact .refl _
    · rw [timeout_trace]; exact release_trace s ▸ release_extends s
  · exact .refl _
  · exact .refl _
  · exact .refl _
  · simpa using Extends.refl _
  · exact .refl _

/-! The steps of BUS. -/

@[simp] theorem nackAbort_regs (q : Req) : (nackAbort q s).regs = s.regs := rfl
@[simp] theorem nackAbort_status (q : Req) :
    (nackAbort q s).status = { s.status with err := .deviceNotAck, errph := q.phase } := rfl
@[simp] theorem nackAbort_latch (q : Req) : (nackAbort q s).latch = s.latch := rfl
@[simp] theorem nackAbort_wait (q : Req) :
    (nackAbort q s).wait = { req := some .stop, reqst := .pending, wcnt := 0#32, abort := true } := rfl
@[simp] theorem nackAbort_trace (q : Req) : (nackAbort q s).trace = s.trace := rfl

/-- R26: no step of BUS changes OVR. -/
@[simp] theorem busStep_ovr : (busStep ans b s).status.ovr = s.status.ovr := by
  rcases busStep_cases s ans b with ⟨h, -⟩ | ⟨q, -, -, ⟨-, -, -, h⟩ | ⟨-, -, -, h⟩ | ⟨-, h⟩⟩ <;> simp [h]

/-- R37 to R39: no step of BUS changes a latch. -/
@[simp] theorem busStep_latch : (busStep ans b s).latch = s.latch := by
  rcases busStep_cases s ans b with ⟨h, -⟩ | ⟨q, -, -, ⟨-, -, -, h⟩ | ⟨-, -, -, h⟩ | ⟨-, h⟩⟩ <;> simp [h]

/-- R95: a step of BUS puts the completed request's event on the trace, or nothing. -/
theorem busStep_extends : Extends s.trace (busStep ans b s).trace := by
  rcases busStep_cases s ans b with ⟨h, -⟩ | ⟨q, -, -, ⟨-, -, -, h⟩ | ⟨-, -, -, h⟩ | ⟨-, h⟩⟩ <;> rw [h]
  · exact .refl _
  · simpa using Extends.snoc _ _
  · simpa using Extends.snoc _ _
  · simpa using Extends.snoc _ _

/-- R31, R108: a step of BUS changes no register but RXDATA, and that one as RXNACK completes. -/
theorem busStep_regs :
    (busStep ans b s).regs = s.regs ∨
    (s.wait.req = some .rxnack ∧ s.wait.reqst = .pending ∧ (busStep ans b s).status.phase = .dataReceived ∧
      (busStep ans b s).regs = { s.regs with rxdata := b }) := by
  rcases busStep_cases s ans b with ⟨h, -⟩ | ⟨q, hq, hp, ⟨-, -, -, h⟩ | ⟨-, -, -, h⟩ | ⟨-, h⟩⟩ <;> rw [h]
  · exact .inl rfl
  · exact .inl rfl
  · exact .inl rfl
  · by_cases e : q = .rxnack
    · subst e; exact .inr ⟨hq, hp, by simp [Req.phase], by simp [advance_regs]⟩
    · exact .inl (by simp [advance_regs, e])

end Sys2Proof.Machine
end

section
/-! SUPPORT. The control invariant (R46, R110 to R112): what a row of R110's table says, how a completed request moves from
row to row, and each agent's turn. -/

namespace Sys2Proof.Machine

variable {s t : State} {lop : Option Op} {abort : Bool} {ph : Phase} {q : Req} {req : Option Req}

/-- R28, R46: off the bus the controller is idle and asks for nothing. -/
theorem idle_of_sequenced (h : sequenced lop abort ph req = true) (off : ¬ (lop = some .rd ∨ lop = some .wr)) :
    abort = false ∧ ph = .idle ∧ req = none := by
  match lop with
  | some .rd | some .wr => simp at off
  | some .hdg | some .sec | none => simpa [sequenced, and_assoc] using h

/-- R46 item 3: only a bus command has a request. -/
theorem onBus_of_request (h : sequenced lop abort ph (some q) = true) : lop = some .rd ∨ lop = some .wr := by
  by_contra off
  simpa using (idle_of_sequenced h off).2.2

/-- What is true of each row of R110's and R111's tables that has a request is true wherever a request waits. -/
theorem of_requestRow {P : Option Op → Bool → Phase → Req → Bool}
    (read : ∀ r ∈ readRows, r.2.all (P (some .rd) false r.1) = true)
    (readAbort : ∀ r ∈ readAbortRows, r.2.all (P (some .rd) true r.1) = true)
    (write : ∀ r ∈ writeRows, r.2.all (P (some .wr) false r.1) = true)
    (writeAbort : ∀ r ∈ writeAbortRows, r.2.all (P (some .wr) true r.1) = true)
    (h : sequenced lop abort ph (some q) = true) : P lop abort ph q = true := by
  rcases onBus_of_request h with rfl | rfl <;> cases abort
  · exact read _ (of_decide_eq_true h)
  · exact readAbort _ (of_decide_eq_true h)
  · exact write _ (of_decide_eq_true h)
  · exact writeAbort _ (of_decide_eq_true h)

/-- R110: a request that completes well leads to the row of the phase it enters and of the request that follows. -/
theorem sequenced_nextReq (h : sequenced lop abort ph (some q) = true) :
    sequenced lop abort q.phase (nextReq lop q) = true :=
  of_requestRow (P := fun lop abort _ q => sequenced lop abort q.phase (nextReq lop q))
    (by decide) (by decide) (by decide) (by decide) h

/-- R111: where a NACK can come there is a row for the STOP that ends the transaction. -/
theorem sequenced_abort (h : sequenced lop abort ph (some q) = true) (answered : q.answered = true) :
    sequenced lop true ph (some .stop) = true := by
  have := of_requestRow (P := fun lop _ ph q => !q.answered || sequenced lop true ph (some .stop))
    (by decide) (by decide) (by decide) (by decide) h
  simpa [answered] using this

/-- R46: with no command latched and the controller idle, the control invariant holds. -/
theorem controlInv_of_ended (busy : s.status.busy = false) (lop : s.latch.lop = none) (abort : s.wait.abort = false)
    (phase : s.status.phase = .idle) (req : s.wait.req = none) : s.ControlInv := by
  simp [State.ControlInv, State.stalled, sequenced, busy, lop, abort, phase, req]

/-- R92: a command is accepted where none is latched, and starts at the first row of its table. -/
theorem acceptOf_controlInv (i : Instr) (hs : s.ControlInv) (idle : s.status.busy = false) :
    (acceptOf i s).ControlInv := by
  obtain ⟨busy, row, -, -⟩ := hs
  have off : s.latch.lop = none := by simpa [idle] using busy
  obtain ⟨-, phase, req⟩ := idle_of_sequenced row (by simp [off])
  cases i <;>
    simp [State.ControlInv, State.stalled, acceptOf, acceptRdreg, acceptWrreg, acceptHeading, acceptSector, sequenced,
      readRows, writeRows, phase, req]

theorem HostEffect.controlInv (h : HostEffect s t) (hs : s.ControlInv) : t.ControlInv := by
  cases h with
  | accepted _ i idle => exact acceptOf_controlInv i hs idle
  | quiet | store | clearOvr | dropped | rejected => exact hs

/-- R106: only a read that no NACK has ended goes on to ACK_DISABLED. -/
theorem ackDisable_controlInv (hs : s.ControlInv) (req : s.wait.req = none) (lop : s.latch.lop = some .rd)
    (phase : s.status.phase = .addrRSent) : (ackDisable s).ControlInv := by
  obtain ⟨busy, row, -, abort⟩ := hs
  have going : s.wait.abort = false := by
    rw [lop, phase, req] at row
    cases h : s.wait.abort with
    | false => rfl
    | true => rw [h] at row; exact absurd row (by decide)
  simp [State.ControlInv, State.stalled, sequenced, readRows, lop, going, busy]

theorem ctlStep_controlInv (hs : s.ControlInv) : (ctlStep s).ControlInv := by
  have row := hs.2.1
  rcases ctlStep_cases s with ⟨q, -, h⟩ | ⟨req, -, h⟩ | ⟨req, lop, phase, h⟩ | ⟨req, lop, h⟩ | ⟨req, lop, h⟩ | h <;>
    rw [h]
  · rcases waitCycle_cases s q with ⟨h, -⟩ | ⟨h, -⟩ <;> rw [h]
    · exact hs
    · exact controlInv_of_ended (by simp [timeout_status]) (by simp) (by simp) (by simp [timeout_status]) (by simp)
  · exact controlInv_of_ended rfl rfl rfl rfl req
  · exact ackDisable_controlInv hs req lop phase
  · exact controlInv_of_ended rfl rfl rfl (idle_of_sequenced row (by simp [lop])).2.1 req
  · have phase := (idle_of_sequenced row (by simp [lop])).2.1
    exact controlInv_of_ended (by simp [completeSector_status]) (by simp) (by simp)
      (by simpa [completeSector_status] using phase) (by simpa using req)
  · exact hs

/-- R110 to R112: a completed request moves to the next row, to the STOP of an abort, or is stalled. -/
theorem busStep_controlInv (ans : Ack) (b : Byte) (hs : s.ControlInv) : (busStep ans b s).ControlInv := by
  obtain ⟨busy, row, -, abort⟩ := id hs
  rcases busStep_cases s ans b with ⟨h, -⟩ | ⟨q, req, -, step⟩
  · rwa [h]
  rw [req] at row
  rcases step with ⟨answered, -, nacke, h⟩ | ⟨answered, -, nacke, h⟩ | ⟨-, h⟩ <;> rw [h]
  · simpa [State.ControlInv, State.stalled, nacke] using ⟨busy, sequenced_abort row answered⟩
  · have going : s.wait.abort = false := by simpa [nacke] using abort
    simpa [State.ControlInv, State.stalled, nacke, going, req, answered] using ⟨busy, going ▸ row⟩
  · have next := sequenced_nextReq row
    have wait := advance_wait q b (emit (q.event s.latch ans b) s) (onBus_of_request row)
    cases follow : nextReq s.latch.lop q <;> simp only [emit_latch, follow] at wait <;>
      simpa [State.ControlInv, State.stalled, wait] using ⟨busy, follow ▸ next, abort⟩

theorem resetStep_controlInv (s : State) : (resetStep s).ControlInv :=
  controlInv_of_ended rfl rfl rfl rfl rfl

/-- Settles O26: each agent's turn keeps the invariant. -/
theorem stepKeepsControl : Obligations.StepKeepsControl := by
  intro s s' h hs
  refine step_keeps (P := State.ControlInv) (fun s hs => by simpa [State.ControlInv, State.stalled] using hs) ?_ h hs
  intro u s s' h hs
  rcases turn_cases h with ⟨-, -, host⟩ | ⟨-, rfl⟩ | ⟨ans, b, -, rfl⟩ | ⟨-, rfl⟩
  · exact host.controlInv hs
  · exact ctlStep_controlInv hs
  · exact busStep_controlInv ans b hs
  · exact resetStep_controlInv s

end Sys2Proof.Machine
end

section
/-! SUPPORT. The rules about the whole machine: R46 from the step invariants, and what a step can change in RXDATA, in HANGLE and
HSECTOR (R31, R34, R35), in the latches (R37 to R39) and in the trace (R43). -/

namespace Sys2Proof.Machine

/-- R43, R59: where the controller is idle the bus is not owned. -/
theorem not_owned_of_idle {s : State} (trace : s.TraceInv) (abort : s.wait.abort = false) (phase : s.status.phase = .idle)
    (req : s.wait.req = none) : owned s.trace = false := by
  rw [owned_of_scan _ _ trace]
  simp [State.busPos, State.stalled, abort, phase, req]

/-- Settles O31: off the bus the controller is idle (R110), and then no transaction is open (R59). -/
theorem invariantsOfTheBlock : Obligations.InvariantsOfTheBlock := by
  intro s control trace
  obtain ⟨busy, row, -, -⟩ := control
  have idle (off : ¬ s.onBus) := idle_of_sequenced row off
  refine ⟨busy, fun phase => ?_, fun req => ?_, fun own => ?_⟩ <;> by_contra off <;> obtain ⟨abort, hp, hq⟩ := idle off
  · exact phase hp
  · exact req hq
  · simp [not_owned_of_idle trace abort hp hq] at own

/-- Settles O32. -/
theorem resetMeetsInvariants : Obligations.ResetMeetsInvariants := by
  have control : State.reset.ControlInv := controlInv_of_ended rfl rfl rfl rfl rfl
  have trace : State.reset.TraceInv := rfl
  refine ⟨control, trace, ⟨fun q h => ?_, fun h => ?_⟩, by decide, by decide, invariantsOfTheBlock _ control trace⟩
  · exact Option.some.inj h
  · exact absurd h (by decide)

/-- Settles O33: of the agents, only BUS writes RXDATA. -/
theorem rxdataChangesOnlyOnReceive : Obligations.RxdataChangesOnlyOnReceive := by
  intro s s' h changed
  rcases turn_cases h with ⟨-, -, host⟩ | ⟨-, rfl⟩ | ⟨ans, b, -, rfl⟩ | ⟨reset, -⟩
  · exact absurd host.readOnly_regs.1 (by simpa using changed)
  · simp at changed
  · rcases busStep_regs ans b (popTurn s) with same | ⟨req, pending, phase, -⟩
    · simp [same] at changed
    · exact .inr ⟨by simpa using req, by simpa using pending, phase⟩
  · exact .inl reset

/-- R34, R35: HANGLE and HSECTOR change only as HEADING or SECTOR completes, HANGLE not with SECTOR. -/
theorem step_results {s s' : State} (h : step s = .next s') :
    nextTurn s = .reset ∨
    (nextTurn s = .ctl ∧ s.latch.lop = some .hdg ∧ s'.status.done = true) ∨
    ((s'.regs.hangleLo = s.regs.hangleLo ∧ s'.regs.hangleHi = s.regs.hangleHi) ∧
      (s'.regs.hsector = s.regs.hsector ∨
        nextTurn s = .ctl ∧ s.latch.lop = some .sec ∧ s'.status.done = true)) := by
  rcases turn_cases h with ⟨-, -, host⟩ | ⟨ctl, rfl⟩ | ⟨ans, b, -, rfl⟩ | ⟨reset, -⟩
  · obtain ⟨-, lo, hi, sec⟩ := host.readOnly_regs
    simp [lo, hi, sec]
  · rcases ctlStep_results (popTurn s) with same | ⟨lop, done⟩ | ⟨lop, done, regs⟩
    · simp [same]
    · exact .inr (.inl ⟨ctl, by simpa using lop, done⟩)
    · exact .inr (.inr ⟨by simp [regs], .inr ⟨ctl, by simpa using lop, done⟩⟩)
  · rcases busStep_regs ans b (popTurn s) with same | ⟨-, -, -, regs⟩
    · simp [same]
    · simp [regs]
  · exact .inl reset

/-- Settles O34. -/
theorem headingResultsChangeOnlyOnCompletion : Obligations.HeadingResultsChangeOnlyOnCompletion := by
  intro s s' h
  rcases step_results h with reset | heading | ⟨⟨lo, hi⟩, sector⟩
  · exact ⟨fun _ => .inl reset, fun _ => .inl reset⟩
  · obtain ⟨ctl, lop, done⟩ := heading
    exact ⟨fun _ => .inr ⟨ctl, lop, done⟩, fun _ => .inr ⟨ctl, .inl lop, done⟩⟩
  · refine ⟨fun changed => ?_, fun changed => ?_⟩
    · simp [lo, hi] at changed
    · obtain ⟨ctl, lop, done⟩ := sector.resolve_left changed
      exact .inr ⟨ctl, .inr lop, done⟩

/-- Settles O36: while a command runs only a step of CTL touches the latches, and it touches `lop` alone. -/
theorem latchesHeldWhileBusy : Obligations.LatchesHeldWhileBusy := by
  intro s s' h busy notReset
  rcases turn_cases h with ⟨-, -, host⟩ | ⟨-, rfl⟩ | ⟨ans, b, -, rfl⟩ | ⟨reset, -⟩
  · simp [host.latch_of_busy (by simpa using busy)]
  · simpa using ctlStep_latch (popTurn s)
  · simp
  · exact absurd reset notReset

/-- Settles O37: a step of BUS records one event, a timeout and a reset at most REL, and the HOST nothing. -/
theorem traceOnlyGrows : Obligations.TraceOnlyGrows := by
  intro s s' h
  change Extends s.trace s'.trace
  rw [← popTurn_trace]
  rcases turn_cases h with ⟨-, -, host⟩ | ⟨-, rfl⟩ | ⟨ans, b, -, rfl⟩ | ⟨-, rfl⟩
  · rw [host.trace_eq]; exact .refl _
  · exact ctlStep_extends _
  · exact busStep_extends _ _ _
  · exact release_extends _

end Sys2Proof.Machine
end

section
/-! SUPPORT. The register window: the offset of each register (R20), what clears OVR (R26, R30), and what a load returns after
a store (R21 to R35). -/

namespace Sys2Proof.Machine

/-- R20: the offset of a register. -/
def Reg.offset : Reg → BitVec 8
  | .ctrl => 0x00#8
  | .timeout => 0x04#8
  | .cmd => 0x08#8
  | .status => 0x0C#8
  | .rxdata => 0x10#8
  | .hxy => 0x14#8
  | .hainLo => 0x18#8
  | .hainHi => 0x1C#8
  | .hangleLo => 0x20#8
  | .hangleHi => 0x24#8
  | .hsector => 0x28#8

@[simp] theorem ofOffset_offset (r : Reg) : Reg.ofOffset r.offset = some r := by cases r <;> rfl

/-- R20: each register is at its own offset and no other. -/
theorem eq_offset_of_ofOffset {off : BitVec 8} {r : Reg} (h : Reg.ofOffset off = some r) : off = r.offset := by
  unfold Reg.ofOffset at h
  iterate 11
    rcases ite_eq_iff.1 h with ⟨eq, found⟩ | ⟨-, h⟩
    · cases found; exact eq
  cases h

/-- R53: a reserved offset is no register's. -/
theorem ne_offset_of_reserved {off : BitVec 8} (h : Reg.ofOffset off = none) (r : Reg) : off ≠ r.offset := by
  rintro rfl
  simp at h

/-! OVR. -/

variable {s t : State} {v w : Word} {off : BitVec 8} {r : Reg}

/-- R26: a word presented as a command never clears OVR. -/
theorem presentWord_keeps_ovr (h : presentWord w s = .next t) (ovr : s.status.ovr = true) : t.status.ovr = true := by
  rcases presentWord_next h with ⟨-, rfl⟩ | ⟨-, rfl⟩ | ⟨i, -, -, rfl⟩ <;> simp [ovr]

/-- R30: of the stores to registers, only one to STATUS with bit 2 = 1 clears OVR. -/
theorem writeReg_ovr (h : writeReg r v s = .next t) (ovr : s.status.ovr = true) :
    t.status.ovr = true ∨ r = .status ∧ v.getLsbD 2 = true := by
  cases r with
  | cmd => exact .inl (presentWord_keeps_ovr h ovr)
  | status =>
    injection h with h; subst h
    unfold writeStatus
    split
    · exact .inr ⟨rfl, ‹_›⟩
    · exact .inl ovr
  | ctrl | timeout | hxy | hainLo | hainHi | rxdata | hangleLo | hangleHi | hsector =>
    injection h with h; subst h; exact .inl ovr

/-- R26, R30, R52: of the accesses, only a 32-bit store to STATUS with bit 2 = 1 clears OVR. -/
theorem access_ovr {a : Access} (h : access a s = .next t) (ovr : s.status.ovr = true) :
    t.status.ovr = true ∨ ∃ v : Word, v.getLsbD 2 = true ∧ a = .write 0x0C#8 4 v := by
  by_cases admitted : a.width = 4 ∧ a.off.toNat % 4 = 0
  · obtain ⟨width, aligned⟩ := admitted
    cases a with
    | read off n =>
      obtain rfl : n = 4 := width
      rw [access_read (off := off) aligned] at h; injection h with h; subst h; exact .inl ovr
    | write off n v =>
      obtain rfl : n = 4 := width
      rw [access_write (off := off) aligned, writeOff] at h
      cases hr : Reg.ofOffset off with
      | none => rw [hr] at h; injection h with h; subst h; exact .inl ovr
      | some r =>
        rw [hr] at h
        rcases writeReg_ovr h ovr with kept | ⟨rfl, bit⟩
        · exact .inl kept
        · exact .inr ⟨v, bit, by rw [eq_offset_of_ofOffset hr]; rfl⟩
  · rw [access_refused (by tauto)] at h; injection h with h; subst h; exact .inl ovr

/-- R26: of the statements of a procedure, only a store to STATUS with bit 2 = 1 clears OVR. -/
theorem runOp_ovr {op : HostOp} {rest : List HostOp} (h : runOp op rest s = .next t) (ovr : s.status.ovr = true) :
    t.status.ovr = true ∨ ∃ v : Word, v.getLsbD 2 = true ∧ op = .write 0x0C#8 v := by
  cases op with
  | write off v => simpa using access_ovr h ovr
  | writeXY => simpa using access_ovr h ovr
  | waitIdle | waitDone | checkErr => injection h with h; subst h; split <;> exact .inl ovr
  | readByte | assemble | readAngleHi | readAngleLo | readSector | ret =>
    injection h with h; subst h; exact .inl ovr

/-- A turn of the HOST that does not stop the machine is its act (R186). -/
theorem hostTurn_next {act : State → Host.Outcome State Fault Refusal} (h : hostTurn act s = .next t) :
    act s = .next t := by
  unfold hostTurn at h
  split at h
  · cases h
  · exact h

/-- R26, R187: the turns that can clear OVR. -/
theorem turn_ovr {u : Turn} (h : turn u s = .next t) (ovr : s.status.ovr = true) :
    t.status.ovr = true ∨ u = .reset ∨
    ∃ v : Word, v.getLsbD 2 = true ∧ (u = .host (.write 0x0C#8 4 v) ∨
      (u = .thread ∧ s.host.script.head? = some (.write 0x0C#8 v))) := by
  cases u with
  | host a =>
    rcases access_ovr (hostTurn_next h) ovr with kept | ⟨v, bit, rfl⟩
    · exact .inl kept
    · exact .inr (.inr ⟨v, bit, .inl rfl⟩)
  | call p =>
    have h := hostTurn_next (act := fun s => .next (callProc p s)) h
    injection h with h; subst h
    unfold callProc
    split <;> exact .inl ovr
  | thread =>
    have h := hostTurn_next h
    unfold threadStep at h
    cases script : s.host.script with
    | nil => rw [script] at h; injection h with h; subst h; exact .inl ovr
    | cons op rest =>
      rw [script] at h
      rcases runOp_ovr h ovr with kept | ⟨v, bit, rfl⟩
      · exact .inl kept
      · exact .inr (.inr ⟨v, bit, .inr ⟨rfl, rfl⟩⟩)
  | ctl => injection h with h; subst h; simp [ovr]
  | bus ans b => injection h with h; subst h; simp [ovr]
  | target ans draw =>
    injection h with h; subst h
    obtain ⟨ans', b', same⟩ := targetStep_eq s ans draw
    simp [same, ovr]
  | reset => exact .inr (.inl rfl)

/-- Settles O35: of the steps of every agent only a store to STATUS and a reset take OVR to 0. -/
theorem overrunIsSticky : Obligations.OverrunIsSticky := by
  refine ⟨fun s s' h ovr cleared => ?_, fun _ _ _ => presentWord_keeps_ovr⟩
  rcases turn_ovr h (by simpa using ovr) with kept | reset | ⟨v, bit, store⟩
  · simp [cleared] at kept
  · exact .inl reset
  · exact .inr ⟨v, bit, by simpa using store⟩

/-! Loads after stores. -/

theorem readOff_offset (s : State) (r : Reg) : readOff s r.offset = readReg s r := by simp [readOff]

theorem writeOff_offset (r : Reg) (v : Word) (s : State) : writeOff r.offset v s = writeReg r v s := by
  simp [writeOff]

theorem readOff_reserved (h : Reg.ofOffset off = none) (s : State) : readOff s off = 0#32 := by simp [readOff, h]

/-- Settles O39: register by register, and for the reserved offsets because they are no register's. -/
theorem storeThenLoadOfEachRegister : Obligations.StoreThenLoadOfEachRegister := by
  intro s s' off v aligned notStatus h
  rw [access_write aligned] at h
  cases reg : Reg.ofOffset off with
  | none =>
    have ne := ne_offset_of_reserved reg
    have notOperand : ¬ (off = 0x04#8 ∨ off = 0x14#8 ∨ off = 0x18#8 ∨ off = 0x1C#8) := by
      rintro (h | h | h | h)
      exacts [ne .timeout h, ne .hxy h, ne .hainLo h, ne .hainHi h]
    rw [readOff_reserved reg, if_neg (show off ≠ 0x00#8 from ne .ctrl), if_neg notOperand,
      if_neg (show off ≠ 0x10#8 from ne .rxdata), if_neg (show off ≠ 0x20#8 from ne .hangleLo),
      if_neg (show off ≠ 0x24#8 from ne .hangleHi), if_neg (show off ≠ 0x28#8 from ne .hsector)]
  | some r =>
    obtain rfl := eq_offset_of_ofOffset reg
    rw [writeOff_offset] at h
    rw [readOff_offset]
    cases r with
    | status => exact absurd rfl notStatus
    | cmd => rfl
    | ctrl =>
      injection h with h; subst h
      exact (BitVec.and_one_eq_setWidth_ofBool_getLsbD (x := v)).symm
    | timeout | hxy | hainLo | hainHi | rxdata | hangleLo | hangleHi | hsector =>
      injection h with h; subst h; rfl

/-! STATUS. -/

theorem toNat_append_eq_add {m n : Nat} (x : BitVec m) (y : BitVec n) :
    (x ++ y).toNat = x.toNat * 2 ^ n + y.toNat := by
  rw [BitVec.toNat_append, ← Nat.shiftLeft_add_eq_or_of_lt y.isLt, Nat.shiftLeft_eq]

/-- R30: the STATUS word as a number. -/
theorem Status.word_toNat (st : Status) : st.word.toNat =
    st.busy.toNat + 2 * st.done.toNat + 4 * st.ovr.toNat + 16 * st.err.code.toNat + 256 * st.phase.code.toNat +
      4096 * st.errph.code.toNat := by
  simp only [Status.word, toNat_append_eq_add, BitVec.toNat_ofBool, BitVec.toNat_ofNat]
  omega

theorem writeStatus_eq (v : Word) (s : State) :
    writeStatus v s = { s with status := { s.status with ovr := s.status.ovr && !v.getLsbD 2 } } := by
  unfold writeStatus
  cases v.getLsbD 2 <;> simp

/-- Settles O41. -/
theorem statusWordAndItsStore : Obligations.StatusWordAndItsStore := by
  refine ⟨fun s => s.status.word_toNat, fun s v => ?_⟩
  rw [access_write (by decide), ← writeStatus_eq]
  rfl

end Sys2Proof.Machine
end

section
/-! SUPPORT. The trace invariant (R59, R60): the phase names the position on the wire, a completed request's event moves the one as
its completion moves the other, a release closes the transaction, and so each agent's turn keeps the two in step. -/

namespace Sys2Proof.Machine

variable {s t : State} {ph : Phase} {q : Req}

/-- R59, R100, R101: where the transaction with device `d` stands in a phase, no NACK having come. -/
def BusPos.atPhase (d : DevAddr) : Phase → BusPos
  | .idle | .stopSent => .closed
  | .startSent => .started
  | .addrWSent => .addrW d
  | .regAddrSent => .reg d
  | .repeatedStart => .rstart d
  | .addrRSent | .ackDisabled => .addrR d
  | .dataSent | .dataReceived => .full

theorem busPos_eq (s : State) : s.busPos =
    if s.stalled || (s.wait.abort && s.status.phase != .stopSent) then .nacked
    else .atPhase s.latch.ldev s.status.phase := by
  unfold State.busPos
  cases s.status.phase <;> rfl

/-- R46: with no command under way and the controller idle, no transaction is open. -/
theorem busPos_of_idle (abort : s.wait.abort = false) (phase : s.status.phase = .idle) (notStalled : s.stalled = false) :
    s.busPos = .closed := by
  simp [busPos_eq, abort, phase, notStalled, BusPos.atPhase]

theorem stalled_of_noRequest (req : s.wait.req = none) : s.stalled = false := by simp [State.stalled, req]

theorem stalled_of_pending (pending : s.wait.reqst = .pending) : s.stalled = false := by simp [State.stalled, pending]

/-- R110: the request that waits in each phase, for either bus command and as long as no NACK has aborted it. -/
def requestRows : List (Phase × Req) :=
  [(.idle, .start), (.startSent, .addrw), (.addrWSent, .txreg), (.regAddrSent, .rstart), (.regAddrSent, .txdata),
   (.repeatedStart, .addrr), (.ackDisabled, .rxnack), (.dataSent, .stop), (.dataReceived, .stop)]

/-- R110, R111: a request that waits is the phase's own, or the STOP of an abort. -/
theorem request_cases {lop : Option Op} {abort : Bool} (row : sequenced lop abort ph (some q) = true) :
    (abort = false ∧ (ph, q) ∈ requestRows) ∨ (abort = true ∧ q = .stop) := by
  have := of_requestRow (P := fun _ abort ph q => if abort then q == .stop else decide ((ph, q) ∈ requestRows))
    (by decide) (by decide) (by decide) (by decide) row
  cases abort <;> simpa using this

/-- R109: no request waits in STOP_SENT. -/
theorem phase_ne_stopSent {lop : Option Op} {abort : Bool} (row : sequenced lop abort ph (some q) = true) :
    ph ≠ .stopSent := by
  have := of_requestRow (P := fun _ _ ph _ => ph != .stopSent) (by decide) (by decide) (by decide) (by decide) row
  simpa using this

/-- R59, R79: the event of a phase's own request is allowed where the transaction stands; it leads to where the next phase has
it, or to a NACK. -/
theorem after_event (row : (ph, q) ∈ requestRows) (l : Latch) (ans : Ack) (b : Byte) :
    (BusPos.atPhase l.ldev ph).after (q.event l ans b) =
      some (if q.answered && ans == .nack then .nacked else .atPhase l.ldev q.phase) := by
  simp only [requestRows, List.mem_cons, Prod.mk.injEq, List.not_mem_nil, or_false] at row
  rcases row with ⟨rfl, rfl⟩ | ⟨rfl, rfl⟩ | ⟨rfl, rfl⟩ | ⟨rfl, rfl⟩ | ⟨rfl, rfl⟩ | ⟨rfl, rfl⟩ | ⟨rfl, rfl⟩ |
    ⟨rfl, rfl⟩ | ⟨rfl, rfl⟩ <;> cases ans <;>
    simp [BusPos.atPhase, BusPos.after, BusPos.onAnswer, Req.event, Req.answered, Req.phase]

/-- R60: one more event, where the trace stands. -/
theorem scanTrace_emit (hs : s.TraceInv) (e : BusEvent) : scanTrace (emit e s).trace = s.busPos.after e := by
  rw [emit_trace, scanTrace_append, hs, Option.bind_some]

/-- R114, R115, R200: after a release no transaction is open. -/
theorem scanTrace_release (hs : s.TraceInv) : scanTrace (release s).trace = some .closed := by
  rw [release_trace, owned_of_scan _ _ hs]
  by_cases closed : s.busPos = .closed
  · rw [if_neg (by simpa using closed), List.append_nil, hs, closed]
  · simp [closed, scanTrace_append, hs, BusPos.after]

/-- R59, R115: the invariant where no command is under way and the last transaction is whole. -/
theorem traceInv_of_closed (closed : scanTrace s.trace = some .closed) (abort : s.wait.abort = false)
    (phase : s.status.phase = .idle) (notStalled : s.stalled = false) : s.TraceInv := by
  rw [State.TraceInv, closed, busPos_of_idle abort phase notStalled]

/-- R46 item 4: off the bus no transaction is open. -/
theorem busPos_offBus (control : s.ControlInv) (off : ¬ s.onBus) : s.busPos = .closed := by
  obtain ⟨abort, phase, req⟩ := idle_of_sequenced control.2.1 off
  exact busPos_of_idle abort phase (stalled_of_noRequest req)

/-! The agents' turns. -/

/-- R92: a command is accepted between two transactions, and opens none yet. -/
theorem acceptOf_traceInv (i : Instr) (control : s.ControlInv) (idle : s.status.busy = false) (hs : s.TraceInv) :
    (acceptOf i s).TraceInv := by
  have off : ¬ s.onBus := by simp [show s.latch.lop = none by simpa [idle] using control.1]
  obtain ⟨-, phase, req⟩ := idle_of_sequenced control.2.1 off
  refine traceInv_of_closed ?_ (by cases i <;> rfl) (by simpa using phase) ?_
  · rw [acceptOf_trace, hs, busPos_offBus control off]
  · cases i <;> simp [State.stalled, acceptOf, acceptRdreg, acceptWrreg, acceptHeading, acceptSector, req]

theorem HostEffect.traceInv (h : HostEffect s t) (control : s.ControlInv) (hs : s.TraceInv) : t.TraceInv := by
  cases h with
  | accepted _ i idle => exact acceptOf_traceInv i control idle hs
  | quiet | store | clearOvr | dropped | rejected => exact hs

/-- R113, R114: a wait cycle releases the bus, or leaves it as it is. -/
theorem waitCycle_traceInv (q : Req) (hs : s.TraceInv) : (waitCycle q s).TraceInv := by
  rcases waitCycle_cases s q with ⟨h, -⟩ | ⟨h, -⟩ <;> rw [h]
  · exact hs
  · refine traceInv_of_closed ?_ (by simp) (by simp [timeout_status]) (stalled_of_noRequest (by simp))
    rw [timeout_trace]
    exact release_trace s ▸ scanTrace_release hs

/-- R105, R109, R114: a step of CTL ends the transaction with REL, or leaves it where it stands. -/
theorem ctlStep_traceInv (control : s.ControlInv) (hs : s.TraceInv) : (ctlStep s).TraceInv := by
  have offBus := busPos_offBus control
  have idle := idle_of_sequenced control.2.1
  rcases ctlStep_cases s with ⟨q, -, h⟩ | ⟨req, phase, h⟩ | ⟨req, -, phase, h⟩ | ⟨req, lop, h⟩ | ⟨req, lop, h⟩ | h <;>
    rw [h]
  · exact waitCycle_traceInv q hs
  · have before : s.busPos = .closed := by simp [busPos_eq, stalled_of_noRequest req, phase, BusPos.atPhase]
    exact traceInv_of_closed (by rw [complete_trace, hs, before]) rfl rfl (stalled_of_noRequest req)
  · have same : (ackDisable s).busPos = s.busPos := by
      simp [busPos_eq, stalled_of_noRequest req, stalled_of_pending (s := ackDisable s) rfl, phase, BusPos.atPhase]
    rw [State.TraceInv, same, ackDisable_trace, hs]
  · refine traceInv_of_closed ?_ rfl (idle (by simp [lop])).2.1 (stalled_of_noRequest req)
    rw [completeHeading_trace, hs, offBus (by simp [lop])]
  · refine traceInv_of_closed ?_ (by simp) ?_ (stalled_of_noRequest (by simpa using req))
    · rw [completeSector_trace, hs, offBus (by simp [lop])]
    · simpa [completeSector_status] using (idle (by simp [lop])).2.1
  · exact hs

/-- R95, R104: where the transaction stands after the event of a request that completes. -/
theorem busPos_after_event (row : sequenced s.latch.lop s.wait.abort s.status.phase (some q) = true)
    (pending : s.wait.reqst = .pending) (ans : Ack) (b : Byte) :
    s.busPos.after (q.event s.latch ans b) =
      some (if q.answered && ans == .nack then .nacked else .atPhase s.latch.ldev q.phase) := by
  rcases request_cases row with ⟨abort, own⟩ | ⟨abort, rfl⟩
  · have : s.busPos = .atPhase s.latch.ldev s.status.phase := by simp [busPos_eq, stalled_of_pending pending, abort]
    rw [this, after_event own]
  · have : s.busPos = .nacked := by simp [busPos_eq, abort, phase_ne_stopSent row]
    rw [this]
    rfl

/-- R95 to R103, R107, R108: a request that completes well leaves the controller at the request's phase. -/
theorem advance_busPos (row : sequenced s.latch.lop s.wait.abort s.status.phase (some q) = true) (b : Byte) :
    (advance q b s).busPos = .atPhase s.latch.ldev q.phase := by
  have wait := advance_wait q b s (onBus_of_request row)
  have notStalled : (advance q b s).stalled = false := by
    cases next : nextReq s.latch.lop q <;> simp [State.stalled, wait, next]
  have abort : (advance q b s).wait.abort = s.wait.abort := by
    cases next : nextReq s.latch.lop q <;> simp [wait, next]
  rw [busPos_eq, notStalled, abort, advance_latch, advance_status]
  rcases request_cases row with ⟨going, -⟩ | ⟨-, rfl⟩
  · simp [going]
  · simp [Req.phase]

/-- R95, R111, R112: a step of BUS moves the transaction and the controller to the same place. -/
theorem busStep_traceInv (ans : Ack) (b : Byte) (control : s.ControlInv) (hs : s.TraceInv) :
    (busStep ans b s).TraceInv := by
  have row := control.2.1
  rcases busStep_cases s ans b with ⟨h, -⟩ | ⟨q, req, pending, step⟩
  · rwa [h]
  rw [req] at row
  have event := (scanTrace_emit hs (q.event s.latch ans b)).trans (busPos_after_event row pending ans b)
  rcases step with ⟨answered, rfl, -, h⟩ | ⟨answered, rfl, -, h⟩ | ⟨well, h⟩ <;> rw [h, State.TraceInv]
  · rw [nackAbort_trace, event]
    simp [busPos_eq, answered, phase_ne_stopSent row]
  · rw [nackStall_trace, event]
    simp [busPos_eq, answered, State.stalled, req]
  · rw [advance_trace, event, advance_busPos (s := emit _ s) row]
    rcases well with noAnswer | rfl
    · simp [noAnswer]
    · simp

theorem resetStep_traceInv (hs : s.TraceInv) : (resetStep s).TraceInv :=
  traceInv_of_closed (scanTrace_release hs) rfl rfl (stalled_of_noRequest rfl)

/-- Settles O27: each agent's turn keeps the invariant. -/
theorem stepKeepsTraceForms : Obligations.StepKeepsTraceForms := by
  intro s s' h control trace
  have control : (popTurn s).ControlInv := by simpa [State.ControlInv, State.stalled] using control
  have trace : (popTurn s).TraceInv := by simpa [State.TraceInv, State.busPos, State.stalled] using trace
  rcases turn_cases h with ⟨-, -, host⟩ | ⟨-, rfl⟩ | ⟨ans, b, -, rfl⟩ | ⟨-, rfl⟩
  · exact host.traceInv control trace
  · exact ctlStep_traceInv control trace
  · exact busStep_traceInv ans b control trace
  · exact resetStep_traceInv trace

end Sys2Proof.Machine
end

section
/-! SUPPORT. The queue of turns is read by the step alone (log 2): a turn does in any queue what it does in another, so the machine
runs the queued turns as `runTurns` does (R57). -/

namespace Sys2Proof.Machine

/-- The state with `us` for the turns still to come. -/
def queue (us : List Turn) (s : State) : State := { s with turns := us }

/-- An outcome with `us` for the turns still to come. -/
def requeue (us : List Turn) : Host.Outcome State Fault Refusal → Host.Outcome State Fault Refusal
  | .next s => .next (queue us s)
  | .fault r => .fault r
  | .refused r => .refused r

variable (us : List Turn) (s : State)

@[simp] theorem queue_status : (queue us s).status = s.status := rfl
@[simp] theorem queue_latch : (queue us s).latch = s.latch := rfl
@[simp] theorem queue_wait : (queue us s).wait = s.wait := rfl
@[simp] theorem queue_host : (queue us s).host = s.host := rfl

/-- A choice that does not look at the queue, between two such branches. -/
theorem ite_queue {c : Prop} [Decidable c] {a b a' b' : State} (ha : a' = queue us a) (hb : b' = queue us b) :
    (if c then a' else b') = queue us (if c then a else b) := by
  rw [apply_ite (queue us), ha, hb]

/-! The steps of CTL, of BUS and of a reset. -/

theorem release_queue : release (queue us s) = queue us (release s) := ite_queue us rfl rfl

theorem raise_queue (e : ErrCode) (ph : Phase) : raise e ph (queue us s) = queue us (raise e ph s) :=
  ite_queue us rfl rfl

theorem timeout_queue (q : Req) : timeout q (queue us s) = queue us (timeout q s) := by
  rw [timeout, raise_queue, release_queue]; rfl

theorem waitCycle_queue (q : Req) : waitCycle q (queue us s) = queue us (waitCycle q s) := by
  unfold waitCycle
  exact ite_queue us (timeout_queue us { s with wait := { s.wait with wcnt := bump s.wait.wcnt } } q) rfl

theorem completeSector_queue : completeSector (queue us s) = queue us (completeSector s) := by
  unfold completeSector
  dsimp only
  rw [queue_latch]
  split <;> rfl

theorem ctlStep_queue : ctlStep (queue us s) = queue us (ctlStep s) := by
  unfold ctlStep
  rw [queue_wait, queue_status, queue_latch]
  cases s.wait.req with
  | some q => exact waitCycle_queue us s q
  | none =>
    dsimp only
    split
    · rfl
    · cases s.latch.lop with
      | none => rfl
      | some op =>
        cases op with
        | rd => exact ite_queue us rfl rfl
        | wr | hdg => rfl
        | sec => exact completeSector_queue us s

theorem advance_queue (q : Req) (b : Byte) : advance q b (queue us s) = queue us (advance q b s) := by
  cases q with
  | txreg =>
    simp only [advance, setPhase_latch, queue_latch]
    cases s.latch.lop with
    | none => rfl
    | some op => cases op <;> rfl
  | start | addrw | txdata | rstart | addrr | rxnack | stop => rfl

theorem completeReq_queue (q : Req) (ans : Ack) (b : Byte) :
    completeReq q ans b (queue us s) = queue us (completeReq q ans b s) := by
  unfold completeReq
  exact ite_queue us (ite_queue us rfl rfl) (advance_queue us (emit (q.event s.latch ans b) s) q b)

theorem busStep_queue (ans : Ack) (b : Byte) : busStep ans b (queue us s) = queue us (busStep ans b s) := by
  unfold busStep
  rw [queue_wait]
  cases s.wait.req with
  | none => rfl
  | some q =>
    cases s.wait.reqst with
    | stalled => rfl
    | pending => exact completeReq_queue us s q ans b

theorem targetStep_queue (ans : Ack) (draw : Byte) :
    targetStep ans draw (queue us s) = queue us (targetStep ans draw s) := by
  unfold targetStep
  rw [queue_wait]
  cases s.wait.req with
  | none => rfl
  | some q => exact busStep_queue us s _ _

theorem resetStep_queue : resetStep (queue us s) = queue us (resetStep s) := by
  unfold resetStep
  rw [release_queue]
  rfl

/-! The turns of the HOST. -/

theorem present_queue (i : Instr) : present (acceptOf i) (queue us s) = queue us (present (acceptOf i) s) :=
  ite_queue us rfl (by cases i <;> rfl)

theorem presentWord_queue (w : Word) : presentWord w (queue us s) = requeue us (presentWord w s) := by
  unfold presentWord
  rw [queue_status]
  cases busy : s.status.busy with
  | true => rfl
  | false =>
    cases decode w with
    | illegal why => rfl
    | cmd i =>
      change exec i (queue us s) = requeue us (exec i s)
      rw [exec_eq, exec_eq]
      exact congrArg Host.Outcome.next (present_queue us s i)

theorem writeReg_queue (r : Reg) (v : Word) : writeReg r v (queue us s) = requeue us (writeReg r v s) := by
  cases r with
  | cmd => exact presentWord_queue us s v
  | status => exact congrArg Host.Outcome.next (ite_queue us rfl rfl)
  | ctrl | timeout | hxy | hainLo | hainHi | rxdata | hangleLo | hangleHi | hsector => rfl

theorem writeOff_queue (off : BitVec 8) (v : Word) :
    writeOff off v (queue us s) = requeue us (writeOff off v s) := by
  unfold writeOff
  cases Reg.ofOffset off with
  | none => rfl
  | some r => exact writeReg_queue us s r v

theorem access_queue (a : Access) : access a (queue us s) = requeue us (access a s) := by
  unfold access
  cases a.admitted with
  | false => rfl
  | true =>
    cases a with
    | read off n => rfl
    | write off n v => exact writeOff_queue us s off v

theorem runOp_queue (op : HostOp) (rest : List HostOp) :
    runOp op rest (queue us s) = requeue us (runOp op rest s) := by
  cases op with
  | write off v => exact access_queue us (goOn rest s) _
  | writeXY => exact access_queue us (goOn rest s) _
  | waitIdle | waitDone | checkErr => exact congrArg Host.Outcome.next (ite_queue us rfl rfl)
  | readByte | assemble | readAngleHi | readAngleLo | readSector | ret => rfl

theorem threadStep_queue : threadStep (queue us s) = requeue us (threadStep s) := by
  unfold threadStep
  rw [queue_host]
  cases s.host.script with
  | nil => rfl
  | cons op rest => exact runOp_queue us s op rest

theorem callProc_queue (p : Proc) : callProc p (queue us s) = queue us (callProc p s) :=
  ite_queue us rfl rfl

theorem hostTurn_queue {act : State → Host.Outcome State Fault Refusal}
    (h : act (queue us s) = requeue us (act s)) : hostTurn act (queue us s) = requeue us (hostTurn act s) := by
  unfold hostTurn
  rw [queue_host]
  cases s.host.fault with
  | none => exact h
  | some a => rfl

/-- R57, log 2: what a turn does, it does whatever turns are to come after it. -/
theorem turn_queue (t : Turn) : turn t (queue us s) = requeue us (turn t s) := by
  cases t with
  | host a => exact hostTurn_queue us s (access_queue us s a)
  | call p =>
    exact hostTurn_queue us s (act := fun s => .next (callProc p s))
      (congrArg Host.Outcome.next (callProc_queue us s p))
  | thread => exact hostTurn_queue us s (threadStep_queue us s)
  | ctl => exact congrArg Host.Outcome.next (ctlStep_queue us s)
  | bus ans b => exact congrArg Host.Outcome.next (busStep_queue us s ans b)
  | target ans draw => exact congrArg Host.Outcome.next (targetStep_queue us s ans draw)
  | reset => exact congrArg Host.Outcome.next (resetStep_queue us s)

/-- A step takes the first queued turn, in the state with the rest of the queue. -/
theorem step_queue (t : Turn) : step (queue (t :: us) s) = requeue us (turn t s) := turn_queue us s t

/-! A run of one step more, by that step's outcome. -/

section
variable {M : Host.Core} {k : Nat} {s : M.State}

theorem run_of_next {s' : M.State} (h : M.step s = .next s') : M.run (k + 1) s = M.run k s' := by rw [Host.Core.run, h]

theorem run_of_fault {r : M.Fault} (h : M.step s = .fault r) : M.run (k + 1) s = .fault r := by rw [Host.Core.run, h]

theorem run_of_refused {r : M.Refusal} (h : M.step s = .refused r) : M.run (k + 1) s = .refused r := by
  rw [Host.Core.run, h]

end

/-- Settles O12, by induction on the queued turns: the first is the machine's step, and leaves the queue to the rest. -/
theorem queuedTurnsRunInOrder : Obligations.QueuedTurnsRunInOrder := by
  intro ts rest s
  change Host.Core.run core ts.length (queue (ts ++ rest) s) = runTurns ts (queue rest s)
  induction ts generalizing s with
  | nil => rfl
  | cons t ts ih =>
    have first := step_queue (ts ++ rest) s t
    rw [runTurns, turn_queue]
    cases answer : turn t s with
    | next s' => rw [answer] at first; exact (run_of_next (M := core) first).trans (ih s')
    | fault r => rw [answer] at first; exact run_of_fault (M := core) first
    | refused r => rw [answer] at first; exact run_of_refused (M := core) first

end Sys2Proof.Machine
end

section
/-! SUPPORT. The HOST agent's own part of the state (R16): no step of CTL, of BUS or of a reset touches it, so nothing clears its
fault (R186); and what the accesses leave unchanged (R53, R55). -/

namespace Sys2Proof.Machine

variable (s : State)

@[simp] theorem complete_host : (complete s).host = s.host := rfl
@[simp] theorem ackDisable_host : (ackDisable s).host = s.host := rfl
@[simp] theorem completeHeading_host : (completeHeading s).host = s.host := rfl
@[simp] theorem completeSector_host : (completeSector s).host = s.host := by
  unfold completeSector; dsimp only; split <;> rfl
@[simp] theorem nackAbort_host (q : Req) : (nackAbort q s).host = s.host := rfl

@[simp] theorem waitCycle_host (q : Req) : (waitCycle q s).host = s.host := by
  rcases waitCycle_cases s q with ⟨h, -⟩ | ⟨h, -⟩ <;> simp [h]

/-- R16: no step of CTL touches the HOST. -/
@[simp] theorem ctlStep_host : (ctlStep s).host = s.host := by
  rcases ctlStep_cases s with ⟨q, -, h⟩ | ⟨-, -, h⟩ | ⟨-, -, -, h⟩ | ⟨-, -, h⟩ | ⟨-, -, h⟩ | h <;> simp [h]

/-- R16: no step of BUS touches the HOST. -/
@[simp] theorem busStep_host (ans : Ack) (b : Byte) : (busStep ans b s).host = s.host := by
  rcases busStep_cases s ans b with ⟨h, -⟩ | ⟨q, -, -, ⟨-, -, -, h⟩ | ⟨-, -, -, h⟩ | ⟨-, h⟩⟩ <;> simp [h]

/-- R200: a reset leaves the HOST as it is. -/
@[simp] theorem resetStep_host : (resetStep s).host = s.host := release_host s

variable {s} {s' : State} {a : Access}

/-- R186: a turn of the HOST stops the machine once an access of its has been refused. -/
theorem hostTurn_of_fault (fault : s.host.fault = some a) (act : State → Host.Outcome State Fault Refusal) :
    hostTurn act s = .fault (.hostStopped a) := by
  simp [hostTurn, fault]

/-- R186: a turn that does not stop the machine keeps the HOST's fault. -/
theorem turn_keeps_fault {u : Turn} (h : turn u s = .next s') (fault : s.host.fault = some a) :
    s'.host.fault = some a := by
  rcases turn_cases h with ⟨-, noFault, -⟩ | ⟨-, rfl⟩ | ⟨ans, b, -, rfl⟩ | ⟨-, rfl⟩
  · simp [noFault] at fault
  · simpa using fault
  · simpa using fault
  · simpa using fault

/-- Settles O38: the refusal, by `access_refused`; the turns of the other agents, which leave the HOST alone; and the
turns of the HOST, which a fault stops. -/
theorem hostFaultIsNeverCleared : Obligations.HostFaultIsNeverCleared := by
  refine ⟨fun s a refused => access_refused refused s, fun s s' a h fault => ?_, fun s a u fault host => ?_⟩
  · exact turn_keeps_fault h (by simpa using fault)
  · rcases host with rfl | ⟨a', rfl⟩ | ⟨p, rfl⟩
    · exact hostTurn_of_fault fault threadStep
    · exact hostTurn_of_fault fault (access a')
    · exact hostTurn_of_fault fault (fun s => .next (callProc p s))

/-- Settles O40: register by register, and for the reserved offsets because they are no register's. -/
theorem accessesDoNothingElse : Obligations.AccessesDoNothingElse := by
  refine ⟨fun s off aligned => access_read aligned s, fun s off v aligned notCmd notStatus => ?_⟩
  rw [access_write aligned]
  cases reg : Reg.ofOffset off with
  | none =>
    have ne := ne_offset_of_reserved reg
    rw [if_neg (show off ≠ 0x00#8 from ne .ctrl), if_neg (show off ≠ 0x04#8 from ne .timeout),
      if_neg (show off ≠ 0x14#8 from ne .hxy), if_neg (show off ≠ 0x18#8 from ne .hainLo),
      if_neg (show off ≠ 0x1C#8 from ne .hainHi), writeOff, reg]
  | some r =>
    obtain rfl := eq_offset_of_ofOffset reg
    rw [writeOff_offset]
    cases r with
    | cmd => exact absurd rfl notCmd
    | status => exact absurd rfl notStatus
    | ctrl | timeout | hxy | hainLo | hainHi | rxdata | hangleLo | hangleHi | hsector => rfl

end Sys2Proof.Machine
end

section
/-! SUPPORT. The command word (R70 to R75, R82): its format and the fields read from it, what the rows of the mask and match
table fix, what the decoder can answer, and the words the assembler writes. -/

namespace Sys2Proof

/-! The format of R70. -/

/-- R70: the format `CMD` of a command word, its reserved bits 0. -/
def commandWord (data reg : Byte) (dev : DevAddr) (op : BitVec 4) : Word :=
  data ++ reg ++ 0#1 ++ dev ++ 0#4 ++ op

theorem commandWord_toNat (data reg : Byte) (dev : DevAddr) (op : BitVec 4) :
    (commandWord data reg dev op).toNat =
      data.toNat * 2 ^ 24 + reg.toNat * 2 ^ 16 + dev.toNat * 2 ^ 8 + op.toNat := by
  simp only [commandWord, Machine.toNat_append_eq_add, BitVec.toNat_ofNat]
  omega

section
variable (data reg : Byte) (dev : DevAddr) (op : BitVec 4)

@[simp] theorem opField_commandWord : opField (commandWord data reg dev op) = op := by
  apply BitVec.eq_of_toNat_eq
  rw [opField, BitVec.extractLsb'_toNat, commandWord_toNat, Nat.shiftRight_eq_div_pow]
  omega

@[simp] theorem devField_commandWord : devField (commandWord data reg dev op) = dev := by
  apply BitVec.eq_of_toNat_eq
  rw [devField, BitVec.extractLsb'_toNat, commandWord_toNat, Nat.shiftRight_eq_div_pow]
  omega

@[simp] theorem regField_commandWord : regField (commandWord data reg dev op) = reg := by
  apply BitVec.eq_of_toNat_eq
  rw [regField, BitVec.extractLsb'_toNat, commandWord_toNat, Nat.shiftRight_eq_div_pow]
  omega

@[simp] theorem dataField_commandWord : dataField (commandWord data reg dev op) = data := by
  apply BitVec.eq_of_toNat_eq
  rw [dataField, BitVec.extractLsb'_toNat, commandWord_toNat, Nat.shiftRight_eq_div_pow]
  omega

end

/-- R70: a word whose reserved bits are 0 is made of its fields. -/
theorem commandWord_of_fields {w : Word} (res0 : w.extractLsb' 4 4 = 0#4) (res1 : w.extractLsb' 15 1 = 0#1) :
    commandWord (dataField w) (regField w) (devField w) (opField w) = w := by
  apply BitVec.eq_of_toNat_eq
  have res0 := congrArg BitVec.toNat res0
  have res1 := congrArg BitVec.toNat res1
  simp only [commandWord_toNat, dataField, regField, devField, opField, BitVec.extractLsb'_toNat,
    Nat.shiftRight_eq_div_pow, BitVec.toNat_ofNat] at res0 res1 ⊢
  omega

theorem encode_rdreg (dev : DevAddr) (reg : Byte) : encode (.rdreg dev reg) = commandWord 0#8 reg dev 1#4 := by
  apply BitVec.eq_of_getLsbD_eq
  intro k hk
  simp only [encode, commandWord, BitVec.getLsbD_append]
  interval_cases k <;> simp

theorem encode_wrreg (dev : DevAddr) (reg data : Byte) :
    encode (.wrreg dev reg data) = commandWord data reg dev 2#4 := by
  apply BitVec.eq_of_getLsbD_eq
  intro k hk
  simp only [encode, commandWord, BitVec.getLsbD_append]
  interval_cases k <;> simp

/-! The rows of R72. -/

/-- A field that lies under the mask is fixed by the match. -/
theorem extractLsb'_of_masked {w mask value : Word} {start len : Nat} {x : BitVec len} (row : w &&& mask = value)
    (under : mask.extractLsb' start len = BitVec.allOnes len) (fixed : value.extractLsb' start len = x) :
    w.extractLsb' start len = x := by
  rw [← fixed, ← row, BitVec.extractLsb'_and, under, BitVec.and_allOnes]

/-- R72: every mask includes bits 3:0. -/
theorem opField_of_row {w : Word} {r : OpcodeRow} (mem : r ∈ opcodeRows) (row : w &&& r.mask = r.value) :
    opField w = opField r.value :=
  have under : ∀ r ∈ opcodeRows, opField r.mask = BitVec.allOnes 4 := by decide
  extractLsb'_of_masked row (under r mem) rfl

theorem op_of_row {w : Word} (row : ∃ r ∈ opcodeRows, w &&& r.mask = r.value) :
    1 ≤ (opField w).toNat ∧ (opField w).toNat ≤ 4 := by
  have legal : ∀ r ∈ opcodeRows, 1 ≤ (opField r.value).toNat ∧ (opField r.value).toNat ≤ 4 := by decide
  obtain ⟨r, mem, row⟩ := row
  rw [opField_of_row mem row]
  exact legal r mem

theorem eq_of_opField_value : ∀ r1 ∈ opcodeRows, ∀ r2 ∈ opcodeRows, opField r1.value = opField r2.value → r1 = r2 := by
  decide

theorem exists_row_iff (w : Word) : (∃ r ∈ opcodeRows, w &&& r.mask = r.value) ↔
    w &&& 0xFF0080FF#32 = 0x00000001#32 ∨ w &&& 0x000080FF#32 = 0x00000002#32 ∨ w = 0x00000003#32 ∨
      w = 0x00000004#32 := by
  have full : w &&& 0xFFFFFFFF#32 = w := BitVec.and_allOnes
  simp [opcodeRows, full]

theorem encode_rdreg_fields {w : Word} (row : w &&& 0xFF0080FF#32 = 0x00000001#32) :
    encode (.rdreg (devField w) (regField w)) = w := by
  have op : opField w = 1#4 := extractLsb'_of_masked row rfl rfl
  have data : dataField w = 0#8 := extractLsb'_of_masked row rfl rfl
  rw [encode_rdreg, ← op, ← data]
  exact commandWord_of_fields (extractLsb'_of_masked row rfl rfl) (extractLsb'_of_masked row rfl rfl)

theorem encode_wrreg_fields {w : Word} (row : w &&& 0x000080FF#32 = 0x00000002#32) :
    encode (.wrreg (devField w) (regField w) (dataField w)) = w := by
  have op : opField w = 2#4 := extractLsb'_of_masked row rfl rfl
  rw [encode_wrreg, ← op]
  exact commandWord_of_fields (extractLsb'_of_masked row rfl rfl) (extractLsb'_of_masked row rfl rfl)

/-- R72: a command's encoding matches its own row. -/
theorem encode_and_mask (i : Instr) : encode i &&& i.mask = i.fixedBits := by
  cases i with
  | rdreg dev reg => exact Laws.MaskMatch.rdreg dev reg
  | wrreg dev reg data => exact Laws.MaskMatch.wrreg dev reg data
  | heading => exact Laws.MaskMatch.heading
  | sector => exact Laws.MaskMatch.sector

/-! The decoder. -/

/-- Everything the decoder can answer (R73, R75): the command whose encoding the word is, which matches a row, or the
cause by which it is no command. -/
inductive DecodesTo (w : Word) : Decoded → Prop where
  | cmd (i : Instr) (row : ∃ r ∈ opcodeRows, w &&& r.mask = r.value) (enc : encode i = w) : DecodesTo w (.cmd i)
  | reservedBits (noRow : ¬ ∃ r ∈ opcodeRows, w &&& r.mask = r.value)
      (legal : 1 ≤ (opField w).toNat ∧ (opField w).toNat ≤ 4) : DecodesTo w (.illegal .reservedBits)
  | reservedOp (noRow : ¬ ∃ r ∈ opcodeRows, w &&& r.mask = r.value)
      (reserved : ¬ (1 ≤ (opField w).toNat ∧ (opField w).toNat ≤ 4)) : DecodesTo w (.illegal .reservedOp)

theorem decodesTo_decode (w : Word) : DecodesTo w (decode w) := by
  have rows := exists_row_iff w
  unfold decode
  split_ifs with rd wr hdg sec op
  · exact .cmd _ (rows.2 (.inl rd)) (encode_rdreg_fields rd)
  · exact .cmd _ (rows.2 (.inr (.inl wr))) (encode_wrreg_fields wr)
  · exact .cmd _ (rows.2 (.inr (.inr (.inl hdg)))) hdg.symm
  · exact .cmd _ (rows.2 (.inr (.inr (.inr sec)))) sec.symm
  · exact .reservedBits (by simp [*]) op
  · exact .reservedOp (by simp [*]) op

theorem decode_of_rdregRow {w : Word} (row : w &&& 0xFF0080FF#32 = 0x00000001#32) :
    decode w = .cmd (.rdreg (devField w) (regField w)) :=
  if_pos row

theorem decode_of_wrregRow {w : Word} (row : w &&& 0x000080FF#32 = 0x00000002#32) :
    decode w = .cmd (.wrreg (devField w) (regField w) (dataField w)) := by
  have op : opField w = 2#4 := extractLsb'_of_masked row rfl rfl
  have notRdreg : w &&& 0xFF0080FF#32 ≠ 0x00000001#32 := fun rd => by
    have op' : opField w = 1#4 := extractLsb'_of_masked rd rfl rfl
    exact absurd (op.symm.trans op') (by decide)
  rw [decode, if_neg notRdreg, if_pos row]

theorem decode_encode (i : Instr) : decode (encode i) = .cmd i := by
  cases i with
  | rdreg dev reg => simpa [encode_rdreg] using decode_of_rdregRow (encode_and_mask (.rdreg dev reg))
  | wrreg dev reg data => simpa [encode_wrreg] using decode_of_wrregRow (encode_and_mask (.wrreg dev reg data))
  | heading => rfl
  | sector => rfl

/-- R75: decoding is strict. -/
theorem encode_of_decode {w : Word} {i : Instr} (h : decode w = .cmd i) : encode i = w := by
  have answer := decodesTo_decode w
  rw [h] at answer
  cases answer with
  | cmd _ _ enc => exact enc

/-- Settles O1: `decode_encode`, command by command. -/
theorem decodeOfEncode : Obligations.DecodeOfEncode := fun i _ => decode_encode i

/-- Settles O2: every row fixes the bits that its command's fields leave out. -/
theorem encodeOfDecode : Obligations.EncodeOfDecode := fun _ _ h => encode_of_decode h

/-- Settles O3: two rows that a word matches have its OP, and a word that decodes to a command is that command's encoding. -/
theorem decodeFollowsMaskMatchTable : Obligations.DecodeFollowsMaskMatchTable := by
  refine fun w => ⟨?_, fun r1 mem1 r2 mem2 row1 row2 => ?_, fun i h => ?_⟩
  · have answer := decodesTo_decode w
    generalize decode w = d at answer ⊢
    cases answer with
    | cmd i row enc => exact iff_of_true rfl row
    | reservedBits noRow | reservedOp noRow => exact iff_of_false Bool.false_ne_true noRow
  · exact eq_of_opField_value r1 mem1 r2 mem2 ((opField_of_row mem1 row1).symm.trans (opField_of_row mem2 row2))
  · rw [← encode_of_decode h]
    exact encode_and_mask i

/-- Settles O4: a word that matches a row has a legal OP, and the decoder's answer is one of its three. -/
theorem illegalWordNamesItsCause : Obligations.IllegalWordNamesItsCause := by
  intro w
  have reserved_iff : (opField w = 0#4 ∨ 5 ≤ (opField w).toNat) ↔
      ¬ (1 ≤ (opField w).toNat ∧ (opField w).toNat ≤ 4) := by
    rw [← BitVec.toNat_inj, BitVec.toNat_ofNat]
    omega
  rw [reserved_iff, ← and_assoc]
  have answer := decodesTo_decode w
  generalize decode w = d at answer ⊢
  cases answer with
  | cmd i row enc => exact ⟨iff_of_false nofun fun h => h (op_of_row row), iff_of_false nofun fun h => h.2 row⟩
  | reservedBits noRow legal => exact ⟨iff_of_false nofun fun h => h legal, iff_of_true rfl ⟨legal, noRow⟩⟩
  | reservedOp noRow reserved => exact ⟨iff_of_true rfl reserved, iff_of_false nofun fun h => reserved h.1⟩

/-! The assembler. -/

theorem assemble_rdreg (dev reg : Nat) : (Asm.rdreg dev reg).assemble =
    if dev ≤ 0x7F ∧ reg ≤ 0xFF then some (encode (.rdreg (BitVec.ofNat 7 dev) (BitVec.ofNat 8 reg))) else none := by
  simp only [Asm.assemble, Asm.toInstr, Asm.wellFormed, Asm.devOk, Asm.byteOk, Bool.and_eq_true, decide_eq_true_eq]
  split <;> rfl

theorem assemble_wrreg (dev reg data : Nat) : (Asm.wrreg dev reg data).assemble =
    if dev ≤ 0x7F ∧ reg ≤ 0xFF ∧ data ≤ 0xFF then
      some (encode (.wrreg (BitVec.ofNat 7 dev) (BitVec.ofNat 8 reg) (BitVec.ofNat 8 data))) else none := by
  simp only [Asm.assemble, Asm.toInstr, Asm.wellFormed, Asm.devOk, Asm.byteOk, Bool.and_eq_true, decide_eq_true_eq,
    and_assoc]
  split <;> rfl

/-- R82: operands in range fill their fields. DATA needs no bound here: its field ends where the word does, so both
sides drop the same bits. -/
theorem commandWord_ofNat {data reg dev op : Nat} (hreg : reg ≤ 0xFF) (hdev : dev ≤ 0x7F) (hop : op ≤ 0xF) :
    commandWord (BitVec.ofNat 8 data) (BitVec.ofNat 8 reg) (BitVec.ofNat 7 dev) (BitVec.ofNat 4 op) =
      BitVec.ofNat 32 (data * 2 ^ 24 + reg * 2 ^ 16 + dev * 2 ^ 8 + op) := by
  apply BitVec.eq_of_toNat_eq
  simp only [commandWord_toNat, BitVec.toNat_ofNat]
  omega

/-- Settles O6: in range no operand loses a bit to its field's width. -/
theorem assemblerNeverTruncates : Obligations.AssemblerNeverTruncates := by
  refine ⟨fun dev reg => ?_, fun dev reg data => ?_⟩
  · rw [assemble_rdreg]
    refine ite_congr rfl (fun ⟨hdev, hreg⟩ => congrArg some ?_) fun _ => rfl
    rw [encode_rdreg, commandWord_ofNat hreg hdev (by decide), Nat.zero_mul, Nat.zero_add]
  · rw [assemble_wrreg]
    refine ite_congr rfl (fun ⟨hdev, hreg, _⟩ => congrArg some ?_) fun _ => rfl
    rw [encode_wrreg, commandWord_ofNat hreg hdev (by decide)]

/-- Settles O5: ten fixed words. -/
theorem workedEncodingsDecode : Obligations.WorkedEncodingsDecode := by
  unfold Obligations.WorkedEncodingsDecode
  decide

end Sys2Proof
end

section
/-! SUPPORT. Presenting a command (R90 to R93): the three things a word can do, and the step that takes the HOST's store of a word
to CMD from the queue (log 2). -/

namespace Sys2Proof.Machine

variable {s : State} {w : Word} {i : Instr}

/-- R92: with BUSY = 0 a command is accepted. -/
theorem exec_of_idle (idle : s.status.busy = false) : exec i s = .next (acceptOf i s) := by
  rw [exec_eq, present, if_neg (by simp [idle])]

/-- R91: with BUSY = 1 a command is dropped. -/
theorem exec_of_busy (busy : s.status.busy = true) : exec i s = .next (drop s) := by
  rw [exec_eq, present, if_pos busy]

/-- R91: with BUSY = 1 a word is dropped before it is decoded. -/
theorem presentWord_of_busy (busy : s.status.busy = true) : presentWord w s = .next (drop s) := by
  rw [presentWord, if_pos busy]

/-- R93: with BUSY = 0 an illegal word is rejected. -/
theorem presentWord_of_illegal {why : Illegal} (idle : s.status.busy = false) (illegal : decode w = .illegal why) :
    presentWord w s = .next (reject s) := by
  rw [presentWord, if_neg (by simp [idle]), illegal]

/-- Settles O7: with BUSY = 0 a command is accepted, and R92 writes these fields. -/
theorem acceptedCommandState : Obligations.AcceptedCommandState := fun _ idle =>
  ⟨fun _ _ => exec_of_idle idle, fun _ _ _ => exec_of_idle idle, exec_of_idle idle, exec_of_idle idle⟩

/-- Settles O8. -/
theorem busyCommandDropped : Obligations.BusyCommandDropped := fun _ busy =>
  ⟨fun _ => presentWord_of_busy busy, fun _ => exec_of_busy busy⟩

/-- Settles O9. -/
theorem illegalWordRejected : Obligations.IllegalWordRejected := fun _ _ _ idle illegal =>
  presentWord_of_illegal idle illegal

/-- Settles O10: a store to CMD presents its word, and the three cases of R90 are BUSY and the decoder's answer. -/
theorem cmdStoreChoosesInOrder : Obligations.CmdStoreChoosesInOrder := by
  intro s w
  rw [access_cmd]
  cases busy : s.status.busy with
  | true => rw [presentWord_of_busy busy, if_pos rfl]
  | false =>
    rw [if_neg Bool.false_ne_true]
    cases answer : decode w with
    | illegal why => exact presentWord_of_illegal busy answer
    | cmd i => exact (presentWord_cmd answer s).trans (exec_of_idle busy)

/-- A step takes the first queued turn, in the state whose queue is the rest. -/
theorem step_of_turns {t : Turn} {rest : List Turn} (turns : s.turns = t :: rest) :
    step s = turn t { s with turns := rest } := by
  rw [step_eq, nextTurn, popTurn, turns]

/-- R90: a turn of a HOST that has not faulted, storing to CMD the word of a command, runs the command. -/
theorem turn_storeCmd (noFault : s.host.fault = none) (cmd : decode w = .cmd i) :
    turn (.host (.write 0x08#8 4 w)) s = exec i s := by
  rw [turn, hostTurn, noFault, access_cmd, presentWord_cmd cmd]

theorem decode_of_instr (h : (decode w).instr = some i) : decode w = .cmd i := by
  cases answer : decode w with
  | cmd j => rw [answer] at h; exact congrArg Decoded.cmd (Option.some.inj h)
  | illegal why => rw [answer] at h; cases h

/-- Settles O11: a word that `withFetchWord` places is at the head of the queue of a HOST that has not faulted. -/
theorem stepRunsDecodedCommand : Obligations.StepRunsDecodedCommand := by
  refine ⟨fun s rest w i turns noFault cmd => ?_, fun s nbits w i cmd => ?_⟩
  · exact (step_of_turns turns).trans (turn_storeCmd noFault cmd)
  · exact (step_of_turns rfl).trans (turn_storeCmd rfl (decode_of_instr cmd))

end Sys2Proof.Machine
end

section
/-! SUPPORT. One turn of BUS or of CTL in a transaction (R94 to R114): a request that completes well, one that is answered NACK, a
wait cycle, a timeout and the two internal steps. -/

namespace Sys2Proof.Machine

variable {s : State} {q : Req} {ans : Ack} {b : Byte}

/-! The BUS step (R95). -/

theorem busStep_of_pending (req : s.wait.req = some q) (pending : s.wait.reqst = .pending) :
    busStep ans b s = completeReq q ans b s := by
  rw [busStep, req, pending]

/-- R96 to R108: a request that has no answer, or is answered ACK, completes well. -/
theorem busStep_of_well (req : s.wait.req = some q) (pending : s.wait.reqst = .pending)
    (well : q.answered = true → ans = .ack) :
    busStep ans b s = advance q b (emit (q.event s.latch ans b) s) := by
  rw [busStep_of_pending req pending, completeReq, if_neg]
  intro nack
  obtain ⟨answered, nack⟩ := Bool.and_eq_true_iff.1 nack
  rw [well answered] at nack
  cases nack

theorem busStep_of_nack (req : s.wait.req = some q) (pending : s.wait.reqst = .pending) (answered : q.answered = true) :
    busStep .nack b s =
      if s.latch.lnacke then nackAbort q (emit (q.event s.latch .nack b) s)
      else nackStall (emit (q.event s.latch .nack b) s) := by
  rw [busStep_of_pending req pending, completeReq, if_pos (by rw [answered]; rfl)]
  rfl

/-- R112: a stalled request is never completed. -/
theorem busStep_of_stalled (stalled : s.stalled = true) : busStep ans b s = s := by
  rcases busStep_cases s ans b with ⟨same, -⟩ | ⟨q, -, pending, -⟩
  · exact same
  · simp [State.stalled, pending] at stalled

/-- Settles O13: the parts of the state after `advance`, the event having been put on the trace. -/
theorem completedRequestAdvances : Obligations.CompletedRequestAdvances := by
  intro s q ans b _ onBus req pending well
  refine ⟨_, congrArg Host.Outcome.next (busStep_of_well req pending well), ?_⟩
  refine ⟨?_, ?_, advance_wait q b (emit _ s) onBus, advance_regs q b (emit _ s), ?_, ?_, ?_, ?_⟩
  all_goals simp

/-- Settles O14. -/
theorem nackWithDetectionAborts : Obligations.NackWithDetectionAborts := by
  intro s q b req pending answered detection
  have abort := busStep_of_nack (b := b) req pending answered
  rw [if_pos detection] at abort
  exact ⟨_, congrArg Host.Outcome.next abort, rfl, rfl, rfl, rfl, rfl, rfl, rfl⟩

/-- Settles O15. -/
theorem nackWithoutDetectionStalls : Obligations.NackWithoutDetectionStalls := by
  refine ⟨fun s q b req pending answered off => ?_, fun s ans b stalled => ⟨?_, ?_⟩⟩
  · have stall := busStep_of_nack (b := b) req pending answered
    rw [if_neg (by simp [off])] at stall
    exact ⟨_, congrArg Host.Outcome.next stall, rfl, rfl, rfl, rfl, rfl, rfl⟩
  · exact congrArg Host.Outcome.next (busStep_of_stalled stalled)
  · obtain ⟨ans', b', same⟩ := targetStep_eq s ans b
    exact congrArg Host.Outcome.next (same.trans (busStep_of_stalled stalled))

/-! The CTL steps. -/

theorem ctlStep_of_request (req : s.wait.req = some q) : ctlStep s = waitCycle q s := by
  rw [ctlStep, req]

/-- R109: the completion step of a bus command. -/
theorem ctlStep_of_stopSent (phase : s.status.phase = .stopSent) (req : s.wait.req = none) : ctlStep s = complete s := by
  rw [ctlStep, req]
  exact if_pos phase

/-- R106: after the second address byte of a read, acknowledgment is disabled. -/
theorem ctlStep_of_addrRSent (lop : s.latch.lop = some .rd) (phase : s.status.phase = .addrRSent)
    (req : s.wait.req = none) : ctlStep s = ackDisable s := by
  simp [ctlStep, lop, phase, req]

/-- The state whose wait counter is `n`. -/
def setCount (n : Word) (s : State) : State := { s with wait := { s.wait with wcnt := n } }

@[simp] theorem setCount_regs (n : Word) (s : State) : (setCount n s).regs = s.regs := rfl
@[simp] theorem setCount_status (n : Word) (s : State) : (setCount n s).status = s.status := rfl
@[simp] theorem setCount_latch (n : Word) (s : State) : (setCount n s).latch = s.latch := rfl
@[simp] theorem setCount_wait (n : Word) (s : State) : (setCount n s).wait = { s.wait with wcnt := n } := rfl
@[simp] theorem setCount_trace (n : Word) (s : State) : (setCount n s).trace = s.trace := rfl
@[simp] theorem setCount_target (n : Word) (s : State) : (setCount n s).target = s.target := rfl
@[simp] theorem setCount_host (n : Word) (s : State) : (setCount n s).host = s.host := rfl
@[simp] theorem setCount_turns (n : Word) (s : State) : (setCount n s).turns = s.turns := rfl

/-- R113: a wait cycle counts, and times out where the bound is reached. -/
theorem waitCycle_eq (q : Req) (s : State) : waitCycle q s =
    if s.latch.ltout ≠ 0#32 ∧ s.latch.ltout.toNat ≤ (bump s.wait.wcnt).toNat
    then timeout q (setCount (bump s.wait.wcnt) s) else setCount (bump s.wait.wcnt) s := rfl

/-- Settles O16: the count is `bump` of the counter. -/
theorem waitCycleCountsAndTimesOut : Obligations.WaitCycleCountsAndTimesOut := fun s q req =>
  ⟨bump s.wait.wcnt, bump_toNat _, congrArg Host.Outcome.next ((ctlStep_of_request req).trans (waitCycle_eq q s))⟩

/-- Settles O17: the parts of the state after a timeout. -/
theorem timeoutReleasesTheBus : Obligations.TimeoutReleasesTheBus := fun s q =>
  ⟨timeout_status s q, timeout_trace s q, timeout_wait s q, timeout_latch s q, timeout_regs s q, timeout_host s q,
    timeout_turns s q⟩

/-- Settles O18. -/
theorem internalStepsOfTheController : Obligations.InternalStepsOfTheController :=
  ⟨fun _ lop phase req => congrArg Host.Outcome.next (ctlStep_of_addrRSent lop phase req),
    fun _ phase req => congrArg Host.Outcome.next (ctlStep_of_stopSent phase req)⟩

end Sys2Proof.Machine
end

section
/-! SUPPORT. Runs that end a command: the STOP of a transaction and the completion step (R108, R109), and the wait cycles that use
up a bound (R113, R114). -/

namespace Sys2Proof.Machine

variable {s t u : State} {q : Req} {ans : Ack} {b : Byte}

theorem runTurns_cons {v : Turn} {vs : List Turn} (first : turn v s = .next t) (rest : runTurns vs t = .next u) :
    runTurns (v :: vs) s = .next u := by
  rw [runTurns, first]
  exact rest

theorem runTurns_trans {us vs : List Turn} (first : runTurns us s = .next t) (rest : runTurns vs t = .next u) :
    runTurns (us ++ vs) s = .next u := by
  rw [runTurns_append, first]
  exact rest

/-- R108, R109: what the STOP of a transaction and the completion step leave. -/
def endByStop (s : State) : State := complete (clearReq (setPhase .stopSent (emit .stop s)))

@[simp] theorem endByStop_regs (s : State) : (endByStop s).regs = s.regs := rfl
@[simp] theorem endByStop_status (s : State) :
    (endByStop s).status = { s.status with phase := .idle, busy := false, done := true } := rfl
@[simp] theorem endByStop_latch (s : State) : (endByStop s).latch = { s.latch with lop := none } := rfl
@[simp] theorem endByStop_wait (s : State) : (endByStop s).wait = { s.wait with req := none, abort := false } := rfl
@[simp] theorem endByStop_trace (s : State) : (endByStop s).trace = s.trace ++ [.stop] := rfl
@[simp] theorem endByStop_target (s : State) : (endByStop s).target = s.target.onEnd := rfl
@[simp] theorem endByStop_host (s : State) : (endByStop s).host = s.host := rfl
@[simp] theorem endByStop_turns (s : State) : (endByStop s).turns = s.turns := rfl

/-- R109: the completion step after a STOP. -/
theorem runTurns_complete (s : State) :
    runTurns [.ctl] (clearReq (setPhase .stopSent (emit .stop s))) = .next (endByStop s) :=
  congrArg Host.Outcome.next (ctlStep_of_stopSent rfl rfl)

/-- R108, R109: whatever BUS answers, STOP and the completion step end a command that has requested STOP. -/
theorem runTurns_stop (req : s.wait.req = some .stop) (pending : s.wait.reqst = .pending) :
    runTurns [.bus ans b, .ctl] s = .next (endByStop s) :=
  runTurns_cons (congrArg Host.Outcome.next (busStep_of_well req pending nofun)) (runTurns_complete s)

/-- R111: a NACK with detection on. -/
theorem turn_nack (req : s.wait.req = some q) (pending : s.wait.reqst = .pending) (answered : q.answered = true)
    (detection : s.latch.lnacke = true) :
    turn (.bus .nack b) s = .next (nackAbort q (emit (q.event s.latch .nack b) s)) := by
  rw [turn, busStep_of_nack req pending answered, if_pos detection]

/-- Settles O22: the NACK leaves STOP requested, which STOP and the completion step end. -/
theorem nackAbortCompletes : Obligations.NackAbortCompletes := by
  intro s q ans b b' req pending answered detection
  refine ⟨_, runTurns_cons (turn_nack req pending answered detection) (runTurns_stop rfl rfl), ?_⟩
  simp

/-- R113, R114: the wait cycle that brings the counter to the bound. -/
theorem turn_timeout (req : s.wait.req = some q) (bound : s.latch.ltout ≠ 0#32)
    (reached : bump s.wait.wcnt = s.latch.ltout) : turn .ctl s = .next (timeout q (setCount s.latch.ltout s)) := by
  rw [turn, ctlStep_of_request req, waitCycle_eq, reached, if_pos ⟨bound, le_rfl⟩]

/-- R113, R114: the wait cycles that bring the counter to the bound end in a timeout. -/
theorem runTurns_timeout (n : Nat) (req : s.wait.req = some q) (bound : s.latch.ltout ≠ 0#32)
    (used : s.wait.wcnt.toNat + (n + 1) = s.latch.ltout.toNat) :
    runTurns (List.replicate (n + 1) .ctl) s = .next (timeout q (setCount s.latch.ltout s)) := by
  obtain ⟨c, count, waits⟩ := waits_below_bound q n s req (.inr (by omega))
  have reached : bump c = s.latch.ltout := by
    apply BitVec.eq_of_toNat_eq
    have := s.latch.ltout.isLt
    rw [bump_toNat]
    omega
  rw [List.replicate_succ']
  exact runTurns_trans waits (runTurns_cons (turn_timeout (s := setCount c s) req bound reached) rfl)

/-- R43: a byte on the bus does not change who owns it. -/
theorem owns_event_of_answered (answered : q.answered = true) (l : Latch) (before : Bool) :
    (q.event l ans b).owns before = before := by
  cases q with
  | addrw | txreg | txdata | addrr => rfl
  | start | rstart | rxnack | stop => cases answered

/-- Settles O23: the NACK starts the wait for its STOP at 0, so `ltout` wait cycles time out; the bus is owned still, and the
error of the NACK stands. -/
theorem firstErrorWinsOverTimeout : Obligations.FirstErrorWinsOverTimeout := by
  intro s q b req pending answered detection bound own
  obtain ⟨n, limit⟩ : ∃ n, s.latch.ltout.toNat = n + 1 :=
    Nat.exists_eq_succ_of_ne_zero fun h => bound (BitVec.eq_of_toNat_eq h)
  have waits := runTurns_timeout (s := nackAbort q (emit (q.event s.latch .nack b) s)) n rfl bound
    (by simp [limit])
  refine ⟨_, runTurns_cons (turn_nack req pending answered detection) (limit ▸ waits), ?_, ?_⟩
  · rw [timeout_trace]
    simp [owned_append, owns_event_of_answered answered, own]
  · simp [timeout_status]

end Sys2Proof.Machine
end

section
/-! SUPPORT. The wait invariant (R41, R113): a request is issued with its counter at 0, and only a wait cycle below the bound
counts on. -/

namespace Sys2Proof.Machine

variable {s t : State} {q : Req}

theorem waitInv_of_noRequest (req : s.wait.req = none) : s.WaitInv := fun _ pending => absurd req pending

/-- R94: a request is issued with its counter at 0. -/
theorem waitInv_of_fresh (fresh : s.wait.wcnt = 0#32) : s.WaitInv := by
  intro bound _
  rw [fresh]
  exact (BitVec.pos_iff_ne_zero _).2 bound

/-- R92: a bus command starts a wait; HEADING and SECTOR are accepted where nothing is waited for. -/
theorem acceptOf_waitInv (i : Instr) (control : s.ControlInv) (idle : s.status.busy = false) : (acceptOf i s).WaitInv := by
  have off : s.latch.lop = none := by simpa [idle] using control.1
  obtain ⟨-, -, req⟩ := idle_of_sequenced control.2.1 (by simp [off])
  cases i with
  | rdreg | wrreg => exact waitInv_of_fresh rfl
  | heading | sector => exact waitInv_of_noRequest req

theorem HostEffect.waitInv (h : HostEffect s t) (control : s.ControlInv) (hs : s.WaitInv) : t.WaitInv := by
  cases h with
  | accepted _ i idle => exact acceptOf_waitInv i control idle
  | quiet | store | clearOvr | dropped | rejected => exact hs

/-- R113: a wait cycle stays below the bound, or ends the command. -/
theorem waitCycle_waitInv (q : Req) : (waitCycle q s).WaitInv := by
  rcases waitCycle_cases s q with ⟨h, below⟩ | ⟨h, -⟩ <;> rw [h]
  · exact fun bound _ => below.resolve_left bound
  · exact waitInv_of_noRequest (by simp)

theorem ctlStep_waitInv (hs : s.WaitInv) : (ctlStep s).WaitInv := by
  rcases ctlStep_cases s with ⟨q, -, h⟩ | ⟨req, -, h⟩ | ⟨-, -, -, h⟩ | ⟨req, -, h⟩ | ⟨req, -, h⟩ | h <;> rw [h]
  · exact waitCycle_waitInv q
  · exact waitInv_of_noRequest req
  · exact waitInv_of_fresh rfl
  · exact waitInv_of_noRequest req
  · exact waitInv_of_noRequest (by simpa using req)
  · exact hs

/-- R94, R111, R112: a step of BUS issues a request, leaves none, or stalls the one that waits. -/
theorem busStep_waitInv (ans : Ack) (b : Byte) (control : s.ControlInv) (hs : s.WaitInv) : (busStep ans b s).WaitInv := by
  rcases busStep_cases s ans b with ⟨h, -⟩ | ⟨q, req, -, ⟨-, -, -, h⟩ | ⟨-, -, -, h⟩ | ⟨-, h⟩⟩ <;> rw [h]
  · exact hs
  · exact waitInv_of_fresh rfl
  · exact hs
  · have wait := advance_wait q b (emit (q.event s.latch ans b) s) (onBus_of_request (req ▸ control.2.1))
    cases follow : nextReq s.latch.lop q <;> simp only [emit_latch, follow] at wait
    · exact waitInv_of_noRequest (by rw [wait])
    · exact waitInv_of_fresh (by rw [wait])

/-- Settles O30: each agent's turn keeps the invariant. -/
theorem stepKeepsWaitBelowBound : Obligations.StepKeepsWaitBelowBound := by
  intro s s' h control hs
  have control : (popTurn s).ControlInv := by simpa [State.ControlInv, State.stalled] using control
  have hs : (popTurn s).WaitInv := by simpa [State.WaitInv] using hs
  rcases turn_cases h with ⟨-, -, host⟩ | ⟨-, rfl⟩ | ⟨ans, b, -, rfl⟩ | ⟨-, rfl⟩
  · exact host.waitInv control hs
  · exact ctlStep_waitInv hs
  · exact busStep_waitInv ans b control hs
  · exact waitInv_of_noRequest rfl

end Sys2Proof.Machine
end

section
/-! SUPPORT. The hang (R112, R116): what the turns of the HOST, of CTL and of BUS leave of a stalled request without a bound, and
the polling loops of `runCmd` (R165), which no turn takes further while BUSY = 1 and DONE = 0. -/

namespace Sys2Proof.Machine

variable {s t : State} {v w : Word} {u : Turn}

/-! What is hung stays so. -/

/-- With BUSY = 1 the HOST can change its own variables, registers and OVR. -/
theorem HostEffect.hung (h : HostEffect s t) (hung : s.Hung) :
    t.Hung ∧ t.trace = s.trace ∧ t.status.phase = s.status.phase := by
  have busy : s.status.busy = true := hung.2.2.1
  cases h with
  | rejected _ idle | accepted _ _ idle => simp [busy] at idle
  | quiet | store | clearOvr | dropped => exact ⟨hung, rfl, rfl⟩

/-- R113, R116: with no bound a wait cycle only counts. -/
theorem ctlStep_hung (hung : s.Hung) : ∃ n, ctlStep s = setCount n s := by
  obtain ⟨stalled, noBound, -, -⟩ := hung
  obtain ⟨q, req⟩ : ∃ q, s.wait.req = some q := by
    rw [← Option.isSome_iff_exists]
    exact (Bool.and_eq_true_iff.1 stalled).1
  refine ⟨bump s.wait.wcnt, ?_⟩
  rw [ctlStep_of_request req, waitCycle_eq, if_neg (by simp [noBound])]

/-- R112, R116: a turn other than a reset leaves the block hung. -/
theorem turn_hung (h : turn u s = .next t) (notReset : u ≠ .reset) (hung : s.Hung) :
    t.Hung ∧ t.trace = s.trace ∧ t.status.phase = s.status.phase := by
  rcases turn_cases h with ⟨-, -, host⟩ | ⟨-, rfl⟩ | ⟨ans, b, -, rfl⟩ | ⟨reset, -⟩
  · exact host.hung hung
  · obtain ⟨n, count⟩ := ctlStep_hung hung
    rw [count]
    exact ⟨hung, rfl, rfl⟩
  · rw [busStep_of_stalled hung.1]
    exact ⟨hung, rfl, rfl⟩
  · exact absurd reset notReset

/-! A polling HOST stays polling. -/

theorem statusBusy_word (st : Status) : statusBusy st.word = st.busy := by
  simp only [statusBusy, Status.word, BitVec.getLsbD_append]
  simp

theorem statusDone_word (st : Status) : statusDone st.word = st.done := by
  simp only [statusDone, Status.word, BitVec.getLsbD_append]
  simp

theorem readOff_status (s : State) : readOff s 0x0C#8 = s.status.word := by simp [readOff, readReg]

theorem presentWord_script (h : presentWord w s = .next t) : t.host.script = s.host.script := by
  rcases presentWord_next h with ⟨-, rfl⟩ | ⟨-, rfl⟩ | ⟨i, -, -, rfl⟩
  · rfl
  · rfl
  · cases i <;> rfl

theorem writeReg_script {r : Reg} (h : writeReg r v s = .next t) : t.host.script = s.host.script := by
  cases r with
  | cmd => exact presentWord_script h
  | status =>
    injection h with h; subst h
    unfold writeStatus
    split <;> rfl
  | ctrl | timeout | hxy | hainLo | hainHi | rxdata | hangleLo | hangleHi | hsector => injection h with h; subst h; rfl

/-- R56: an access is no statement of a procedure. -/
theorem access_script {a : Access} (h : access a s = .next t) : t.host.script = s.host.script := by
  unfold access at h
  split at h
  · cases a with
    | read off n => injection h with h; subst h; rfl
    | write off n v =>
      dsimp only at h
      unfold writeOff at h
      split at h
      · exact writeReg_script h
      · injection h with h; subst h; rfl
  · injection h with h; subst h; rfl

/-- R165: with BUSY = 1 and DONE = 0 each polling loop reads STATUS once more and stays. -/
theorem threadStep_polling (polling : s.Polling) (busy : s.status.busy = true) (notDone : s.status.done = false) :
    threadStep s = .next (load 0x0C#8 s) := by
  unfold threadStep
  cases script : s.host.script with
  | nil => simp [State.Polling, script] at polling
  | cons op rest =>
    have op : op = .waitIdle ∨ op = .waitDone := by simpa [State.Polling, script] using polling
    rcases op with rfl | rfl
    · simp [runOp, readOff_status, statusBusy_word, busy]
    · simp [runOp, readOff_status, statusDone_word, notDone]

/-- R16, R165: no turn takes the script of a polling HOST further while BUSY = 1 and DONE = 0. -/
theorem turn_polling (h : turn u s = .next t) (polling : s.Polling) (busy : s.status.busy = true)
    (notDone : s.status.done = false) : t.host.script = s.host.script := by
  cases u with
  | host a => exact access_script (hostTurn_next h)
  | call p =>
    have h := hostTurn_next (act := fun s => .next (callProc p s)) h
    injection h with h; subst h
    have running : s.host.script ≠ [] := by
      intro none
      simp [State.Polling, none] at polling
    rw [callProc, if_neg running]
  | thread =>
    have h := hostTurn_next h
    rw [threadStep_polling polling busy notDone] at h
    injection h with h; subst h; rfl
  | ctl => injection h with h; subst h; simp
  | bus ans b => injection h with h; subst h; simp
  | target ans draw =>
    injection h with h; subst h
    obtain ⟨ans', b', same⟩ := targetStep_eq s ans draw
    simp [same]
  | reset => injection h with h; subst h; simp

/-- Settles O24: a hung block has BUSY = 1, so a program has not ended. -/
theorem stalledRequestHangsUntilReset : Obligations.StalledRequestHangsUntilReset := by
  intro s s' u hung notReset h
  obtain ⟨-, -, busy, notDone⟩ := id hung
  obtain ⟨hung', trace, phase⟩ := turn_hung h notReset hung
  refine ⟨hung', trace, phase, fun polling => ⟨turn_polling h polling busy notDone, fun ended => ?_⟩⟩
  obtain ⟨-, -, busy', -⟩ := hung'
  obtain ⟨-, -, idle⟩ := ended
  simp [busy'] at idle

end Sys2Proof.Machine
end

section
/-! SUPPORT. RDREG and WRREG on a healthy bus (R100, R101, R118, R160): one request after its waits, as the target answers it; the
target's position after the events of a transaction (R152); and the two transactions, request by request. -/

namespace Sys2Proof.Machine

variable {s : State} {q q' : Req} {ph : Phase} {n : Nat} {k : Nat → Nat} {ans : Ack} {draw : Byte}

/-! Acceptance (R92). -/

theorem setPhase_of_phase (phase : s.status.phase = ph) : setPhase ph s = s := by rw [setPhase, ← phase]

/-- R92: a bus command accepted where the controller is idle asks for START in IDLE. -/
theorem exec_rdreg_of_idle (idle : s.status.busy = false) (phase : s.status.phase = .idle) (dev : DevAddr) (reg : Byte) :
    exec (.rdreg dev reg) s = .next (issue .start (setPhase .idle (latchBus dev reg 0#8 (accept .rd s)))) := by
  rw [exec_of_idle idle, setPhase_of_phase (s := latchBus dev reg 0#8 (accept .rd s)) phase]
  rfl

theorem exec_wrreg_of_idle (idle : s.status.busy = false) (phase : s.status.phase = .idle) (dev : DevAddr)
    (reg data : Byte) :
    exec (.wrreg dev reg data) s = .next (issue .start (setPhase .idle (latchBus dev reg data (accept .wr s)))) := by
  rw [exec_of_idle idle, setPhase_of_phase (s := latchBus dev reg data (accept .wr s)) phase]
  rfl

/-! One request. -/

/-- R113, R160: `n` wait cycles do not use up the bound `lim`, if there is one. -/
abbrev WaitBelow (n : Nat) (lim : Word) : Prop := lim = 0#32 ∨ n < lim.toNat

theorem waitBelow_of_waitsWithin {lim : Word} (within : WaitsWithin k lim) (j : Nat) : WaitBelow (k j) lim :=
  within.imp_right (· j)

/-- R104: only an answered request's event holds the answer. -/
theorem event_of_well (well : q.answered = true → ans = .ack) (l : Latch) (b : Byte) :
    q.event l ans b = q.event l .ack b := by
  cases q with
  | addrw | txreg | txdata | addrr => rw [well rfl]
  | start | rstart | rxnack | stop => rfl

/-- R160: the target answers `q` with ACK, where `q` has an answer. -/
def Acknowledged (s : State) (q : Req) (ans : Ack) : Prop := q.answered = true → s.target.answer s.latch q ans = .ack

/-- R95, R152: a BUS turn in which the target answers with ACK. -/
theorem turn_target (req : s.wait.req = some q) (pending : s.wait.reqst = .pending) (acked : Acknowledged s q ans) :
    turn (.target ans draw) s =
      .next (advance q (s.target.supply draw) (emit (q.event s.latch .ack (s.target.supply draw)) s)) := by
  rw [turn, targetStep, req, ← event_of_well acked]
  exact congrArg Host.Outcome.next (busStep_of_well req pending acked)

/-- R95, R113: after waits below the bound the target's answer completes the request; the counter holds the waits. -/
theorem runTurns_waitThenTarget (req : s.wait.req = some q) (pending : s.wait.reqst = .pending)
    (fresh : s.wait.wcnt = 0#32) (below : WaitBelow n s.latch.ltout)
    (acked : Acknowledged s q ans) :
    ∃ c, runTurns (waitThenTarget n ans draw) s =
      .next (advance q (s.target.supply draw) (emit (q.event s.latch .ack (s.target.supply draw)) (setCount c s))) := by
  obtain ⟨c, -, waits⟩ := waits_below_bound q n s req (by simpa [fresh] using below)
  exact ⟨c, runTurns_trans waits (runTurns_cons (turn_target (s := setCount c s) req pending acked) rfl)⟩

/-- R107: the byte of RXNACK goes to RXDATA. -/
def receive (q : Req) (b : Byte) (s : State) : State :=
  if q = .rxnack then { s with regs := { s.regs with rxdata := b } } else s

/-- R94 to R103, R107: a request that completes well and is followed by another. -/
theorem advance_of_next (onBus : s.onBus) (next : nextReq s.latch.lop q = some q') (b : Byte) :
    advance q b s = issue q' (setPhase q.phase (receive q b s)) := by
  cases q with
  | txreg =>
    rcases onBus with lop | lop
    all_goals
      rw [lop] at next
      cases next
      rw [advance, setPhase_latch, lop]
      rfl
  | start | addrw | txdata | rstart | rxnack => cases next; rfl
  | addrr | stop => cases next

/-- R94: a request that is followed by another leaves nothing of its own wait and of the phase before it. -/
theorem runTurns_request (ph : Phase) (ans : Ack) (draw : Byte) (onBus : s.onBus)
    (next : nextReq s.latch.lop q = some q') (below : WaitBelow n s.latch.ltout) (acked : Acknowledged s q ans) :
    runTurns (waitThenTarget n ans draw) (issue q (setPhase ph s)) =
      .next (issue q' (setPhase q.phase (receive q (s.target.supply draw)
        (emit (q.event s.latch .ack (s.target.supply draw)) s)))) := by
  obtain ⟨c, run⟩ := runTurns_waitThenTarget (s := issue q (setPhase ph s)) (draw := draw) rfl rfl rfl below acked
  refine run.trans (congrArg Host.Outcome.next ?_)
  rw [advance_of_next (s := emit _ (setCount c (issue q (setPhase ph s)))) onBus next, receive, receive]
  split <;> rfl

/-- R105, R106: the second address byte of a read and the step that disables acknowledgment. -/
theorem runTurns_readAddress (ph : Phase) (draw : Byte) (lop : s.latch.lop = some .rd) (below : WaitBelow n s.latch.ltout)
    (acked : Acknowledged s .addrr ans) :
    runTurns (waitThenTarget n ans draw ++ [.ctl]) (issue .addrr (setPhase ph s)) =
      .next (issue .rxnack (setPhase .ackDisabled (emit (.addr s.latch.ldev .r .ack) s))) := by
  obtain ⟨c, run⟩ := runTurns_waitThenTarget (s := issue .addrr (setPhase ph s)) (draw := draw) rfl rfl rfl below acked
  exact runTurns_trans run (runTurns_cons (congrArg Host.Outcome.next (ctlStep_of_addrRSent lop rfl rfl)) rfl)

/-- R108, R109: the STOP of a transaction and the completion step. -/
theorem runTurns_waitThenStop (ph : Phase) (ans : Ack) (draw : Byte) (below : WaitBelow n s.latch.ltout) :
    ∃ c, runTurns (waitThenTarget n ans draw ++ [.ctl]) (issue .stop (setPhase ph s)) =
      .next (endByStop (setCount c (issue .stop s))) := by
  obtain ⟨c, run⟩ := runTurns_waitThenTarget (s := issue .stop (setPhase ph s)) (ans := ans) (draw := draw) rfl rfl rfl
    below nofun
  exact ⟨c, runTurns_trans run (runTurns_complete _)⟩

/-! The stored registers of the target (R154). -/

section
variable (t : Target) (r b : Byte)

@[simp] theorem Target.write_tcra : (t.write r b).tcra = if r = 0x00#8 then some b else t.tcra := by
  unfold Target.write; split_ifs <;> simp_all

@[simp] theorem Target.write_tcrb : (t.write r b).tcrb = if r = 0x01#8 then some b else t.tcrb := by
  unfold Target.write; split_ifs <;> simp_all

@[simp] theorem Target.write_tmr : (t.write r b).tmr = if r = 0x02#8 then some (b.extractLsb' 0 2) else t.tmr := by
  unfold Target.write; split_ifs <;> simp_all

end

/-! Several events, and where they leave the target (R152). -/

/-- The events `es`, put on the bus in their order. -/
def emitAll (es : List BusEvent) (s : State) : State := es.foldl (fun s e => emit e s) s

theorem emitAll_cons (e : BusEvent) (es : List BusEvent) (s : State) : emitAll (e :: es) s = emitAll es (emit e s) := rfl

section
variable (es : List BusEvent) (s : State)

/-- R10: putting events on the bus changes the trace, the target and the count of free values alone. -/
theorem emitAll_parts : emitAll es s = { s with
    trace := s.trace ++ es, target := (emitAll es s).target, draws := s.draws + es.length } := by
  induction es generalizing s with
  | nil => simp [emitAll]
  | cons e es ih =>
    rw [emitAll_cons, ih]
    simp [emit]
    omega

@[simp] theorem emitAll_regs : (emitAll es s).regs = s.regs := by rw [emitAll_parts]
@[simp] theorem emitAll_status : (emitAll es s).status = s.status := by rw [emitAll_parts]
@[simp] theorem emitAll_latch : (emitAll es s).latch = s.latch := by rw [emitAll_parts]
@[simp] theorem emitAll_trace : (emitAll es s).trace = s.trace ++ es := by rw [emitAll_parts]
@[simp] theorem emitAll_host : (emitAll es s).host = s.host := by rw [emitAll_parts]
@[simp] theorem emitAll_turns : (emitAll es s).turns = s.turns := by rw [emitAll_parts]
@[simp] theorem emitAll_draws : (emitAll es s).draws = s.draws + es.length := by rw [emitAll_parts]

end

/-- R100, R101: the events with which both bus commands begin. -/
def addressEvents (d : DevAddr) (r : Byte) : List BusEvent := [.start, .addr d .w .ack, .tx r .ack]

@[simp] theorem addressEvents_length (d : DevAddr) (r : Byte) : (addressEvents d r).length = 3 := rfl

/-- R100: the events with which an RDREG gets its byte. -/
def readByteEvents (d : DevAddr) (b : Byte) : List BusEvent := [.rstart, .addr d .r .ack, .rx b .nack]

theorem readEvents_eq (d : DevAddr) (r b : Byte) :
    readEvents d r b = addressEvents d r ++ (readByteEvents d b ++ [.stop]) := rfl

theorem writeEvents_eq (d : DevAddr) (r v : Byte) : writeEvents d r v = addressEvents d r ++ [.tx v .ack, .stop] := rfl

/-- R152, R153: the target's register pointer is set. -/
theorem target_addressEvents (r : Byte) (s : State) : (emitAll (addressEvents Config.devAddr r) s).target =
    { s.target with tseq := .ptrSet, tptr := r } := by
  simp [emitAll, addressEvents, Target.observe, Target.onStart, Target.onAddr, Target.onTx]

/-- R152, R153: the target has been read, and its pointer is unspecified again (log 5). -/
theorem target_readByteEvents (b : Byte) (s : State) : (emitAll (readByteEvents Config.devAddr b) s).target =
    { s.target with tseq := .addrR, tptr := Config.freeByte (s.draws + 2) } := by
  simp [emitAll, readByteEvents, Target.observe, Target.onStart, Target.onAddr, Target.onRx]

/-- R152: the target's own address, after a START. -/
theorem acknowledged_address (started : s.target.tseq = .started) (dev : s.latch.ldev = Config.devAddr)
    (address : q = .addrw ∨ q = .addrr) : Acknowledged s q ans := by
  intro _
  rcases address with rfl | rfl <;> simp [Target.answer, started, dev]

/-- R152, R159: a register of the target's map. -/
theorem acknowledged_register (addressed : s.target.tseq = .addrW) (known : mapped s.latch.lreg = true) :
    Acknowledged s .txreg ans := by
  simp [Acknowledged, Target.answer, addressed, known]

/-- R152, R159: a byte for a register of the target's map. -/
theorem acknowledged_data (set : s.target.tseq = .ptrSet) (known : mapped s.target.tptr = true) :
    Acknowledged s .txdata ans := by
  simp [Acknowledged, Target.answer, set, known]

/-! The two transactions, in the state of their latches. -/

/-- R100, R101: START, the address and the register. -/
theorem runTurns_addressRegister (ans : Ack) (draw : Byte) (onBus : s.onBus)
    (next : nextReq s.latch.lop .txreg = some q') (dev : s.latch.ldev = Config.devAddr)
    (known : mapped s.latch.lreg = true) (within : WaitsWithin k s.latch.ltout) :
    runTurns (waitThenTarget (k 0) ans draw ++ waitThenTarget (k 1) ans draw ++ waitThenTarget (k 2) ans draw)
        (issue .start (setPhase .idle s)) =
      .next (issue q' (setPhase .regAddrSent (emitAll (addressEvents Config.devAddr s.latch.lreg) s))) := by
  have below := waitBelow_of_waitsWithin within
  have start := runTurns_request (q := .start) .idle ans draw onBus rfl (below 0) nofun
  have address := runTurns_request (s := emit .start s) (q := .addrw) .startSent ans draw onBus rfl (below 1)
    (acknowledged_address rfl dev (.inl rfl))
  have register := runTurns_request (s := emit (.addr s.latch.ldev .w .ack) (emit .start s)) (q := .txreg) .addrWSent
    ans draw onBus next (below 2)
    (acknowledged_register (by simp [Target.observe, Target.onStart, Target.onAddr, dev]) known)
  rw [← dev]
  exact runTurns_trans (runTurns_trans start address) register

/-- R100, R102 to R107: the repeated START, the second address and the byte of a read. -/
theorem runTurns_readByte (ph : Phase) (ans : Ack) (draw : Byte) (lop : s.latch.lop = some .rd)
    (dev : s.latch.ldev = Config.devAddr) (within : WaitsWithin k s.latch.ltout) :
    runTurns (waitThenTarget (k 3) ans draw ++ (waitThenTarget (k 4) ans draw ++ [.ctl]) ++ waitThenTarget (k 5) ans draw)
        (issue .rstart (setPhase ph s)) =
      .next (issue .stop (setPhase .dataReceived (receive .rxnack (s.target.read s.target.tptr draw)
        (emitAll (readByteEvents Config.devAddr (s.target.read s.target.tptr draw)) s)))) := by
  have below := waitBelow_of_waitsWithin within
  have restart := runTurns_request (q := .rstart) ph ans draw (.inl lop) rfl (below 3) nofun
  have address := runTurns_readAddress (s := emit .rstart s) (ans := ans) .repeatedStart draw lop (below 4)
    (acknowledged_address rfl dev (.inr rfl))
  have byte := runTurns_request (s := emit (.addr s.latch.ldev .r .ack) (emit .rstart s)) (q := .rxnack) .ackDisabled
    ans draw (.inl lop) rfl (below 5) nofun
  have supplied : (emit (.addr s.latch.ldev .r .ack) (emit .rstart s)).target.supply draw =
      s.target.read s.target.tptr draw := by
    simp [Target.observe, Target.onStart, Target.onAddr, dev, Target.supply, Target.read]
  rw [supplied] at byte
  rw [← dev]
  exact runTurns_trans (runTurns_trans restart address) byte

/-- R118: the turns of an RDREG, part by part. -/
theorem healthyRead_eq (k : Nat → Nat) (ans : Ack) (draw : Byte) : healthyRead k ans draw =
    waitThenTarget (k 0) ans draw ++ waitThenTarget (k 1) ans draw ++ waitThenTarget (k 2) ans draw ++
    (waitThenTarget (k 3) ans draw ++ (waitThenTarget (k 4) ans draw ++ [.ctl]) ++ waitThenTarget (k 5) ans draw ++
      (waitThenTarget (k 6) ans draw ++ [.ctl])) := by
  simp only [healthyRead, List.append_assoc]

/-- R118: the turns of a WRREG, part by part. -/
theorem healthyWrite_eq (k : Nat → Nat) (ans : Ack) (draw : Byte) : healthyWrite k ans draw =
    waitThenTarget (k 0) ans draw ++ waitThenTarget (k 1) ans draw ++ waitThenTarget (k 2) ans draw ++
    (waitThenTarget (k 3) ans draw ++ (waitThenTarget (k 4) ans draw ++ [.ctl])) := by
  simp only [healthyWrite, List.append_assoc]

/-- R100: an RDREG of the latched register that has done all but its STOP. -/
def readDone (draw : Byte) (s : State) : State :=
  receive .rxnack (s.target.read s.latch.lreg draw)
    (emitAll (readByteEvents Config.devAddr (s.target.read s.latch.lreg draw))
      (emitAll (addressEvents Config.devAddr s.latch.lreg) s))

/-- R101: a WRREG of the latched register that has done all but its STOP. -/
def writeDone (s : State) : State :=
  emit (.tx s.latch.ldata .ack) (emitAll (addressEvents Config.devAddr s.latch.lreg) s)

section
variable (draw : Byte) (s : State)

@[simp] theorem readDone_regs : (readDone draw s).regs =
    { s.regs with rxdata := s.target.read s.latch.lreg draw } := by simp [readDone, receive]
@[simp] theorem readDone_status : (readDone draw s).status = s.status := by simp [readDone, receive]
@[simp] theorem readDone_latch : (readDone draw s).latch = s.latch := by simp [readDone, receive]
@[simp] theorem readDone_trace : (readDone draw s).trace =
    s.trace ++ addressEvents Config.devAddr s.latch.lreg ++
      readByteEvents Config.devAddr (s.target.read s.latch.lreg draw) := by simp [readDone, receive]
@[simp] theorem readDone_host : (readDone draw s).host = s.host := by simp [readDone, receive]
@[simp] theorem readDone_turns : (readDone draw s).turns = s.turns := by simp [readDone, receive]
theorem readDone_target : (readDone draw s).target =
    { s.target with tseq := .addrR, tptr := Config.freeByte (s.draws + 5) } := by
  simp [readDone, receive, target_readByteEvents, target_addressEvents]

@[simp] theorem writeDone_regs : (writeDone s).regs = s.regs := by simp [writeDone]
@[simp] theorem writeDone_status : (writeDone s).status = s.status := by simp [writeDone]
@[simp] theorem writeDone_latch : (writeDone s).latch = s.latch := by simp [writeDone]
@[simp] theorem writeDone_trace : (writeDone s).trace =
    s.trace ++ addressEvents Config.devAddr s.latch.lreg ++ [.tx s.latch.ldata .ack] := by simp [writeDone]
@[simp] theorem writeDone_host : (writeDone s).host = s.host := by simp [writeDone]
@[simp] theorem writeDone_turns : (writeDone s).turns = s.turns := by simp [writeDone]
theorem writeDone_target : (writeDone s).target =
    { s.target.write s.latch.lreg s.latch.ldata with tseq := .dataW, tptr := Config.freeByte (s.draws + 3) } := by
  simp [writeDone, target_addressEvents, Target.observe, Target.onTx]

end

/-- R100, R118: the transaction of an RDREG. -/
theorem runTurns_healthyRead (ans : Ack) (draw : Byte) (lop : s.latch.lop = some .rd)
    (dev : s.latch.ldev = Config.devAddr) (known : mapped s.latch.lreg = true) (within : WaitsWithin k s.latch.ltout) :
    ∃ c, runTurns (healthyRead k ans draw) (issue .start (setPhase .idle s)) =
      .next (endByStop (setCount c (issue .stop (readDone draw s)))) := by
  have register := runTurns_addressRegister (q' := .rstart) ans draw (.inl lop) (by rw [lop]; rfl) dev known within
  have byte := runTurns_readByte (s := emitAll (addressEvents Config.devAddr s.latch.lreg) s) (k := k) .regAddrSent ans draw
    (by simpa using lop) (by simpa using dev) (by simpa using within)
  rw [target_addressEvents] at byte
  obtain ⟨c, stop⟩ := runTurns_waitThenStop (s := readDone draw s) (n := k 6) .dataReceived ans draw
    (by simpa using waitBelow_of_waitsWithin within 6)
  exact ⟨c, healthyRead_eq k ans draw ▸ runTurns_trans register (runTurns_trans byte stop)⟩

/-- R101, R118: the transaction of a WRREG. -/
theorem runTurns_healthyWrite (ans : Ack) (draw : Byte) (lop : s.latch.lop = some .wr)
    (dev : s.latch.ldev = Config.devAddr) (known : mapped s.latch.lreg = true) (within : WaitsWithin k s.latch.ltout) :
    ∃ c, runTurns (healthyWrite k ans draw) (issue .start (setPhase .idle s)) =
      .next (endByStop (setCount c (issue .stop (writeDone s)))) := by
  have below := waitBelow_of_waitsWithin within
  have register := runTurns_addressRegister (q' := .txdata) ans draw (.inr lop) (by rw [lop]; rfl) dev known within
  have data := runTurns_request (s := emitAll (addressEvents Config.devAddr s.latch.lreg) s) (q := .txdata) .regAddrSent
    ans draw (.inr (by simpa using lop)) rfl (by simpa using below 3)
    (acknowledged_data (by rw [target_addressEvents]) (by rw [target_addressEvents]; exact known))
  obtain ⟨c, stop⟩ := runTurns_waitThenStop (s := writeDone s) (n := k 4) .dataSent ans draw (by simpa using below 4)
  rw [emitAll_latch] at data
  exact ⟨c, healthyWrite_eq k ans draw ▸ runTurns_trans register (runTurns_trans data stop)⟩

/-- Settles O19: acceptance, then the transaction; what the RDREG leaves is `readDone`, ended by STOP. -/
theorem healthyReadCompletes : Obligations.HealthyReadCompletes := by
  intro s reg k ans draw idle phase known within
  obtain ⟨c, run⟩ := runTurns_healthyRead (s := latchBus Config.devAddr reg 0#8 (accept .rd s)) ans draw rfl rfl
    (decide_eq_true known) within
  refine ⟨_, _, exec_rdreg_of_idle idle phase _ _, run, ?_⟩
  simp [readDone_target, Target.onEnd, phase, readEvents_eq]

/-- Settles O20: acceptance, then the transaction; what the WRREG leaves is `writeDone`, ended by STOP. -/
theorem healthyWriteCompletes : Obligations.HealthyWriteCompletes := by
  intro s reg data k ans draw idle phase known within
  obtain ⟨c, run⟩ := runTurns_healthyWrite (s := latchBus Config.devAddr reg data (accept .wr s)) ans draw rfl rfl
    (decide_eq_true known) within
  refine ⟨_, _, exec_wrreg_of_idle idle phase _ _ _, run, ?_⟩
  simp [writeDone_target, Target.onEnd, phase, writeEvents_eq]

end Sys2Proof.Machine
end

section
/-! SUPPORT. HEADING and SECTOR from acceptance to completion (R134, R135, R138, R139): a command latched alone is ended by the
next step of CTL, and no turn of the HOST or of BUS before it touches what that step reads (R39, R145, R206). -/

namespace Sys2Proof.Machine

variable {s t : State}

/-! The CTL steps of HEADING and SECTOR. -/

theorem turn_ctl_of_hdg (lop : s.latch.lop = some .hdg) (phase : s.status.phase = .idle) (req : s.wait.req = none) :
    turn .ctl s = .next (completeHeading s) := by
  simp [turn, ctlStep, lop, phase, req]

theorem turn_ctl_of_sec (lop : s.latch.lop = some .sec) (phase : s.status.phase = .idle) (req : s.wait.req = none) :
    turn .ctl s = .next (completeSector s) := by
  simp [turn, ctlStep, lop, phase, req]

@[simp] theorem completeSector_target (s : State) : (completeSector s).target = s.target := by
  unfold completeSector; dsimp only; split <;> rfl

/-- R46: with BUSY = 0 the controller is idle and asks for nothing. -/
theorem quiet_of_idle (control : s.ControlInv) (idle : s.status.busy = false) :
    s.status.phase = .idle ∧ s.wait.req = none := by
  obtain ⟨busy, row, -, -⟩ := control
  have off : s.latch.lop = none := by simpa [idle] using busy
  exact (idle_of_sequenced row (by simp [off])).2

/-- Settles O43. -/
theorem headingWritesItsResult : Obligations.HeadingWritesItsResult := by
  intro s control idle
  obtain ⟨phase, req⟩ := quiet_of_idle control idle
  refine ⟨_, _, exec_of_idle idle, turn_ctl_of_hdg rfl phase req, ?_⟩
  exact ⟨hiWord_loWord _, rfl, rfl, rfl, req, rfl, rfl, rfl⟩

/-- Settles O44. -/
theorem sectorWritesItsResult : Obligations.SectorWritesItsResult := by
  intro s control idle
  obtain ⟨phase, req⟩ := quiet_of_idle control idle
  refine ⟨_, _, exec_of_idle idle, turn_ctl_of_sec rfl phase req, completeSector_regs _, ?_⟩
  simp [completeSector_status, acceptOf, acceptSector, Regs.ain, req]

/-! What other agents do before the CTL step. -/

/-- R39: BUSY, what was latched, and no request: all a CTL step of HEADING or SECTOR goes by. -/
structure RunsOffBus (l : Latch) (s : State) : Prop where
  busy : s.status.busy = true
  phase : s.status.phase = .idle
  req : s.wait.req = none
  latch : s.latch = l

theorem HostEffect.runsOffBus {l : Latch} (h : HostEffect s t) (hs : RunsOffBus l s) : RunsOffBus l t := by
  obtain ⟨busy, phase, req, latch⟩ := hs
  cases h with
  | rejected _ idle | accepted _ _ idle => simp [busy] at idle
  | quiet | store | clearOvr | dropped => exact ⟨busy, phase, req, latch⟩

/-- R206: without a request a BUS turn changes nothing. -/
theorem busStep_of_noRequest (req : s.wait.req = none) (ans : Ack) (b : Byte) : busStep ans b s = s := by
  simp [busStep, req]

/-- R39, R206: a turn of the HOST or of BUS while HEADING or SECTOR runs keeps the latch and HANGLE. -/
theorem turn_runsOffBus {l : Latch} {u : Turn} (h : turn u s = .next t) (other : u ≠ .ctl ∧ u ≠ .reset)
    (hs : RunsOffBus l s) :
    RunsOffBus l t ∧ t.regs.hangleLo = s.regs.hangleLo ∧ t.regs.hangleHi = s.regs.hangleHi := by
  rcases turn_cases h with ⟨-, -, host⟩ | ⟨ctl, -⟩ | ⟨ans, b, -, rfl⟩ | ⟨reset, -⟩
  · obtain ⟨-, lo, hi, -⟩ := host.readOnly_regs
    exact ⟨host.runsOffBus hs, lo, hi⟩
  · exact absurd ctl other.1
  · rw [busStep_of_noRequest hs.req]; exact ⟨hs, rfl, rfl⟩
  · exact absurd reset other.2

theorem runTurns_runsOffBus {l : Latch} {us : List Turn} (others : ∀ u ∈ us, u ≠ .ctl ∧ u ≠ .reset)
    (run : runTurns us s = .next t) (hs : RunsOffBus l s) :
    RunsOffBus l t ∧ t.regs.hangleLo = s.regs.hangleLo ∧ t.regs.hangleHi = s.regs.hangleHi := by
  induction us generalizing s with
  | nil => injection run with run; subst run; exact ⟨hs, rfl, rfl⟩
  | cons u us ih =>
    obtain ⟨here, later⟩ := List.forall_mem_cons.1 others
    cases first : turn u s with
    | next s' =>
      simp only [runTurns, first] at run
      obtain ⟨hs', lo, hi⟩ := turn_runsOffBus first here hs
      obtain ⟨ht, lo', hi'⟩ := ih later run hs'
      exact ⟨ht, lo'.trans lo, hi'.trans hi⟩
    | fault r => simp [runTurns, first] at run
    | refused r => simp [runTurns, first] at run

/-- R46, R92: an accepted HEADING or SECTOR is all the controller has to do. -/
theorem acceptOf_runsOffBus (i : Instr) (control : s.ControlInv) (idle : s.status.busy = false)
    (unit : i = .heading ∨ i = .sector) : RunsOffBus (acceptOf i s).latch (acceptOf i s) := by
  obtain ⟨phase, req⟩ := quiet_of_idle control idle
  rcases unit with rfl | rfl <;> exact ⟨rfl, phase, req, rfl⟩

/-- Settles O45: the CTL step goes by the latch, which holds the operands of acceptance. -/
theorem headingUndisturbedWhileBusy : Obligations.HeadingUndisturbedWhileBusy := by
  intro s s1 s2 t us control idle others
  refine ⟨fun accepted run ended => ?_, fun accepted run ended => ?_⟩ <;>
    obtain rfl := Host.Outcome.next.inj ((exec_of_idle idle).symm.trans accepted)
  · have held := acceptOf_runsOffBus .heading control idle (.inl rfl)
    obtain ⟨⟨-, phase, req, latch⟩, -, -⟩ := runTurns_runsOffBus others run held
    obtain rfl := Host.Outcome.next.inj ((turn_ctl_of_hdg (by rw [latch]; rfl) phase req).symm.trans ended)
    rw [completeHeading_regs, latch]
    exact ⟨hiWord_loWord _, rfl⟩
  · have held := acceptOf_runsOffBus .sector control idle (.inr rfl)
    obtain ⟨⟨-, phase, req, latch⟩, lo, hi⟩ := runTurns_runsOffBus others run held
    obtain rfl := Host.Outcome.next.inj ((turn_ctl_of_sec (by rw [latch]; rfl) phase req).symm.trans ended)
    rw [completeSector_regs, latch]
    exact ⟨rfl, hi, lo⟩

end Sys2Proof.Machine
end

section
/-! SUPPORT. Binary64 values in order (R11, R133): `key` orders the patterns that are not NaNs, and the finite ones as their
signed numbers of grid units are ordered. -/

namespace Sys2Proof.F64

variable {x y z : F64}

/-- A pattern is fixed by its sign and its magnitude bits. -/
theorem eq_of_parts (sign : neg x = neg y) (magnitude : mag x = mag y) : x = y := by
  rw [← pack_neg_mag x, ← pack_neg_mag y, sign, magnitude]

theorem isFinite_iff : isFinite x = true ↔ mag x < infMag := by simp [isFinite]

theorem isNaN_eq_false_iff : isNaN x = false ↔ mag x ≤ infMag := by simp [isNaN]

theorem lt_iff : lt x y = true ↔ (mag x ≤ infMag ∧ mag y ≤ infMag) ∧ key x < key y := by
  simp [lt, isNaN_eq_false_iff]

theorem le_iff : le x y = true ↔ (mag x ≤ infMag ∧ mag y ≤ infMag) ∧ key x ≤ key y := by
  simp [le, isNaN_eq_false_iff]

protected theorem le_trans (h : le x y = true) (h' : le y z = true) : le x z = true := by
  rw [le_iff] at *; omega

protected theorem lt_of_le_of_lt (h : le x y = true) (h' : lt y z = true) : lt x z = true := by
  rw [lt_iff] at *; rw [le_iff] at h; omega

theorem gridInt_lt_iff : gridInt x < gridInt y ↔ key x < key y := by
  have lt (a b : F64) : grid a < grid b ↔ mag a < mag b := gridOfMag_strictMono.lt_iff_lt
  have zero (a : F64) : grid a = 0 ↔ mag a = 0 := gridOfMag_strictMono.injective.eq_iff' rfl
  have := lt x y
  have := lt y x
  have := zero x
  have := zero y
  unfold gridInt key
  split_ifs <;> omega

theorem gridInt_le_iff : gridInt x ≤ gridInt y ↔ key x ≤ key y := by
  rw [← not_lt, ← not_lt, gridInt_lt_iff]

/-- R11: finite values compare as their numbers of grid units do. -/
theorem lt_of_finite (hx : isFinite x = true) (hy : isFinite y = true) :
    lt x y = decide (gridInt x < gridInt y) := by
  rw [isFinite_iff] at hx hy
  rw [Bool.eq_iff_iff, lt_iff, decide_eq_true_iff, gridInt_lt_iff]
  exact and_iff_right ⟨hx.le, hy.le⟩

theorem le_of_finite (hx : isFinite x = true) (hy : isFinite y = true) :
    le x y = decide (gridInt x ≤ gridInt y) := by
  rw [isFinite_iff] at hx hy
  rw [Bool.eq_iff_iff, le_iff, decide_eq_true_iff, gridInt_le_iff]
  exact and_iff_right ⟨hx.le, hy.le⟩

end Sys2Proof.F64

namespace Sys2Proof.Machine

variable {a : F64}

/-- R133: the angles with a sector are those in [0, 360). -/
theorem sectorOf_eq_none_iff : sectorOf a = .none ↔ ¬ (F64.ge a f0 = true ∧ F64.lt a f360 = true) := by
  rw [← Bool.and_eq_true]
  unfold sectorOf
  cases F64.ge a f0 && F64.lt a f360 with
  | false => simp
  | true => simp only [Bool.not_true, Bool.false_eq_true, if_false]; split_ifs <;> simp

/-- R133: the bound below 0 keeps a NaN and a negative infinity out, the one at 360 the other infinity. -/
theorem sectorOf_of_not_finite (h : F64.isFinite a = false) : sectorOf a = .none := by
  have big : F64.infMag ≤ F64.mag a := by simpa [F64.isFinite] using h
  have zero : F64.key f0 = 0 := by decide
  have full : F64.key f360 < F64.infMag := by decide
  rw [sectorOf_eq_none_iff, F64.ge, F64.le_iff, F64.lt_iff]
  rintro ⟨⟨-, low⟩, -, high⟩
  rw [zero, F64.key] at low
  rw [F64.key] at high
  split_ifs at low high <;> omega

/-- Settles O51. -/
theorem sectorByValue : Obligations.SectorByValue := by
  refine fun a => ⟨sectorOf_of_not_finite, fun fin => ?_⟩
  have below {b : F64} (hb : F64.isFinite b = true) {v : Int} (hv : F64.gridInt b = v) :
      F64.lt a b = decide (F64.gridInt a < v) := by rw [F64.lt_of_finite fin hb, hv]
  have atLeast : F64.ge a f0 = decide (0 ≤ F64.gridInt a) := F64.le_of_finite (by decide) fin
  rw [sectorOf, atLeast, below (b := f45) (v := 45 * 2 ^ 1074) (by decide) (by decide +kernel),
    below (b := f135) (v := 135 * 2 ^ 1074) (by decide) (by decide +kernel),
    below (b := f225) (v := 225 * 2 ^ 1074) (by decide) (by decide +kernel),
    below (b := f315) (v := 315 * 2 ^ 1074) (by decide) (by decide +kernel),
    below (b := f360) (v := 360 * 2 ^ 1074) (by decide) (by decide +kernel)]
  simp only [Bool.not_eq_true', Bool.and_eq_false_iff, decide_eq_false_iff_not, decide_eq_true_iff, not_le, not_lt]

end Sys2Proof.Machine
end

section
/-! SUPPORT. The arctangent (R131) on patterns: it is odd (P1), monotone (P3), below the value nearest π/2 (P4), and the binary64
value nearest the real arctangent (P5), on top of what Laws/Arctan.lean proves of magnitudes. -/

namespace Sys2Proof.F64

variable {x y : F64} {f : Nat → Nat} {g : F64 → F64}

/-- `g` keeps the sign of every value and takes its magnitude bits through `f`. -/
structure OddBy (f : Nat → Nat) (g : F64 → F64) : Prop where
  neg (x : F64) : isNaN x = false → neg (g x) = F64.neg x
  mag (x : F64) : isNaN x = false → mag (g x) = f (F64.mag x)

theorem isNaN_negate (x : F64) : isNaN (negate x) = isNaN x := by rw [isNaN, isNaN, mag_negate]

theorem OddBy.negate (h : OddBy f g) (hx : isNaN x = false) : g (negate x) = F64.negate (g x) := by
  have hn : isNaN (F64.negate x) = false := by rwa [isNaN_negate]
  apply eq_of_parts
  · rw [h.neg _ hn, neg_negate, neg_negate, h.neg _ hx]
  · rw [h.mag _ hn, mag_negate, mag_negate, h.mag _ hx]

/-- An odd function is monotone if it is on magnitudes, both zeros counting as one value. -/
theorem OddBy.le (h : OddBy f g) (mono : MonotoneOn f (Set.Iic infMag)) (zero : f 0 = 0) (top : f infMag ≤ infMag)
    (hxy : le x y = true) : le (g x) (g y) = true := by
  obtain ⟨⟨hx, hy⟩, keys⟩ := le_iff.1 hxy
  have bound {z : F64} (hz : F64.mag z ≤ infMag) : f (F64.mag z) ≤ infMag := (mono hz Set.self_mem_Iic hz).trans top
  rw [le_iff, h.mag x (isNaN_eq_false_iff.2 hx), h.mag y (isNaN_eq_false_iff.2 hy)]
  refine ⟨⟨bound hx, bound hy⟩, ?_⟩
  have up := mono hx hy
  have down := mono hy hx
  simp only [key, h.neg x (isNaN_eq_false_iff.2 hx), h.neg y (isNaN_eq_false_iff.2 hy),
    h.mag x (isNaN_eq_false_iff.2 hx), h.mag y (isNaN_eq_false_iff.2 hy)] at keys ⊢
  cases hs : F64.neg x <;> cases ht : F64.neg y <;> simp only [hs, ht, if_true, if_false, Bool.false_eq_true] at keys ⊢
  · have := up (by omega); omega
  · have hx0 : F64.mag x = 0 := by omega
    have hy0 : F64.mag y = 0 := by omega
    simp [hx0, hy0, zero]
  · omega
  · have := down (by omega); omega

/-- The arctangent on magnitude bits (R131). -/
def arctanBits (m : Nat) : Nat :=
  if m = 0 then 0 else if m = infMag then 0x3FF921FB54442D18 else arctanMag (gridOfMag m)

theorem oddBy_atan64 : OddBy arctanBits atan64 :=
  ⟨fun _ h => (atan64_parts h).1, fun _ h => (atan64_parts h).2⟩

theorem gridOfMag_pos {m : Nat} (h : m ≠ 0) : 0 < gridOfMag m := gridOfMag_strictMono (Nat.pos_of_ne_zero h)

theorem arctanBits_le (m : Nat) : arctanBits m ≤ 0x3FF921FB54442D18 := by
  unfold arctanBits
  split_ifs with zero
  · exact Nat.zero_le _
  · exact le_rfl
  · exact arctanMag_le (gridOfMag_pos zero)

theorem arctanBits_of_finite {m : Nat} (h0 : m ≠ 0) (h : m < infMag) : arctanBits m = arctanMag (gridOfMag m) := by
  rw [arctanBits, if_neg h0, if_neg h.ne]

theorem arctanBits_monotoneOn : MonotoneOn arctanBits (Set.Iic infMag) := by
  intro m _ m' hm' h
  rcases Nat.eq_zero_or_pos m with rfl | pos
  · exact Nat.zero_le _
  rcases (show m' ≤ infMag from hm').lt_or_eq with fin | rfl
  · rw [arctanBits_of_finite pos.ne' (h.trans_lt fin), arctanBits_of_finite (pos.trans_le h).ne' fin]
    exact arctanMag_mono (gridOfMag_pos pos.ne') (gridOfMag_mono h)
  · exact arctanBits_le m

/-- Settles O53 (P1). -/
theorem arctangentIsOdd : Obligations.ArctangentIsOdd :=
  ⟨fun _ hx => oddBy_atan64.negate hx, by decide, by decide⟩

/-- Settles O54 (P4): the arctangent of 32768.0 is below, and no smaller magnitude has a larger arctangent. -/
theorem arctangentBelowHalfPi : Obligations.ArctangentBelowHalfPi := by
  intro x h
  have top : 0x40E0000000000000 < infMag := by decide
  rw [oddBy_atan64.mag x (isNaN_eq_false_iff.2 (h.trans top.le))]
  calc arctanBits (mag x) ≤ arctanBits 0x40E0000000000000 := arctanBits_monotoneOn (h.trans top.le) top.le h
    _ < 0x3FF921FB54442D18 := by decide +kernel

/-- What is no further from both ends of an interval than `b` is, is no further from any point in it. -/
theorem abs_sub_le_of_ends {a b lo t hi : ℝ} (h1 : lo ≤ t) (h2 : t ≤ hi) (hlo : |a - lo| ≤ |b - lo|)
    (hhi : |a - hi| ≤ |b - hi|) : |a - t| ≤ |b - t| := by
  rw [← sq_le_sq] at *
  rcases le_total a b with le | le <;> nlinarith

theorem abs_sub_le_scale {a b t c : ℝ} (hc : 0 < c) :
    |a * c - t * c| ≤ |b * c - t * c| ↔ |a - t| ≤ |b - t| := by
  rw [← sub_mul, ← sub_mul, abs_mul, abs_mul, mul_le_mul_iff_left₀ (abs_pos.2 hc.ne')]

/-- R11: the rounded value is nearest, as a statement about real numbers. -/
theorem roundMag_nearest {n d m : Nat} (hd : 0 < d) (fin : roundMag n d < infMag) (hm : m < infMag) :
    |(gridOfMag (roundMag n d) : ℝ) - n / d| ≤ |(gridOfMag m : ℝ) - n / d| := by
  have near : |(gridOfMag (roundMag n d) * d : ℤ) - n| ≤ |(gridOfMag m * d : ℤ) - n| := by
    rw [Int.abs_eq_natAbs, Int.abs_eq_natAbs]
    exact_mod_cast (roundingIsToNearestEven n d m hd fin hm).1
  have d0 : (0 : ℝ) < d := by exact_mod_cast hd
  rw [← abs_sub_le_scale d0, div_mul_cancel₀ _ d0.ne']
  have cast := (Int.cast_le (R := ℝ)).2 near
  push_cast at cast
  exact cast

/-- R131 (P5): no magnitude is nearer the real arctangent than the result, because none is nearer the ends of the enclosure. -/
theorem arctanMag_nearest {g m : Nat} (hg : 0 < g) (hm : m < infMag) :
    |(gridOfMag (arctanMag g) : ℝ) / 2 ^ 1074 - Real.arctan (g / 2 ^ 1074)| ≤
      |(gridOfMag m : ℝ) / 2 ^ 1074 - Real.arctan (g / 2 ^ 1074)| := by
  obtain ⟨n, n', d, hd, lo, hi, round, round'⟩ := arctanMag_encloses hg
  have fin : arctanMag g < infMag := (arctanMag_le hg).trans_lt (by decide)
  have near := abs_sub_le_of_ends lo hi (round ▸ roundMag_nearest hd (round.trans_lt fin) hm)
    (round' ▸ roundMag_nearest hd (round'.trans_lt fin) hm)
  have P : (0 : ℝ) < 2 ^ 1074 := by positivity
  rw [valueOf_eq, cast_one_eq] at near
  rwa [← abs_sub_le_scale P, div_mul_cancel₀ _ P.ne', div_mul_cancel₀ _ P.ne']

/-- Settles O55 (P5, P3). -/
theorem arctangentCorrectlyRounded : Obligations.ArctangentCorrectlyRounded := by
  refine ⟨fun x fin nonzero => ?_, fun x y h => ?_⟩
  · have hx : mag x < infMag := isFinite_iff.1 fin
    have h0 : mag x ≠ 0 := by simpa [isZero] using nonzero
    have notNaN := isNaN_eq_false_iff.2 hx.le
    refine ⟨oddBy_atan64.neg x notNaN, fun m hm => ?_⟩
    rw [oddBy_atan64.mag x notNaN, arctanBits_of_finite h0 hx]
    exact arctanMag_nearest (grid_pos h0) hm
  · exact oddBy_atan64.le arctanBits_monotoneOn rfl ((arctanBits_le _).trans (by decide)) h

end Sys2Proof.F64
end

section
/-! SUPPORT. The operations of the heading function (R132) in order: each is monotone in the operand that varies, and an int16
converts exactly (R130). -/

namespace Sys2Proof.F64

variable {x y : F64} {n n' : Int} {d d' : Nat}

/-! Rounding with a sign. -/

/-- R11: the `key` of a signed fraction of grid units, rounded. -/
def signedRound (n : Int) (d : Nat) : Int := if n < 0 then -(roundMag n.natAbs d : Int) else roundMag n.natAbs d

theorem signedRound_mono (hd : 0 < d) (hd' : 0 < d') (h : n * d' ≤ n' * d) : signedRound n d ≤ signedRound n' d' := by
  have hdi : (0 : Int) < d := by exact_mod_cast hd
  have hdi' : (0 : Int) < d' := by exact_mod_cast hd'
  unfold signedRound
  split_ifs with neg neg' neg'
  · have : n'.natAbs * d ≤ n.natAbs * d' := by zify; rw [abs_of_neg neg, abs_of_neg neg']; linarith
    have := roundMag_mono hd' hd this
    omega
  · omega
  · nlinarith
  · have : n.natAbs * d' ≤ n'.natAbs * d := by
      zify; rwa [abs_of_nonneg (not_lt.1 neg), abs_of_nonneg (not_lt.1 neg')]
    exact_mod_cast roundMag_mono hd hd' this

theorem roundMag_zero (hd : 0 < d) : roundMag 0 d = 0 :=
  Nat.le_zero.1 (roundMag_mono (n' := 0) (d' := 1) hd one_pos (by simp))

/-- Rounding goes by the fraction, not by its terms. -/
theorem roundMag_scale {m k : Nat} (hd : 0 < d) (hk : 0 < k) : roundMag (m * k) (d * k) = roundMag m d :=
  le_antisymm (roundMag_mono (by positivity) hd (by nlinarith)) (roundMag_mono hd (by positivity) (by nlinarith))

theorem key_pack_roundMag (hd : 0 < d) {sign : Bool} (hs : n ≠ 0 → sign = decide (n < 0)) :
    key (pack sign (roundMag n.natAbs d)) = signedRound n d := by
  have small := (roundMag_le n.natAbs d).trans_lt infMag_lt
  rw [key, neg_pack small, mag_pack small, signedRound]
  by_cases zero : n = 0
  · simp [zero, roundMag_zero hd]
  · simp [hs zero]

/-- The grid units in 1 are more than none. -/
theorem one_grid_pos : 0 < one := by exact_mod_cast cast_one_pos

/-! The conversion from int16, the product, the quotient and the difference. -/

theorem log2_unit {v j : Nat} (hi : j < 2 ^ 53) (lo : 0 < v → 2 ^ 52 ≤ j) : (j * 2 ^ v).log2 - 52 = v := by
  have upper : j * 2 ^ v < 2 ^ (v + 53) := by
    rw [Nat.add_comm, pow_add]; exact Nat.mul_lt_mul_of_pos_right hi (Nat.two_pow_pos v)
  have le : (j * 2 ^ v).log2 ≤ v + 52 := by
    rcases Nat.eq_zero_or_pos (j * 2 ^ v) with zero | pos
    · simp [zero]
    · exact Nat.le_of_lt_succ ((Nat.log2_lt pos.ne').2 upper)
  rcases Nat.eq_zero_or_pos v with rfl | pos
  · omega
  have lower : 2 ^ (v + 52) ≤ j * 2 ^ v := by
    rw [Nat.add_comm, pow_add]; exact Nat.mul_le_mul_right _ (lo pos)
  have := (Nat.le_log2 (Nat.two_pow_pos _ |>.trans_le lower).ne').2 lower
  omega

/-- A representable magnitude rounds to itself. -/
theorem roundMag_gridOfMag {m : Nat} (hm : m < infMag) : roundMag (gridOfMag m) 1 = m := by
  obtain ⟨v, j, rfl, hi, lo⟩ := exists_unit m
  have whole : divNearestEven (j * 2 ^ v) (2 ^ v) = j := by
    have := Nat.two_pow_pos v
    exact divNearestEven_eq (by omega) (by omega)
  rw [gridOfMag_unit hi.le lo, roundMag, Nat.div_one, log2_unit hi lo, Nat.one_mul, whole, Nat.min_eq_left hm.le]

/-- Every natural number below 2^53 is a binary64 value. -/
theorem exists_mag_of_lt {k : Nat} (hk : k < 2 ^ 53) : ∃ m, m < infMag ∧ gridOfMag m = k * one := by
  rcases Nat.eq_zero_or_pos k with rfl | pos
  · exact ⟨0, by decide, by simp [gridOfMag]⟩
  have e : k.log2 ≤ 52 := Nat.le_of_lt_succ ((Nat.log2_lt pos.ne').2 hk)
  have low : 2 ^ 52 ≤ k * 2 ^ (52 - k.log2) := by
    calc 2 ^ 52 = 2 ^ k.log2 * 2 ^ (52 - k.log2) := by rw [← pow_add, Nat.add_sub_cancel' e]
      _ ≤ _ := Nat.mul_le_mul_right _ (Nat.log2_self_le pos.ne')
  have high : k * 2 ^ (52 - k.log2) ≤ 2 ^ 53 := by
    calc k * 2 ^ (52 - k.log2) ≤ 2 ^ (k.log2 + 1) * 2 ^ (52 - k.log2) := Nat.mul_le_mul_right _ Nat.lt_log2_self.le
      _ = 2 ^ 53 := by rw [← pow_add]; congr 1; omega
  refine ⟨(1022 + k.log2) * 2 ^ 52 + k * 2 ^ (52 - k.log2), by unfold infMag; omega, ?_⟩
  rw [gridOfMag_unit high fun _ => low, Nat.mul_assoc, ← pow_add, one]
  congr 2; omega

/-- R130: an integer of magnitude below 2^53 converts exactly. -/
theorem ofInt_parts {i : Int} (hi : i.natAbs < 2 ^ 53) :
    isFinite (ofInt i) = true ∧ neg (ofInt i) = decide (i < 0) ∧ grid (ofInt i) = i.natAbs * one := by
  obtain ⟨m, hm, value⟩ := exists_mag_of_lt hi
  have small := hm.trans infMag_lt
  have parts : ofInt i = pack (decide (i < 0)) m := by rw [ofInt, ← value, roundMag_gridOfMag hm]
  rw [isFinite_iff, grid, parts, mag_pack small, neg_pack small]
  exact ⟨hm, rfl, value⟩

theorem parts_of_finite (hx : isFinite x = true) : isNaN x = false ∧ isInf x = false := by
  rw [isFinite_iff] at hx
  simp [isNaN, isInf, hx.le, hx.ne]

theorem gridInt_negate (x : F64) : gridInt (negate x) = -gridInt x := by
  rw [gridInt, gridInt, neg_negate, grid, mag_negate, ← grid]
  cases neg x <;> simp

/-- R11: a product of finite values. -/
theorem mul_of_finite (hx : isFinite x = true) (hy : isFinite y = true) :
    neg (mul x y) = (neg x != neg y) ∧ mag (mul x y) = roundMag (grid x * grid y) one := by
  have small := (roundMag_le (grid x * grid y) one).trans_lt infMag_lt
  simp only [mul, parts_of_finite hx, parts_of_finite hy, Bool.or_self, Bool.false_eq_true, if_false]
  exact ⟨neg_pack small _, mag_pack small _⟩

/-- R11: a quotient of finite values, the divisor not zero. -/
theorem div_of_finite (hx : isFinite x = true) (hy : isFinite y = true) (nonzero : mag y ≠ 0) :
    neg (div x y) = (neg x != neg y) ∧ mag (div x y) = roundMag (grid x * one) (grid y) := by
  have small := (roundMag_le (grid x * one) (grid y)).trans_lt infMag_lt
  have hz : isZero y = false := by simpa [isZero] using nonzero
  simp only [div, parts_of_finite hx, parts_of_finite hy, hz, Bool.or_self, Bool.false_eq_true, if_false]
  exact ⟨neg_pack small _, mag_pack small _⟩

/-- R11: a difference of finite values is the rounded difference of their grid units. -/
theorem sub_of_finite (hx : isFinite x = true) (hy : isFinite y = true) :
    mag (sub x y) ≤ infMag ∧ key (sub x y) = signedRound (gridInt x - gridInt y) 1 := by
  have hn : isFinite (negate y) = true := by rwa [isFinite_iff, mag_negate, ← isFinite_iff]
  simp only [sub, add, parts_of_finite hx, parts_of_finite hy, parts_of_finite hn, Bool.or_self, Bool.false_eq_true,
    if_false, gridInt_negate, ← sub_eq_add_neg]
  generalize gridInt x - gridInt y = s
  split_ifs with zero
  · subst zero
    rw [mag_pack (by norm_num), key, mag_pack (by norm_num)]
    exact ⟨Nat.zero_le _, by split_ifs <;> decide⟩
  · rw [mag_pack ((roundMag_le _ _).trans_lt infMag_lt)]
    exact ⟨roundMag_le _ _, key_pack_roundMag one_pos fun _ => rfl⟩

/-- The difference is antitone in what is taken away. -/
protected theorem sub_le_sub_left {c : F64} (hc : isFinite c = true) (hx : isFinite x = true) (hy : isFinite y = true)
    (h : le x y = true) : le (sub c y) (sub c x) = true := by
  obtain ⟨magX, keyX⟩ := sub_of_finite hc hx
  obtain ⟨magY, keyY⟩ := sub_of_finite hc hy
  have := gridInt_le_iff.2 (le_iff.1 h).2
  rw [le_iff, keyX, keyY]
  exact ⟨⟨magY, magX⟩, signedRound_mono one_pos one_pos (by omega)⟩

end Sys2Proof.F64

namespace Sys2Proof.Machine

open F64 (mag neg key isFinite isNaN infMag one roundMag gridOfMag signedRound OddBy)

variable {q q' : F64} {x y x' y' : Sample}

/-! The scaling to degrees. -/

/-- R132: `degrees` on magnitude bits. -/
def degreesBits (m : Nat) : Nat :=
  roundMag (gridOfMag (roundMag (gridOfMag (F64.arctanBits m) * F64.grid f180) one) * one) (F64.grid pi64)

theorem degreesBits_monotoneOn : MonotoneOn degreesBits (Set.Iic infMag) := by
  intro m hm m' hm' h
  have pi : 0 < F64.grid pi64 := F64.grid_pos (by decide)
  have one : 0 < one := F64.one_grid_pos
  unfold degreesBits
  have arc := F64.gridOfMag_mono (F64.arctanBits_monotoneOn hm hm' h)
  have mul := F64.gridOfMag_mono
    (F64.roundMag_mono one one (Nat.mul_le_mul_right _ (Nat.mul_le_mul_right (F64.grid f180) arc)))
  exact F64.roundMag_mono pi pi (Nat.mul_le_mul_right _ (Nat.mul_le_mul_right _ mul))

/-- R140: no angle is larger than a right one, and so none is infinite. -/
theorem degreesBits_le {m : Nat} (hm : m ≤ infMag) : degreesBits m ≤ mag f90 :=
  (degreesBits_monotoneOn hm Set.self_mem_Iic hm).trans (by decide +kernel)

/-- R140: the product in `degrees` is finite. -/
theorem degrees_product_lt (m : Nat) : roundMag (gridOfMag (F64.arctanBits m) * F64.grid f180) one < infMag := by
  have le := F64.gridOfMag_mono (F64.arctanBits_le m)
  refine (F64.roundMag_mono F64.one_grid_pos F64.one_grid_pos
    (Nat.mul_le_mul_right _ (Nat.mul_le_mul_right (F64.grid f180) le))).trans_lt ?_
  decide +kernel

theorem oddBy_degrees : OddBy degreesBits degrees := by
  have parts {z : F64} (hz : isNaN z = false) : neg (degrees z) = neg z ∧ mag (degrees z) = degreesBits (mag z) := by
    have arc : isFinite (F64.atan64 z) = true := by
      rw [F64.isFinite_iff, F64.oddBy_atan64.mag z hz]; exact (F64.arctanBits_le _).trans_lt (by decide)
    obtain ⟨mulNeg, mulMag⟩ := F64.mul_of_finite (y := f180) arc (by decide)
    rw [F64.grid, F64.oddBy_atan64.mag z hz] at mulMag
    rw [F64.oddBy_atan64.neg z hz] at mulNeg
    have product := F64.isFinite_iff.2 (mulMag.trans_lt (degrees_product_lt _))
    obtain ⟨divNeg, divMag⟩ := F64.div_of_finite (y := pi64) product (by decide) (by decide)
    rw [F64.grid, mulMag] at divMag
    rw [mulNeg] at divNeg
    exact ⟨divNeg.trans (by simp [show neg f180 = false by decide, show neg pi64 = false by decide]), divMag⟩
  exact ⟨fun z hz => (parts hz).1, fun z hz => (parts hz).2⟩

theorem degrees_le (h : F64.le q q' = true) : F64.le (degrees q) (degrees q') = true :=
  oddBy_degrees.le degreesBits_monotoneOn (by decide +kernel) ((degreesBits_le le_rfl).trans (by decide)) h

theorem isFinite_degrees (h : mag q ≤ infMag) : isFinite (degrees q) = true := by
  rw [F64.isFinite_iff, oddBy_degrees.mag q (F64.isNaN_eq_false_iff.2 h)]
  exact (degreesBits_le h).trans_lt (by decide)

/-! The quotient of the samples. -/

theorem sample_bounds (x : Sample) : -32768 ≤ x.toInt ∧ x.toInt ≤ 32767 :=
  ⟨x.le_toInt, Int.le_of_lt_add_one x.toInt_lt⟩

theorem sample_natAbs_lt (x : Sample) : x.toInt.natAbs < 2 ^ 53 := by
  have := sample_bounds x
  omega

/-- R132: the quotient of two samples is their exact quotient, rounded. -/
theorem quotient_parts (hy : y.toInt ≠ 0) :
    neg (quotient x y) = (decide (x.toInt < 0) != decide (y.toInt < 0)) ∧
    mag (quotient x y) = roundMag (x.toInt.natAbs * one) y.toInt.natAbs := by
  obtain ⟨finX, negX, gridX⟩ := F64.ofInt_parts (sample_natAbs_lt x)
  obtain ⟨finY, negY, gridY⟩ := F64.ofInt_parts (sample_natAbs_lt y)
  have pos : 0 < y.toInt.natAbs := Int.natAbs_pos.2 hy
  have nonzero : mag (F64.ofInt y.toInt) ≠ 0 := fun zero => by
    rw [F64.grid, zero] at gridY
    exact (Nat.mul_pos pos F64.one_grid_pos).ne gridY
  have div := F64.div_of_finite finX finY nonzero
  rwa [negX, negY, gridX, gridY, F64.roundMag_scale pos F64.one_grid_pos] at div

/-- The `key` of a quotient is its exact numerator, the sign moved there, over its exact denominator, rounded. -/
theorem key_quotient (hy : y.toInt ≠ 0) :
    key (quotient x y) = signedRound (x.toInt * y.toInt.sign * one) y.toInt.natAbs := by
  have one : (0 : Int) < one := by exact_mod_cast F64.one_grid_pos
  obtain ⟨sign, magnitude⟩ := quotient_parts (x := x) hy
  have abs : x.toInt.natAbs * F64.one = (x.toInt * y.toInt.sign * F64.one).natAbs := by
    rw [Int.natAbs_mul, Int.natAbs_mul, Int.natAbs_sign_of_ne_zero hy, Nat.mul_one, Int.natAbs_natCast]
  rw [← F64.pack_neg_mag (quotient x y), magnitude, abs]
  refine F64.key_pack_roundMag (Int.natAbs_pos.2 hy) fun nonzero => ?_
  have hx : x.toInt ≠ 0 := fun zero => nonzero (by simp only [zero, Int.zero_mul])
  rw [sign, Bool.eq_iff_iff, bne_iff_ne, Ne, decide_eq_decide, decide_eq_true_iff, Int.mul_neg_iff]
  rcases lt_or_gt_of_ne hy with neg | pos
  · rw [Int.sign_eq_neg_one_of_neg neg]; omega
  · rw [Int.sign_eq_one_of_pos pos]; omega

/-- On either side of Y = 0 the quotient is monotone in the exact quotient. -/
theorem quotient_le (side : 0 < y.toInt * y'.toInt) (h : x.toInt * y'.toInt ≤ x'.toInt * y.toInt) :
    F64.le (quotient x y) (quotient x' y') = true := by
  have hy := left_ne_zero_of_mul side.ne'
  have hy' := right_ne_zero_of_mul side.ne'
  have scaled := mul_le_mul_of_nonneg_right h (Int.natCast_nonneg one)
  rw [F64.le_iff, key_quotient hy, key_quotient hy', (quotient_parts hy).2, (quotient_parts hy').2]
  refine ⟨⟨F64.roundMag_le _ _, F64.roundMag_le _ _⟩,
    F64.signedRound_mono (Int.natAbs_pos.2 hy) (Int.natAbs_pos.2 hy') ?_⟩
  rw [Int.natCast_natAbs, Int.natCast_natAbs]
  rcases pos_and_pos_or_neg_and_neg_of_mul_pos side with ⟨pos, pos'⟩ | ⟨neg, neg'⟩
  · rw [abs_of_pos pos, abs_of_pos pos', Int.sign_eq_one_of_pos pos, Int.sign_eq_one_of_pos pos']
    linarith
  · rw [abs_of_neg neg, abs_of_neg neg', Int.sign_eq_neg_one_of_neg neg, Int.sign_eq_neg_one_of_neg neg']
    linarith

/-! The heading. -/

theorem hdg_of_pos (hy : 0 < y.toInt) : hdg x y = F64.sub f90 (degrees (quotient x y)) := by rw [hdg, if_pos hy]

theorem hdg_of_neg (hy : y.toInt < 0) : hdg x y = F64.sub f270 (degrees (quotient x y)) := by
  rw [hdg, if_neg (by omega), if_pos hy]

theorem isFinite_degrees_quotient (hy : y.toInt ≠ 0) : isFinite (degrees (quotient x y)) = true :=
  isFinite_degrees ((quotient_parts hy).2.trans_le (F64.roundMag_le _ _))

/-- On either side of Y = 0 the heading falls as the quotient rises. -/
theorem hdg_antitone (side : 0 < y.toInt * y'.toInt) (h : x.toInt * y'.toInt ≤ x'.toInt * y.toInt) :
    F64.le (hdg x' y') (hdg x y) = true := by
  have hy := left_ne_zero_of_mul side.ne'
  have hy' := right_ne_zero_of_mul side.ne'
  have falls {c : F64} (hc : isFinite c = true) := F64.sub_le_sub_left hc (isFinite_degrees_quotient hy)
    (isFinite_degrees_quotient hy') (degrees_le (quotient_le side h))
  rcases pos_and_pos_or_neg_and_neg_of_mul_pos side with ⟨pos, pos'⟩ | ⟨neg, neg'⟩
  · rw [hdg_of_pos pos, hdg_of_pos pos']; exact falls (by decide)
  · rw [hdg_of_neg neg, hdg_of_neg neg']; exact falls (by decide)

/-- Settles O50 (P2). -/
theorem arctangentOfOneAndEvaluationOrder : Obligations.ArctangentOfOneAndEvaluationOrder := by
  unfold Obligations.ArctangentOfOneAndEvaluationOrder
  decide +kernel

/-- R140: with X = 0 the quotient is a zero of the sign of Y. -/
theorem quotient_zero (hy : y.toInt ≠ 0) : quotient 0#16 y = F64.pack (decide (y.toInt < 0)) 0 := by
  obtain ⟨sign, magnitude⟩ := quotient_parts (x := 0#16) hy
  rw [← F64.pack_neg_mag (quotient 0#16 y), sign, magnitude, BitVec.toInt_zero, Int.natAbs_zero, Nat.zero_mul,
    F64.roundMag_zero (Int.natAbs_pos.2 hy)]
  simp

/-- Settles O46. -/
theorem headingOnTheAxes : Obligations.HeadingOnTheAxes := by
  refine ⟨fun x => rfl, fun y pos => ?_, fun y neg => ?_⟩
  · rw [hdg_of_pos pos, quotient_zero pos.ne', decide_eq_false pos.le.not_gt]
    decide +kernel
  · rw [hdg_of_neg neg, quotient_zero neg.ne, decide_eq_true neg]
    decide +kernel

/-- R137: where |X| = |Y| the quotient is 1.0 or -1.0. -/
theorem quotient_of_natAbs_eq (hy : y.toInt ≠ 0) (h : x.toInt.natAbs = y.toInt.natAbs) :
    quotient x y = F64.pack (decide (x.toInt < 0) != decide (y.toInt < 0)) 0x3FF0000000000000 := by
  obtain ⟨sign, magnitude⟩ := quotient_parts (x := x) hy
  have unit : roundMag (y.toInt.natAbs * one) y.toInt.natAbs = 0x3FF0000000000000 := by
    rw [Nat.mul_comm, ← (show roundMag one 1 = 0x3FF0000000000000 by decide +kernel),
      ← F64.roundMag_scale one_pos (Int.natAbs_pos.2 hy), Nat.one_mul]
  rw [← F64.pack_neg_mag (quotient x y), sign, magnitude, h, unit]

theorem quotient_of_eq (hy : y.toInt ≠ 0) (h : x.toInt = y.toInt) : quotient x y = 0x3FF0000000000000#64 := by
  rw [quotient_of_natAbs_eq hy (by rw [h]), h, bne_self_eq_false]
  decide

theorem quotient_of_eq_neg (hy : y.toInt ≠ 0) (h : x.toInt = -y.toInt) : quotient x y = 0xBFF0000000000000#64 := by
  have opposite : (decide (x.toInt < 0) != decide (y.toInt < 0)) = true := by
    rw [bne_iff_ne, Ne, decide_eq_decide]; omega
  rw [quotient_of_natAbs_eq hy (by omega), opposite]
  decide

/-- Settles O47. -/
theorem headingOnTheDiagonals : Obligations.HeadingOnTheDiagonals := by
  refine fun x y => ⟨fun pos h => ?_, fun pos h => ?_, fun neg h => ?_, fun neg h => ?_⟩
  · rw [hdg_of_pos pos, quotient_of_eq pos.ne' h]; decide +kernel
  · rw [hdg_of_pos pos, quotient_of_eq_neg pos.ne' h]; decide +kernel
  · rw [hdg_of_neg neg, quotient_of_eq neg.ne h]; decide +kernel
  · rw [hdg_of_neg neg, quotient_of_eq_neg neg.ne h]; decide +kernel

/-- R136: the headings at the operands of largest and smallest quotient on each side of Y = 0. -/
theorem hdg_at_extremes :
    hdg 0x7FFF#16 0x0001#16 = 0x3F5CA61566680000#64 ∧ hdg 0x8000#16 0x0001#16 = 0x40667FF1AD11F2E2#64 ∧
    hdg 0x8000#16 0xFFFF#16 = 0x4066800E52EE0D1E#64 ∧ hdg 0x7FFF#16 0xFFFF#16 = 0x40767FF8D67AA666#64 := by
  decide +kernel

/-- Settles O49: the heading falls as X / Y rises, from the operands of the smallest quotient to those of the largest. -/
theorem headingExtremes : Obligations.HeadingExtremes := by
  obtain ⟨east, west, west', east'⟩ := hdg_at_extremes
  refine ⟨fun x y pos => ?_, fun x y neg => ?_, hdg_at_extremes⟩ <;> obtain ⟨low, high⟩ := sample_bounds x
  · rw [← east, ← west]
    constructor <;> apply hdg_antitone <;> simp only [BitVec.reduceToInt] <;> omega
  · rw [← west', ← east']
    constructor <;> apply hdg_antitone <;> simp only [BitVec.reduceToInt] <;> omega

/-- Settles O48. -/
theorem headingAlwaysHasASector : Obligations.HeadingAlwaysHasASector := by
  intro x y
  obtain ⟨right, left, -⟩ := headingExtremes
  have range : F64.le f0 (hdg x y) = true ∧ F64.lt (hdg x y) f360 = true := by
    rcases lt_trichotomy y.toInt 0 with neg | zero | pos
    · obtain ⟨low, high⟩ := left x y neg
      exact ⟨F64.le_trans (by decide) low, F64.lt_of_le_of_lt high (by decide)⟩
    · rw [hdg, zero, if_neg (by decide), if_neg (by decide)]
      split_ifs <;> decide
    · obtain ⟨low, high⟩ := right x y pos
      exact ⟨F64.le_trans (by decide) low, F64.lt_of_le_of_lt high (by decide)⟩
  obtain ⟨low, high⟩ := range
  exact ⟨low, high, fun noSector => sectorOf_eq_none_iff.1 noSector ⟨low, high⟩⟩

end Sys2Proof.Machine
end

section
/-! SUPPORT. The target device (R152 to R155): its position and its pointer as an event of the transaction moves them, and the mode
byte read back. -/

namespace Sys2Proof.Machine

variable {s t : State} {q : Req} {p : BusPos} {d : DevAddr} {l : Latch} {u : Target} {ph : Phase} {b : Byte}

/-! The target in step with the wire (R152, R153). -/

/-- The target `u` stands where the wire stands at `p`, its pointer at the register of the command `l`. -/
def InStep (p : BusPos) (l : Latch) (u : Target) : Prop :=
  (∀ seq, p.targetAt l = some seq → u.tseq = seq) ∧
  (p.pointerSet = true → l.ldev = Config.devAddr → u.tptr = l.lreg)

theorem targetInv_iff : s.TargetInv ↔ InStep s.busPos s.latch s.target := Iff.rfl

@[simp] theorem inStep_closed : InStep .closed l u ↔ u.tseq = .free := by
  simp [InStep, BusPos.targetAt, BusPos.pointerSet]

@[simp] theorem inStep_started : InStep .started l u ↔ u.tseq = .started := by
  simp [InStep, BusPos.targetAt, BusPos.pointerSet]

@[simp] theorem inStep_addrW :
    InStep (.addrW d) l u ↔ u.tseq = if l.ldev = Config.devAddr then .addrW else .ignore := by
  simp [InStep, BusPos.targetAt, BusPos.pointerSet]

@[simp] theorem inStep_reg :
    InStep (.reg d) l u ↔ u.tseq = (if l.ldev = Config.devAddr then .ptrSet else .ignore) ∧
      (l.ldev = Config.devAddr → u.tptr = l.lreg) := by
  simp [InStep, BusPos.targetAt, BusPos.pointerSet]

@[simp] theorem inStep_rstart :
    InStep (.rstart d) l u ↔ u.tseq = .started ∧ (l.ldev = Config.devAddr → u.tptr = l.lreg) := by
  simp [InStep, BusPos.targetAt, BusPos.pointerSet]

@[simp] theorem inStep_addrR :
    InStep (.addrR d) l u ↔ u.tseq = (if l.ldev = Config.devAddr then .addrR else .ignore) ∧
      (l.ldev = Config.devAddr → u.tptr = l.lreg) := by
  simp [InStep, BusPos.targetAt, BusPos.pointerSet]

@[simp] theorem inStep_full :
    InStep .full l u ↔
      u.tseq = if l.ldev = Config.devAddr then (if l.lop = some .wr then .dataW else .addrR) else .ignore := by
  simp [InStep, BusPos.targetAt, BusPos.pointerSet]

@[simp] theorem inStep_nacked : InStep .nacked l u := by simp [InStep, BusPos.targetAt, BusPos.pointerSet]

/-- R152: after a START the target knows its own address. -/
theorem onAddr_tseq (started : u.tseq = .started) (a : DevAddr) (dir : Dir) :
    (u.onAddr a dir).tseq =
      if a = Config.devAddr then (match dir with | .w => .addrW | .r => .addrR) else .ignore := by
  unfold Target.onAddr
  rw [started]
  dsimp only
  split
  · cases dir <;> rfl
  · rfl

/-- R153: an address byte leaves the pointer as it was. -/
theorem onAddr_tptr (a : DevAddr) (dir : Dir) : (u.onAddr a dir).tptr = u.tptr := by
  unfold Target.onAddr
  cases u.tseq <;> cases dir <;> dsimp only <;> split <;> rfl

/-- R110: a byte is sent as data by WRREG alone, and received by RDREG alone. -/
theorem lop_of_dataRequest {lop : Option Op} {abort : Bool} (row : sequenced lop abort ph (some q) = true) :
    (q = .txdata → lop = some .wr) ∧ (q = .rxnack → lop = some .rd) := by
  exact of_decide_eq_true (of_requestRow
    (P := fun lop _ _ q => decide ((q = .txdata → lop = some .wr) ∧ (q = .rxnack → lop = some .rd)))
    (by decide) (by decide) (by decide) (by decide) row)

/-- R152, R153: the event of a phase's own request takes the target where the next phase has the wire; the cases are in the order of
`requestRows`. -/
theorem InStep.observe (own : (ph, q) ∈ requestRows) (write : q = .txdata → l.lop = some .wr)
    (read : q = .rxnack → l.lop = some .rd) (h : InStep (.atPhase l.ldev ph) l u) (free : Byte) (ans : Ack) (b : Byte) :
    InStep (.atPhase l.ldev q.phase) l (u.observe free (q.event l ans b)) := by
  simp only [requestRows, List.mem_cons, Prod.mk.injEq, List.not_mem_nil, or_false] at own
  rcases own with ⟨rfl, rfl⟩ | ⟨rfl, rfl⟩ | ⟨rfl, rfl⟩ | ⟨rfl, rfl⟩ | ⟨rfl, rfl⟩ | ⟨rfl, rfl⟩ | ⟨rfl, rfl⟩ |
    ⟨rfl, rfl⟩ | ⟨rfl, rfl⟩
  · exact inStep_started.2 rfl
  · exact inStep_addrW.2 (onAddr_tseq (inStep_started.1 h) l.ldev .w)
  · have seq := inStep_addrW.1 h
    refine inStep_reg.2 ?_
    by_cases dev : l.ldev = Config.devAddr <;> simp [Target.observe, Target.onTx, Req.event, seq, dev]
  · exact inStep_rstart.2 ⟨rfl, (inStep_reg.1 h).2⟩
  · obtain ⟨seq, -⟩ := inStep_reg.1 h
    refine inStep_full.2 ?_
    by_cases dev : l.ldev = Config.devAddr <;> simp [Target.observe, Target.onTx, Req.event, seq, dev, write rfl]
  · obtain ⟨seq, ptr⟩ := inStep_rstart.1 h
    exact inStep_addrR.2 ⟨onAddr_tseq seq l.ldev .r, (onAddr_tptr l.ldev .r).trans ∘ ptr⟩
  · obtain ⟨seq, -⟩ := inStep_addrR.1 h
    refine inStep_full.2 ?_
    by_cases dev : l.ldev = Config.devAddr <;> simp [Target.observe, Target.onRx, Req.event, seq, dev, read rfl]
  · exact inStep_closed.2 rfl
  · exact inStep_closed.2 rfl

/-- R95, R152: where the transaction stands after the event of a request that completes, the target stands too. -/
theorem inStep_after_event (control : s.ControlInv) (hs : s.TargetInv) (req : s.wait.req = some q)
    (pending : s.wait.reqst = .pending) (free : Byte) (ans : Ack) (b : Byte)
    (after : s.busPos.after (q.event s.latch ans b) = some p) :
    InStep p s.latch (s.target.observe free (q.event s.latch ans b)) := by
  have row := control.2.1
  rw [req] at row
  obtain rfl := Option.some.inj ((busPos_after_event row pending ans b).symm.trans after)
  split
  · exact inStep_nacked
  rcases request_cases row with ⟨going, own⟩ | ⟨-, rfl⟩
  · have pos : s.busPos = .atPhase s.latch.ldev s.status.phase := by
      simp [busPos_eq, stalled_of_pending pending, going]
    obtain ⟨write, read⟩ := lop_of_dataRequest row
    exact (pos ▸ targetInv_iff.1 hs).observe own write read free ans b
  · exact inStep_closed.2 rfl

/-! The agents' turns. -/

/-- R59: the trace says where the controller stands. -/
theorem busPos_of_trace_eq (hs : s.TraceInv) (ht : t.TraceInv) (same : t.trace = s.trace) : t.busPos = s.busPos :=
  Option.some.inj (ht.symm.trans ((congrArg scanTrace same).trans hs))

/-- R152: between transactions, a step that no bus event comes with keeps the target in step. -/
theorem targetInv_of_closed (closed : s.busPos = .closed) (hs : s.TargetInv) (pos : t.busPos = s.busPos)
    (target : t.target = s.target) : t.TargetInv := by
  rw [targetInv_iff, closed, inStep_closed] at hs
  rwa [targetInv_iff, pos, closed, inStep_closed, target]

theorem HostEffect.targetInv (h : HostEffect s t) (control : s.ControlInv) (trace : s.TraceInv) (hs : s.TargetInv) :
    t.TargetInv := by
  cases h with
  | accepted _ i idle =>
    have off : ¬ s.onBus := by simp [show s.latch.lop = none by simpa [idle] using control.1]
    exact targetInv_of_closed (busPos_offBus control off) hs
      (busPos_of_trace_eq trace (acceptOf_traceInv i control idle trace) (acceptOf_trace i s)) (by cases i <;> rfl)
  | quiet | store | clearOvr | dropped | rejected => exact hs

/-- R114, R152, R200: after a release the target is free. -/
theorem release_free (trace : s.TraceInv) (hs : s.TargetInv) : (release s).target.tseq = .free := by
  rw [release_target, owned_of_scan _ _ trace]
  by_cases closed : s.busPos = .closed
  · rw [targetInv_iff, closed, inStep_closed] at hs
    simpa [closed] using hs
  · simp [closed, Target.onEnd]

theorem waitCycle_targetInv (q : Req) (trace : s.TraceInv) (hs : s.TargetInv) : (waitCycle q s).TargetInv := by
  rcases waitCycle_cases s q with ⟨h, -⟩ | ⟨h, -⟩ <;> rw [h]
  · exact hs
  · rw [targetInv_iff, busPos_of_idle (by simp) (by simp [timeout_status]) (stalled_of_noRequest (by simp)),
      inStep_closed, timeout_target]
    exact release_target s ▸ release_free trace hs

/-- R105, R109, R114: no step of CTL but a timeout is seen on the bus. -/
theorem ctlStep_targetInv (control : s.ControlInv) (trace : s.TraceInv) (hs : s.TargetInv) : (ctlStep s).TargetInv := by
  have after := ctlStep_traceInv control trace
  have offBus := busPos_offBus control
  rcases ctlStep_cases s with ⟨q, -, h⟩ | ⟨req, phase, h⟩ | ⟨-, -, -, h⟩ | ⟨-, lop, h⟩ | ⟨-, lop, h⟩ | h <;>
    rw [h] at after ⊢
  · exact waitCycle_targetInv q trace hs
  · have before : s.busPos = .closed := by simp [busPos_eq, stalled_of_noRequest req, phase, BusPos.atPhase]
    exact targetInv_of_closed before hs (busPos_of_trace_eq trace after rfl) rfl
  · rw [targetInv_iff, busPos_of_trace_eq trace after rfl]
    exact hs
  · exact targetInv_of_closed (offBus (by simp [lop])) hs (busPos_of_trace_eq trace after rfl) rfl
  · exact targetInv_of_closed (offBus (by simp [lop])) hs (busPos_of_trace_eq trace after (completeSector_trace s))
      (completeSector_target s)
  · exact hs

/-- R10, R95: a step of BUS that completes a request puts its event on the wire, and the target sees it. -/
theorem busStep_event (req : s.wait.req = some q) (pending : s.wait.reqst = .pending) (ans : Ack) (b : Byte) :
    (busStep ans b s).trace = (emit (q.event s.latch ans b) s).trace ∧
    (busStep ans b s).target = (emit (q.event s.latch ans b) s).target := by
  rcases busStep_cases s ans b with ⟨-, idle⟩ | ⟨q', req', -, step⟩
  · simp [req, pending] at idle
  obtain rfl : q' = q := by simpa [req] using req'.symm
  rcases step with ⟨-, -, -, h⟩ | ⟨-, -, -, h⟩ | ⟨-, h⟩ <;> rw [h]
  · exact ⟨rfl, rfl⟩
  · exact ⟨rfl, rfl⟩
  · exact ⟨advance_trace .., advance_target ..⟩

theorem busStep_targetInv (ans : Ack) (b : Byte) (control : s.ControlInv) (trace : s.TraceInv) (hs : s.TargetInv) :
    (busStep ans b s).TargetInv := by
  rcases busStep_cases s ans b with ⟨h, -⟩ | ⟨q, req, pending, -⟩
  · rwa [h]
  obtain ⟨event, target⟩ := busStep_event req pending ans b
  have after : scanTrace (busStep ans b s).trace = _ := busStep_traceInv ans b control trace
  rw [event, scanTrace_emit trace] at after
  rw [targetInv_iff, busStep_latch, target]
  exact inStep_after_event control hs req pending _ ans b after

theorem resetStep_targetInv (trace : s.TraceInv) (hs : s.TargetInv) : (resetStep s).TargetInv := by
  rw [targetInv_iff, busPos_of_idle rfl rfl (stalled_of_noRequest rfl), inStep_closed]
  exact release_free trace hs

/-- Settles O28: each agent's turn keeps the target in step with the wire. -/
theorem stepKeepsTargetInStep : Obligations.StepKeepsTargetInStep := by
  intro s s' h control trace target
  have control : (popTurn s).ControlInv := by simpa [State.ControlInv, State.stalled] using control
  have trace : (popTurn s).TraceInv := by simpa [State.TraceInv, State.busPos, State.stalled] using trace
  have target : (popTurn s).TargetInv := by simpa [State.TargetInv, State.busPos, State.stalled] using target
  rcases turn_cases h with ⟨-, -, host⟩ | ⟨-, rfl⟩ | ⟨ans, b, -, rfl⟩ | ⟨-, rfl⟩
  · exact host.targetInv control trace target
  · exact ctlStep_targetInv control trace target
  · exact busStep_targetInv ans b control trace target
  · exact resetStep_targetInv trace target

/-! The mode byte read back (R154 to R156). -/

theorem and_three_eq (x : Byte) : x &&& 0x03#8 = (x.extractLsb' 0 2).setWidth 8 := by
  apply BitVec.eq_of_toNat_eq
  rw [BitVec.toNat_and, BitVec.toNat_setWidth_of_le (by decide), BitVec.extractLsb'_toNat, Nat.shiftRight_zero]
  exact Nat.and_two_pow_sub_one_eq_mod x.toNat 2

/-- R155: the draw gives the other six bits of register 0x02. -/
theorem read_of_tmr {m : BitVec 2} (stored : u.tmr = some m) (draw : Byte) :
    u.read 0x02#8 draw = draw.extractLsb' 2 6 ++ m := by
  simp [Target.read, stored]

/-- R154 to R156: after a write of `b` to register 0x02 a read of it gives the two low bits of `b`. -/
theorem read_and_three (written : u.tmr = some (b.extractLsb' 0 2)) (draw : Byte) :
    u.read 0x02#8 draw &&& 0x03#8 = b &&& 0x03#8 := by
  rw [read_of_tmr written, and_three_eq, and_three_eq b]
  exact congrArg (BitVec.setWidth 8) BitVec.extractLsb'_append_eq_right

/-- Settles O21: the WRREG leaves the two bits in the target (R154), and the RDREG returns what is stored there (R155). -/
theorem modeReadsBack : Obligations.ModeReadsBack := by
  intro s data k k' ans ans' draw draw' idle phase within within'
  obtain ⟨s1, s2, accepted, run, -, regs, status, -, -, -, -, -, -, -, -, mode⟩ :=
    healthyWriteCompletes s 0x02#8 data k ans draw idle phase (by decide) within
  obtain ⟨s3, t, accepted', run', -, regs', status', -⟩ :=
    healthyReadCompletes s2 0x02#8 k' ans' draw' (by rw [status]) (by rw [status]; exact phase) (by decide)
      (by rwa [regs])
  refine ⟨s1, s2, s3, t, accepted, run, accepted', run', ?_, by rw [status'], by rw [status']⟩
  rw [regs']
  exact read_and_three mode draw'

end Sys2Proof.Machine
end

section
/-! SUPPORT. The host's procedures as text: the words they pack (R167, R173) and the commands they store (R169 to R172). -/

namespace Sys2Proof.Machine

/-! Packed words. -/

theorem append_eq_shiftLeft_or {m n : Nat} (hi : BitVec m) (lo : BitVec n) :
    hi ++ lo = (hi.setWidth (m + n) <<< n) ||| lo.setWidth (m + n) := by
  rw [BitVec.append_def, BitVec.shiftLeftZeroExtend_eq, BitVec.setWidth'_eq]

theorem assembleAxis_eq_append (hi lo : Byte) : assembleAxis hi lo = hi ++ lo := (append_eq_shiftLeft_or hi lo).symm

theorem packXY_eq_append (x y : Sample) : packXY x y = y ++ x := (append_eq_shiftLeft_or y x).symm

/-- R32, R173: HEADING finds in HXY the sample the host packed as X. -/
theorem packXY_x (x y : Sample) : (packXY x y).extractLsb' 0 16 = x := by
  rw [packXY_eq_append]
  exact BitVec.extractLsb'_append_eq_right

/-- R32, R173: HEADING finds in HXY the sample the host packed as Y. -/
theorem packXY_y (x y : Sample) : (packXY x y).extractLsb' 16 16 = y := by
  rw [packXY_eq_append]
  exact BitVec.extractLsb'_append_eq_left

/-- Settles O56: the sample is the two bytes side by side, and its sign is the MSB's. -/
theorem axisAssembly : Obligations.AxisAssembly := by
  intro hi lo
  rw [assembleAxis_eq_append, BitVec.toInt_append, if_neg (by decide), BitVec.toInt_eq_toNat_cond]
  split <;> split <;> omega

/-! The command words of a procedure. -/

section
variable (ops ops' : List HostOp) (dev : DevAddr) (reg v : Byte)

@[simp] theorem cmdWords_append : cmdWords (ops ++ ops') = cmdWords ops ++ cmdWords ops' := List.filterMap_append

@[simp] theorem cmdWords_scriptRead : cmdWords (scriptRead dev reg) = [encode (.rdreg dev reg)] := rfl

@[simp] theorem cmdWords_scriptWrite : cmdWords (scriptWrite dev reg v) = [encode (.wrreg dev reg v)] := rfl

@[simp] theorem cmdWords_ret (r : Ret) : cmdWords [.ret r] = [] := rfl

@[simp] theorem cmdWords_assemble : cmdWords (.assemble :: ops) = cmdWords ops := rfl

end

/-- R171: a mode's code is not 0b11, and the mask changes none. -/
theorem Mode.code_spec (m : Mode) : m.code ≠ 0b11#8 ∧ m.code &&& 0x03#8 = m.code := by cases m <;> decide

/-- Settles O57: each `read` stores one RDREG and each `write` one WRREG. -/
theorem procedureTraffic : Obligations.ProcedureTraffic := by
  refine ⟨?_, ?_, fun m => ⟨?_, m.code_spec⟩⟩
  · simp [Proc.script, scriptAxes, scriptAxis]
  · simp [Proc.script, scriptIdentity, scriptMode, Mode.code]
  · simp [Proc.script, scriptMode, m.code_spec]

end Sys2Proof.Machine
end

section
/-! SUPPORT. A bus command with a bound (R113, R114, R209): a count of the turns of CTL after which it is over whatever BUS does.
Each turn of CTL takes one off the count or ends the command, and no turn of BUS adds to it. -/

namespace Sys2Proof.Machine

variable {s : State} {q q' : Req} {lop : Option Op} {abort : Bool} {ph : Phase}

/-! The count. -/

/-- R100, R101, R113: turns of CTL that end a bus command with the bound `lim`, from the request `q` on: `lim` wait cycles for
each request and the internal steps of R106 and R109. -/
def Req.ctlTurns (lim : Nat) : Req → Nat
  | .start => 7 * lim + 2
  | .addrw => 6 * lim + 2
  | .txreg => 5 * lim + 2
  | .rstart => 4 * lim + 2
  | .addrr => 3 * lim + 2
  | .txdata => 2 * lim + 1
  | .rxnack => 2 * lim + 1
  | .stop => lim + 1

theorem Req.ctlTurns_le (lim : Nat) (q : Req) : q.ctlTurns lim ≤ 8 * lim + 2 := by
  cases q <;> simp only [Req.ctlTurns] <;> omega

/-- R113: a request whose wait has not used up the bound has turns left. -/
theorem lt_ctlTurns (lim : Nat) (q : Req) : lim < q.ctlTurns lim := by
  cases q <;> simp only [Req.ctlTurns] <;> omega

/-- R94 to R108: the request that follows has a wait less before it. -/
theorem ctlTurns_nextReq (lim : Nat) (next : nextReq lop q = some q') : q'.ctlTurns lim + lim ≤ q.ctlTurns lim := by
  cases q with
  | txreg =>
    rcases ite_eq_iff.1 next with ⟨-, h⟩ | ⟨-, h⟩
    all_goals cases h; simp only [Req.ctlTurns]; omega
  | start | addrw | txdata | rstart | rxnack => cases next; simp only [Req.ctlTurns]; omega
  | addrr | stop => cases next

/-- R106, R108: the requests that no other follows. -/
theorem last_of_nextReq (last : nextReq lop q = none) : q = .addrr ∨ q = .stop := by
  cases q with
  | addrr => exact .inl rfl
  | stop => exact .inr rfl
  | txreg => rcases ite_eq_iff.1 last with ⟨-, h⟩ | ⟨-, h⟩ <;> cases h
  | start | addrw | txdata | rstart | rxnack => cases last

/-- R111: a NACK leaves the wait for STOP alone. -/
theorem ctlTurns_stop_of_answered (lim : Nat) (answered : q.answered = true) :
    Req.ctlTurns lim .stop + lim ≤ q.ctlTurns lim := by
  cases q with
  | addrw | txreg | txdata | addrr => simp only [Req.ctlTurns]; omega
  | start | rstart | rxnack | stop => cases answered

/-- Turns of CTL after which a bus command with a bound is ended. -/
def State.ctlTurns (s : State) : Nat :=
  match s.wait.req with
  | some q => q.ctlTurns s.latch.ltout.toNat - s.wait.wcnt.toNat
  | none => if s.status.phase = .addrRSent then 2 * s.latch.ltout.toNat + 2 else 1

theorem ctlTurns_of_request (req : s.wait.req = some q) :
    s.ctlTurns = q.ctlTurns s.latch.ltout.toNat - s.wait.wcnt.toNat := by
  rw [State.ctlTurns, req]

theorem ctlTurns_of_noRequest (req : s.wait.req = none) :
    s.ctlTurns = if s.status.phase = .addrRSent then 2 * s.latch.ltout.toNat + 2 else 1 := by
  rw [State.ctlTurns, req]

/-! Under way, and ended. -/

/-- A bus command with a bound is being executed. -/
structure State.Bounded (s : State) : Prop where
  control : s.ControlInv
  wait : s.WaitInv
  onBus : s.onBus
  bound : s.latch.ltout ≠ 0#32

/-- R109, R114: the command is over, and nothing is left for CTL and BUS. -/
structure State.Ended (s : State) : Prop where
  busy : s.status.busy = false
  done : s.status.done = true
  lop : s.latch.lop = none
  phase : s.status.phase = .idle
  req : s.wait.req = none

/-- R113: the wait for a request has not used up the bound. -/
theorem State.Bounded.wcnt_lt (bounded : s.Bounded) (req : s.wait.req = some q) :
    s.wait.wcnt.toNat < s.latch.ltout.toNat :=
  bounded.wait bounded.bound (by simp [req])

theorem State.Bounded.ctlTurns_pos (bounded : s.Bounded) : 0 < s.ctlTurns := by
  cases req : s.wait.req with
  | some q =>
    have below := bounded.wcnt_lt req
    have left := lt_ctlTurns s.latch.ltout.toNat q
    rw [ctlTurns_of_request req]
    omega
  | none =>
    rw [ctlTurns_of_noRequest req]
    split <;> omega

theorem State.ctlTurns_le (s : State) : s.ctlTurns ≤ 8 * s.latch.ltout.toNat + 2 := by
  cases req : s.wait.req with
  | some q =>
    rw [ctlTurns_of_request req]
    exact (Nat.sub_le _ _).trans (q.ctlTurns_le _)
  | none =>
    rw [ctlTurns_of_noRequest req]
    split <;> omega

/-! One turn. -/

/-- R106, R109, R110: without a request a bus command has an internal step to take. -/
theorem internal_of_noRequest (onBus : lop = some .rd ∨ lop = some .wr) (row : sequenced lop abort ph none = true) :
    ph = .stopSent ∨ (lop = some .rd ∧ ph = .addrRSent) := by
  rcases onBus with rfl | rfl <;> cases abort
  · simpa [sequenced, readRows, or_comm] using row
  · exact .inl (by simpa [sequenced, readAbortRows] using row)
  · exact .inl (by simpa [sequenced, writeRows] using row)
  · exact .inl (by simpa [sequenced, writeAbortRows] using row)

/-- R113, R114: a wait cycle takes one off the count, or times out. -/
theorem ctlStep_request_bounded (bounded : s.Bounded) (req : s.wait.req = some q) :
    (ctlStep s).Ended ∨ ((ctlStep s).Bounded ∧ (ctlStep s).ctlTurns < s.ctlTurns) := by
  have control := ctlStep_controlInv bounded.control
  have wait := ctlStep_waitInv bounded.wait
  rw [ctlStep_of_request req] at control wait ⊢
  rw [waitCycle_eq] at control wait ⊢
  split_ifs at control wait ⊢
  · left
    exact ⟨by simp [timeout_status], by simp [timeout_status], by simp, by simp [timeout_status], by simp⟩
  · right
    refine ⟨⟨control, wait, bounded.onBus, bounded.bound⟩, ?_⟩
    have below := bounded.wcnt_lt req
    have left := lt_ctlTurns s.latch.ltout.toNat q
    have limit := s.latch.ltout.isLt
    rw [ctlTurns_of_request req, ctlTurns_of_request (s := setCount (bump s.wait.wcnt) s) req, setCount_latch,
      setCount_wait, bump_toNat]
    omega

/-- R106, R109: an internal step takes one off the count, or ends the command. -/
theorem ctlStep_internal_bounded (bounded : s.Bounded) (req : s.wait.req = none) :
    (ctlStep s).Ended ∨ ((ctlStep s).Bounded ∧ (ctlStep s).ctlTurns < s.ctlTurns) := by
  have control := ctlStep_controlInv bounded.control
  have wait := ctlStep_waitInv bounded.wait
  rcases internal_of_noRequest bounded.onBus (req ▸ bounded.control.2.1) with phase | ⟨lop, phase⟩
  · left
    rw [ctlStep_of_stopSent phase req]
    exact ⟨rfl, rfl, rfl, rfl, req⟩
  · right
    rw [ctlStep_of_addrRSent lop phase req] at control wait ⊢
    refine ⟨⟨control, wait, .inl lop, bounded.bound⟩, ?_⟩
    rw [ctlTurns_of_noRequest req, if_pos phase, ctlTurns_of_request (q := .rxnack) rfl]
    simp [Req.ctlTurns]

/-- R106, R109, R113, R114: a turn of CTL takes one off the count, or ends the command. -/
theorem ctlStep_bounded (bounded : s.Bounded) :
    (ctlStep s).Ended ∨ ((ctlStep s).Bounded ∧ (ctlStep s).ctlTurns < s.ctlTurns) := by
  cases req : s.wait.req with
  | some q => exact ctlStep_request_bounded bounded req
  | none => exact ctlStep_internal_bounded bounded req

/-- R94 to R108: a request that completes well adds nothing to the count. -/
theorem advance_ctlTurns_le (bounded : s.Bounded) (req : s.wait.req = some q) (e : BusEvent) (b : Byte) :
    (advance q b (emit e s)).ctlTurns ≤ s.ctlTurns := by
  have below := bounded.wcnt_lt req
  have wait := advance_wait q b (emit e s) bounded.onBus
  rw [ctlTurns_of_request req]
  cases follow : nextReq s.latch.lop q with
  | some q' =>
    have less := ctlTurns_nextReq s.latch.ltout.toNat follow
    simp only [emit_latch, follow] at wait
    rw [ctlTurns_of_request (q := q') (by rw [wait]), wait, advance_latch, emit_latch]
    omega
  | none =>
    simp only [emit_latch, follow] at wait
    rw [ctlTurns_of_noRequest (by rw [wait]), advance_status, advance_latch, emit_latch]
    rcases last_of_nextReq follow with rfl | rfl
    all_goals simp [Req.phase, Req.ctlTurns]; omega

/-- R111: a NACK that aborts the transaction adds nothing to the count. -/
theorem nackAbort_ctlTurns_le (bounded : s.Bounded) (req : s.wait.req = some q) (answered : q.answered = true)
    (e : BusEvent) : (nackAbort q (emit e s)).ctlTurns ≤ s.ctlTurns := by
  have below := bounded.wcnt_lt req
  have less := ctlTurns_stop_of_answered s.latch.ltout.toNat answered
  rw [ctlTurns_of_request req, ctlTurns_of_request (q := .stop) rfl]
  simp only [nackAbort_latch, emit_latch, nackAbort_wait]
  omega

/-- R95, R111, R112: a turn of BUS adds nothing to the count. -/
theorem busStep_ctlTurns_le (bounded : s.Bounded) (ans : Ack) (b : Byte) : (busStep ans b s).ctlTurns ≤ s.ctlTurns := by
  rcases busStep_cases s ans b with ⟨h, -⟩ | ⟨q, req, -, ⟨answered, -, -, h⟩ | ⟨-, -, -, h⟩ | ⟨-, h⟩⟩ <;> rw [h]
  · exact nackAbort_ctlTurns_le bounded req answered _
  · rw [ctlTurns_of_request req]
    exact (ctlTurns_of_request (s := nackStall _) req).le
  · exact advance_ctlTurns_le bounded req _ b

theorem busStep_bounded (bounded : s.Bounded) (ans : Ack) (b : Byte) : (busStep ans b s).Bounded :=
  ⟨busStep_controlInv ans b bounded.control, busStep_waitInv ans b bounded.control bounded.wait,
    by simpa [State.onBus] using bounded.onBus, by simpa using bounded.bound⟩

/-- R206: CTL and BUS leave a command that is ended. -/
theorem ctlStep_of_ended (ended : s.Ended) : ctlStep s = s := by
  simp [ctlStep, ended.req, ended.phase, ended.lop]

/-! A run. -/

/-- A turn of CTL or of BUS. -/
abbrev Turn.OfBlock (u : Turn) : Prop := u = .ctl ∨ (∃ ans b, u = .bus ans b) ∨ (∃ ans b, u = .target ans b)

/-- R57, R95: a turn of CTL or of BUS is a CTL step, or a BUS step with some answer and byte. -/
theorem turn_ofBlock {u : Turn} (block : u.OfBlock) (s : State) :
    (u = .ctl ∧ turn u s = .next (ctlStep s)) ∨ (u ≠ .ctl ∧ ∃ ans b, turn u s = .next (busStep ans b s)) := by
  rcases block with rfl | ⟨ans, b, rfl⟩ | ⟨ans, b, rfl⟩
  · exact .inl ⟨rfl, rfl⟩
  · exact .inr ⟨nofun, ans, b, rfl⟩
  · obtain ⟨ans', b', same⟩ := targetStep_eq s ans b
    exact .inr ⟨nofun, ans', b', congrArg Host.Outcome.next same⟩

theorem runTurns_of_ended {us : List Turn} (block : ∀ u ∈ us, u.OfBlock) (ended : s.Ended) : runTurns us s = .next s := by
  induction us with
  | nil => rfl
  | cons u us ih =>
    obtain ⟨here, later⟩ := List.forall_mem_cons.1 block
    refine runTurns_cons ?_ (ih later)
    rcases turn_ofBlock here s with ⟨-, h⟩ | ⟨-, ans, b, h⟩
    · rw [h, ctlStep_of_ended ended]
    · rw [h, busStep_of_noRequest ended.req]

/-- R209: as many turns of CTL as the count says, among any turns of BUS, end the command. -/
theorem runTurns_bounded {us : List Turn} (block : ∀ u ∈ us, u.OfBlock) (bounded : s.Bounded)
    (enough : s.ctlTurns ≤ us.count .ctl) : ∃ t, runTurns us s = .next t ∧ t.Ended := by
  induction us generalizing s with
  | nil =>
    have left := bounded.ctlTurns_pos
    simp at enough
    omega
  | cons u us ih =>
    obtain ⟨here, later⟩ := List.forall_mem_cons.1 block
    rcases turn_ofBlock here s with ⟨rfl, first⟩ | ⟨notCtl, ans, b, first⟩
    · rw [List.count_cons_self] at enough
      rcases ctlStep_bounded bounded with ended | ⟨bounded', less⟩
      · exact ⟨_, runTurns_cons first (runTurns_of_ended later ended), ended⟩
      · obtain ⟨t, rest, ended⟩ := ih later bounded' (by omega)
        exact ⟨t, runTurns_cons first rest, ended⟩
    · rw [List.count_cons_of_ne notCtl] at enough
      obtain ⟨t, rest, ended⟩ := ih later (busStep_bounded bounded ans b)
        ((busStep_ctlTurns_le bounded ans b).trans enough)
      exact ⟨t, runTurns_cons first rest, ended⟩

/-- Settles O25: the count of a bus command is never above 8 waits and 2 internal steps. -/
theorem boundedCommandEndsForEveryBus : Obligations.BoundedCommandEndsForEveryBus := by
  intro s us control wait onBus bound block enough
  have bounded : s.Bounded := ⟨control, wait, onBus, bound⟩
  obtain ⟨t, run, ended⟩ := runTurns_bounded block bounded (s.ctlTurns_le.trans enough)
  exact ⟨t, run, ended.busy, ended.done, ended.lop⟩

end Sys2Proof.Machine
end

section
/-! SUPPORT. The statements of the host's procedures, turn by turn (R165 to R173), and the procedures `computeHeading` and `read`
from their call to what they return. -/

namespace Sys2Proof.Machine

variable {s t : State} {i : Instr} {op : HostOp} {rest : List HostOp} {v : Word}

/-- The state whose HOST is `h`. -/
def setHost (h : HostSide) (s : State) : State := { s with host := h }

@[simp] theorem setHost_regs (h : HostSide) (s : State) : (setHost h s).regs = s.regs := rfl
@[simp] theorem setHost_status (h : HostSide) (s : State) : (setHost h s).status = s.status := rfl
@[simp] theorem setHost_latch (h : HostSide) (s : State) : (setHost h s).latch = s.latch := rfl
@[simp] theorem setHost_wait (h : HostSide) (s : State) : (setHost h s).wait = s.wait := rfl
@[simp] theorem setHost_trace (h : HostSide) (s : State) : (setHost h s).trace = s.trace := rfl
@[simp] theorem setHost_target (h : HostSide) (s : State) : (setHost h s).target = s.target := rfl
@[simp] theorem setHost_host (h : HostSide) (s : State) : (setHost h s).host = h := rfl
@[simp] theorem setHost_turns (h : HostSide) (s : State) : (setHost h s).turns = s.turns := rfl

/-- The state whose HXY is `v`. -/
def setHxy (v : Word) (s : State) : State := { s with regs := { s.regs with hxy := v } }

/-! One statement. -/

/-- The HOST's variables when `p` is called. -/
def HostSide.called (p : Proc) (h : HostSide) : HostSide :=
  { h with script := p.script, bytes := [], axes := [], result := none }

theorem turn_call (noFault : s.host.fault = none) (noProc : s.host.script = []) (p : Proc) :
    turn (.call p) s = .next (setHost (s.host.called p) s) := by
  rw [turn, hostTurn, noFault, callProc, if_pos noProc]
  rfl

theorem turn_thread (noFault : s.host.fault = none) (script : s.host.script = op :: rest) :
    turn .thread s = runOp op rest s := by
  rw [turn, hostTurn, noFault, threadStep, script]

theorem turn_thread_next (noFault : s.host.fault = none) (script : s.host.script = op :: rest)
    (next : runOp op rest s = .next t) : turn .thread s = .next t :=
  (turn_thread noFault script).trans next

/-- R165: BUSY = 0 ends the first loop of `runCmd`. -/
theorem turn_waitIdle (noFault : s.host.fault = none) (script : s.host.script = .waitIdle :: rest)
    (idle : s.status.busy = false) : turn .thread s = .next (goOn rest (load 0x0C#8 s)) := by
  simp [turn_thread noFault script, runOp, readOff_status, statusBusy_word, idle]

/-- R90, R165: `runCmd` presents a command. -/
theorem turn_writeCmd (noFault : s.host.fault = none) (script : s.host.script = .write 0x08#8 (encode i) :: rest) :
    turn .thread s = exec i (goOn rest s) := by
  rw [turn_thread noFault script, runOp, access_cmd, presentWord_cmd (decode_encode i)]

/-- R32, R173: a store to HXY. -/
theorem turn_writeHxy (noFault : s.host.fault = none) (script : s.host.script = .write 0x14#8 v :: rest) :
    turn .thread s = .next (goOn rest (setHxy v s)) := by
  rw [turn_thread noFault script, runOp, access_write (by decide)]
  rfl

/-- R165: DONE = 1 ends the second loop of `runCmd`, with the STATUS word read. -/
theorem turn_waitDone (noFault : s.host.fault = none) (script : s.host.script = .waitDone :: rest)
    (done : s.status.done = true) :
    turn .thread s =
      .next (setHost { s.host with rdata := s.status.word, st := s.status.word, script := rest } s) := by
  rw [turn_thread noFault script]
  simp [runOp, readOff_status, statusDone_word, done, goOn, setHost]

/-- R27: ERR in a STATUS word. -/
theorem statusErr_word (st : Status) : statusErr st.word = st.err.code := by
  apply BitVec.eq_of_toNat_eq
  have busy := st.busy.toNat_le
  have done := st.done.toNat_le
  have ovr := st.ovr.toNat_le
  rw [statusErr, BitVec.extractLsb'_toNat, Status.word_toNat, Nat.shiftRight_eq_div_pow]
  have err := st.err.code.isLt
  omega

/-! The loop on DONE, and `runCmd` up to it. -/

/-- R165: while the command runs, polls of DONE change the word last read alone. -/
theorem runTurns_polls (n : Nat) (noFault : s.host.fault = none) (polling : s.Polling) (busy : s.status.busy = true)
    (notDone : s.status.done = false) :
    ∃ w, runTurns (List.replicate n .thread) s = .next (setHost { s.host with rdata := w } s) := by
  induction n generalizing s with
  | zero => exact ⟨s.host.rdata, rfl⟩
  | succ n ih =>
    have first : turn .thread s = .next (load 0x0C#8 s) := by
      rw [turn, hostTurn, noFault]
      exact threadStep_polling polling busy notDone
    obtain ⟨w, polls⟩ := ih (s := load 0x0C#8 s) noFault polling busy notDone
    exact ⟨w, runTurns_cons first polls⟩

/-- R16, R92: acceptance does not depend on the HOST. -/
theorem setHost_acceptOf (i : Instr) (h : HostSide) (s : State) :
    setHost h (acceptOf i s) = acceptOf i (setHost h s) := by
  cases i <;> rfl

@[simp] theorem acceptOf_host (i : Instr) (s : State) : (acceptOf i s).host = s.host := by cases i <;> rfl

/-- R165: the HOST waits for DONE in the first `runCmd` of a procedure, and goes on with `rest`. -/
structure HostSide.AwaitsDone (rest : List HostOp) (h : HostSide) : Prop where
  noFault : h.fault = none
  script : h.script = .waitDone :: rest
  bytes : h.bytes = []

/-- R165: `runCmd` of a command, from BUSY = 0 to any number `n` of polls before the command is done. -/
theorem runTurns_scriptCmd (n : Nat) (noFault : s.host.fault = none) (bytes : s.host.bytes = [])
    (script : s.host.script = scriptCmd (encode i) ++ rest) (idle : s.status.busy = false) :
    ∃ h, runTurns ([.thread, .thread] ++ List.replicate n .thread) s = .next (acceptOf i (setHost h s)) ∧
      h.AwaitsDone rest := by
  have wait := turn_waitIdle noFault script idle
  have write := (turn_writeCmd (s := goOn _ (load 0x0C#8 s)) (i := i) (rest := .waitDone :: rest) noFault rfl).trans
    (exec_of_idle idle)
  obtain ⟨w, polls⟩ := runTurns_polls (s := acceptOf i (goOn (.waitDone :: rest) (goOn _ (load 0x0C#8 s)))) n
    (by simpa using noFault) (.inr (by simp)) (by simp) (by simp)
  rw [setHost_acceptOf, acceptOf_host] at polls
  exact ⟨_, runTurns_cons wait (runTurns_cons write polls), noFault, rfl, bytes⟩

/-- R165, R166: the call of a procedure that begins with `runCmd` of a command. -/
theorem runTurns_call (p : Proc) (n : Nat) (noFault : s.host.fault = none) (noProc : s.host.script = [])
    (idle : s.status.busy = false) (script : p.script = scriptCmd (encode i) ++ rest) :
    ∃ h, runTurns (.call p :: ([.thread, .thread] ++ List.replicate n .thread)) s = .next (acceptOf i (setHost h s)) ∧
      h.AwaitsDone rest := by
  obtain ⟨h, run, awaits⟩ := runTurns_scriptCmd (s := setHost (s.host.called p) s) n noFault rfl script idle
  exact ⟨h, runTurns_cons (turn_call noFault noProc p) run, awaits⟩

/-! What comes after `runCmd`. -/

/-- R166: `read` goes on after a command without an error. -/
theorem turn_checkErr_of_none (noFault : s.host.fault = none) (script : s.host.script = .checkErr :: rest)
    (noErr : statusErr s.host.st = 0#4) : turn .thread s = .next (goOn rest s) := by
  simp [turn_thread noFault script, runOp, noErr]

/-- R166, R176: `read` returns the error of its command. -/
theorem turn_checkErr_of_err (noFault : s.host.fault = none) (script : s.host.script = .checkErr :: rest)
    (err : statusErr s.host.st ≠ 0#4) : turn .thread s = .next (returnWith (.err (statusErr s.host.st)) s) := by
  simp [turn_thread noFault script, runOp, err]

/-- R166: the first byte a procedure reads is RXDATA. -/
theorem byte_of_readByte (bytes : s.host.bytes = []) :
    HostSide.byte { s.host with bytes := s.host.bytes ++ [(readOff s 0x10#8).extractLsb' 0 8] } 0 =
      s.regs.rxdata := by
  have low : (s.regs.rxdata.setWidth 32).extractLsb' 0 8 = s.regs.rxdata := by
    rw [BitVec.extractLsb'_setWidth_of_le (by decide), BitVec.extractLsb'_eq_self]
  simp [HostSide.byte, bytes, readOff, readReg, low]

/-- R166: after a command without an error `read` returns RXDATA. -/
theorem runTurns_returnByte (host : s.host.AwaitsDone [.checkErr, .readByte, .ret .byte]) (done : s.status.done = true)
    (noErr : s.status.err = .none) :
    ∃ h, runTurns [.thread, .thread, .thread, .thread] s = .next (returnWith (.byte s.regs.rxdata) (setHost h s)) := by
  obtain ⟨noFault, script, bytes⟩ := host
  have check : statusErr s.status.word = 0#4 := by rw [statusErr_word, noErr]; rfl
  rw [← byte_of_readByte bytes]
  exact ⟨_, runTurns_cons (turn_waitDone noFault script done) <| runTurns_cons (turn_checkErr_of_none noFault rfl check) <|
    runTurns_cons (turn_thread_next noFault rfl rfl) <| runTurns_cons (turn_thread_next noFault rfl rfl) rfl⟩

/-- R166, R176: after a command with an error `read` returns the error. -/
theorem runTurns_returnErr (host : s.host.AwaitsDone (.checkErr :: rest)) (done : s.status.done = true)
    (err : s.status.err.code ≠ 0#4) :
    ∃ h, runTurns [.thread, .thread] s = .next (returnWith (.err s.status.err.code) (setHost h s)) := by
  obtain ⟨noFault, script, -⟩ := host
  rw [← statusErr_word] at err ⊢
  exact ⟨_, runTurns_cons (turn_waitDone noFault script done) (runTurns_cons (turn_checkErr_of_err noFault rfl err) rfl)⟩

/-- R173: after HEADING `computeHeading` returns HANGLE. -/
theorem runTurns_returnAngle (host : s.host.AwaitsDone [.readAngleHi, .readAngleLo, .ret .angle])
    (done : s.status.done = true) :
    ∃ h, runTurns [.thread, .thread, .thread, .thread] s =
      .next (returnWith (.angle (s.regs.hangleHi ++ s.regs.hangleLo)) (setHost h s)) := by
  obtain ⟨noFault, script, -⟩ := host
  exact ⟨_, runTurns_cons (turn_waitDone noFault script done) <| runTurns_cons (turn_thread_next noFault rfl rfl) <|
    runTurns_cons (turn_thread_next noFault rfl rfl) <| runTurns_cons (turn_thread_next noFault rfl rfl) rfl⟩

/-! The procedures. -/

/-- Settles O58: the store to HXY, `runCmd` of HEADING, its completion, and the loads of HANGLE. -/
theorem computeHeadingProcedure : Obligations.ComputeHeadingProcedure := by
  intro s x y n control idle noFault script
  obtain ⟨phase, req⟩ := quiet_of_idle control idle
  have call := turn_call noFault script (.computeHeading x y)
  have store := turn_writeHxy (s := setHost (s.host.called (.computeHeading x y)) s) noFault rfl
  obtain ⟨h, run, awaits⟩ := runTurns_scriptCmd (i := .heading) n
    (s := goOn _ (setHxy (packXY x y) (setHost (s.host.called (.computeHeading x y)) s))) noFault rfl rfl idle
  have compute := turn_ctl_of_hdg (s := acceptOf .heading (setHost h (setHxy (packXY x y) s))) rfl phase req
  obtain ⟨h', answer⟩ := runTurns_returnAngle
    (s := completeHeading (acceptOf .heading (setHost h (setHxy (packXY x y) s)))) awaits rfl
  have angle := congrArg₂ hdg (packXY_x x y) (packXY_y x y)
  refine ⟨_, runTurns_cons call (runTurns_cons store (runTurns_trans run (runTurns_cons compute answer))), ?_⟩
  rw [← angle]
  exact ⟨congrArg (some ∘ HostResult.angle) (hiWord_loWord _), rfl, rfl, rfl, rfl, fun queued => ⟨rfl, queued, rfl⟩, rfl⟩

/-- Settles O59: `runCmd` of the RDREG, whose transaction is O19's, and the load of RXDATA. -/
theorem readProcedureOnHealthyBus : Obligations.ReadProcedureOnHealthyBus := by
  intro s reg k n ans draw control idle noFault script known within
  obtain ⟨phase, -⟩ := quiet_of_idle control idle
  obtain ⟨h, run, awaits⟩ := runTurns_call (.read Config.devAddr reg) n noFault script idle rfl
  obtain ⟨s1, t, accepted, bus, trace, regs, status, -, -, -, host, turns, -⟩ :=
    healthyReadCompletes (setHost h s) reg k ans draw idle phase known within
  obtain rfl := Host.Outcome.next.inj ((exec_of_idle (s := setHost h s) idle).symm.trans accepted)
  obtain ⟨h', answer⟩ := runTurns_returnByte (s := t) (host ▸ awaits) (by rw [status]) (by rw [status])
  refine ⟨_, runTurns_trans (runTurns_trans run bus) answer, ?_⟩
  simp [State.ProgramEnded, trace, regs, status, turns]

/-- R96: whatever BUS answers, START completes and the address is requested. -/
theorem turn_start (req : s.wait.req = some .start) (pending : s.wait.reqst = .pending) (ans : Ack) (b : Byte) :
    turn (.bus ans b) s = .next (issue .addrw (setPhase .startSent (emit .start s))) :=
  congrArg Host.Outcome.next (busStep_of_well req pending nofun)

/-- R96, R111, R108, R109: a bus command whose address is answered NACK, with detection on. -/
theorem runTurns_addressNack (req : s.wait.req = some .start) (pending : s.wait.reqst = .pending)
    (detection : s.latch.lnacke = true) (ans : Ack) (b : Byte) :
    ∃ t, runTurns [.bus ans b, .bus .nack b, .bus ans b, .ctl] s = .next t ∧
      t.trace = s.trace ++ [.start, .addr s.latch.ldev .w .nack, .stop] ∧
      t.status = { s.status with
        phase := .idle, busy := false, done := true, err := .deviceNotAck, errph := .addrWSent } ∧
      t.host = s.host ∧ t.turns = s.turns := by
  have nack := turn_nack (s := issue .addrw (setPhase .startSent (emit .start s))) (b := b) rfl rfl rfl detection
  refine ⟨_, runTurns_cons (turn_start req pending ans b) (runTurns_cons nack (runTurns_stop rfl rfl)), ?_⟩
  exact ⟨by simp [Req.event], rfl, rfl, rfl⟩

/-- Settles O60: `runCmd` of the RDREG, the NACK of the address, which ends the command, and its error. -/
theorem readProcedureReportsNack : Obligations.ReadProcedureReportsNack := by
  intro s dev reg b ans control idle noFault script detection
  obtain ⟨h, run, awaits⟩ := runTurns_call (.read dev reg) 0 noFault script idle rfl
  obtain ⟨t, bus, trace, status, host, turns⟩ :=
    runTurns_addressNack (s := acceptOf (.rdreg dev reg) (setHost h s)) rfl rfl detection ans b
  have err : t.status.err = .deviceNotAck := by rw [status]
  obtain ⟨h', answer⟩ := runTurns_returnErr (s := t) (by rw [host]; exact awaits) (by rw [status]) (by rw [err]; decide)
  refine ⟨_, runTurns_trans (runTurns_trans run bus) answer, ?_⟩
  rw [err]
  simp [State.ProgramEnded, trace, status, turns, ErrCode.code, acceptOf, acceptRdreg]

end Sys2Proof.Machine
end

section
/-! SUPPORT. The error table (R29, R180): what one agent's turn leaves of ERR, ERRPH and DONE, and of the abort they go with. -/

namespace Sys2Proof.Machine

variable {s t : State} {q : Req}

@[simp] theorem advance_abort (q : Req) (b : Byte) (s : State) : (advance q b s).wait.abort = s.wait.abort := by
  cases q <;> simp [advance]
  split <;> simp

/-- R180: a wait for any request can time out, and its phase is one of BUS_TIMEOUT's. -/
theorem phase_mem_busTimeout (q : Req) : q.phase ∈ errPhases .busTimeout := by
  cases q <;> decide

/-- R104, R180: a NACK comes at an answered request alone, and the phase of each is one of DEVICE_NOT_ACK's. -/
theorem phase_mem_deviceNotAck (answered : q.answered = true) : q.phase ∈ errPhases .deviceNotAck := by
  cases q with
  | addrw | txreg | txdata | addrr => decide
  | start | rstart | rxnack | stop => cases answered

/-- R180: with no command under way only the table is left to keep. -/
theorem errorInv_of_ended (lop : s.latch.lop = none) (table : s.status.errph ∈ errPhases s.status.err) : s.ErrorInv :=
  ⟨table, fun busy => absurd lop busy⟩

/-- R92: acceptance clears DONE, ERR, ERRPH and `abort`. -/
theorem acceptOf_errorInv (i : Instr) : (acceptOf i s).ErrorInv := by
  have abort : (acceptOf i s).wait.abort = false := by cases i <;> rfl
  simp [State.ErrorInv, abort, errPhases]

/-- R93: a word is rejected where no command runs, so the error it records stands with no command under way. -/
theorem HostEffect.errorInv (h : HostEffect s t) (control : s.ControlInv) (hs : s.ErrorInv) : t.ErrorInv := by
  cases h with
  | accepted _ i _ => exact acceptOf_errorInv i
  | rejected _ idle =>
    have off : s.latch.lop = none := by simpa [idle] using control.1
    exact errorInv_of_ended off (List.mem_singleton_self _)
  | quiet | store | clearOvr | dropped => exact hs

/-- R114, R181: a timeout records its own error, or leaves the one it finds. -/
theorem timeout_errorInv (q : Req) (hs : s.ErrorInv) : (timeout q s).ErrorInv := by
  refine errorInv_of_ended (by simp) ?_
  rw [timeout_status]
  by_cases clear : s.status.err = .none
  · simpa [clear] using phase_mem_busTimeout q
  · simpa [clear] using hs.1

/-- R139: a SECTOR without a sector records ANGLE_DOMAIN; any other leaves the error. -/
theorem completeSector_errorInv (hs : s.ErrorInv) : (completeSector s).ErrorInv := by
  refine errorInv_of_ended (by simp) ?_
  rw [completeSector_status]
  by_cases outside : sectorOf s.latch.lain = .none
  · simp [outside, errPhases]
  · simpa [outside] using hs.1

theorem ctlStep_errorInv (hs : s.ErrorInv) : (ctlStep s).ErrorInv := by
  rcases ctlStep_cases s with ⟨q, -, h⟩ | ⟨-, -, h⟩ | ⟨-, -, -, h⟩ | ⟨-, -, h⟩ | ⟨-, -, h⟩ | h <;> rw [h]
  · rcases waitCycle_cases s q with ⟨h, -⟩ | ⟨h, -⟩ <;> rw [h]
    · exact hs
    · exact timeout_errorInv q hs
  · exact errorInv_of_ended rfl hs.1
  · exact hs
  · exact errorInv_of_ended rfl hs.1
  · exact completeSector_errorInv hs
  · exact hs

/-- R111: a NACK that aborts a command records the NACK; DONE stays 0. -/
theorem nackAbort_errorInv (answered : q.answered = true) (hs : s.ErrorInv) : (nackAbort q s).ErrorInv := by
  obtain ⟨-, running⟩ := hs
  exact ⟨phase_mem_deviceNotAck answered, fun lop => ⟨(running lop).1, nofun, fun _ => rfl⟩⟩

/-- R111: of the steps of BUS only the NACK that aborts a command touches ERR, ERRPH or `abort`. -/
theorem busStep_errorInv (ans : Ack) (b : Byte) (hs : s.ErrorInv) : (busStep ans b s).ErrorInv := by
  rcases busStep_cases s ans b with ⟨h, -⟩ | ⟨q, -, -, ⟨answered, -, -, h⟩ | ⟨-, -, -, h⟩ | ⟨-, h⟩⟩ <;> rw [h]
  · exact hs
  · exact nackAbort_errorInv answered hs
  · exact hs
  · simpa [State.ErrorInv] using hs

/-- Settles O29: each agent's turn keeps the invariant. -/
theorem stepKeepsErrorTable : Obligations.StepKeepsErrorTable := by
  intro s s' h control hs
  have control : (popTurn s).ControlInv := by simpa [State.ControlInv, State.stalled] using control
  have hs : (popTurn s).ErrorInv := by simpa [State.ErrorInv] using hs
  rcases turn_cases h with ⟨-, -, host⟩ | ⟨-, rfl⟩ | ⟨ans, b, -, rfl⟩ | ⟨-, rfl⟩
  · exact host.errorInv control hs
  · exact ctlStep_errorInv hs
  · exact busStep_errorInv ans b hs
  · exact errorInv_of_ended rfl (List.mem_singleton_self _)

end Sys2Proof.Machine
end

section
/-! SUPPORT. The RESET step (R200): what it takes from the state before it, and what a load returns after it (R201). -/

namespace Sys2Proof.Machine

variable (s : State)

/-- R200: no request, no wait counted and no abort; `reqst` is kept (log 6). -/
theorem resetStep_wait : (resetStep s).wait = { req := none, reqst := s.wait.reqst, wcnt := 0#32, abort := false } := by
  simp [resetStep]

/-- R200: REL is all a reset adds to the trace, and only where the bus was owned. -/
theorem resetStep_trace : (resetStep s).trace = s.trace ++ (if owned s.trace = true then [.rel] else []) :=
  release_trace s

/-- R152, R200: that REL is all the target sees of a reset. -/
theorem resetStep_target :
    (resetStep s).target = if owned s.trace = true then { s.target with tseq := .free } else s.target :=
  release_target s

/-- R201: every register reads 0 after a reset but HSECTOR, whose NONE is 15 (R35). -/
theorem readReg_reset (r : Reg) : readReg .reset r = if r.offset = 0x28#8 then 0x0000000F#32 else 0#32 := by
  cases r <;> rfl

/-- R201, R53: a load at any offset after a reset. -/
theorem readOff_reset (off : BitVec 8) : readOff .reset off = if off = 0x28#8 then 0x0000000F#32 else 0#32 := by
  cases reg : Reg.ofOffset off with
  | none => rw [readOff_reserved reg, if_neg (show off ≠ 0x28#8 from ne_offset_of_reserved reg .hsector)]
  | some r =>
    obtain rfl := eq_offset_of_ofOffset reg
    rw [readOff_offset, readReg_reset]

/-- Settles O42: part by part of the state after the RESET step, and register by register after power-on. -/
theorem resetStepState : Obligations.ResetStepState := by
  refine ⟨fun s => ⟨resetStep s, rfl, rfl, rfl, rfl, ?_⟩, fun off _ => readOff_reset off, rfl, rfl, rfl, rfl⟩
  exact ⟨resetStep_wait s, resetStep_trace s, resetStep_target s, resetStep_host s⟩

end Sys2Proof.Machine
end
